-- ==== Sys2Proof/Word.lean ====
section
/-! DEFINITION. The word types of the INT512 core (spec 00_scope.md R7, R8, R10, R11). -/

namespace Sys2Proof

/-- One machine word, 64 bits (R7). -/
abbrev Word := BitVec 64

/-- One 512-bit value, eight words with word 0 in the low bits (R8, R15). -/
abbrev Value := BitVec 512

/-- One character of a host's text buffer (45_codec_procedures.md R151, G1: ASCII). -/
abbrev Byte := BitVec 8

/-- A word address of the host window (R10: `WADDR_BITS = 7`). -/
abbrev WAddr := BitVec 7

/-- The 64-bit value a host writes to CMD (R11, R60). -/
abbrev Command := BitVec 64

/-- The number of a value register x0..x7 (R9, R63). -/
abbrev RegIdx := Fin 8

/-- The number of a word within a value, 0 least significant (R15). -/
abbrev WordIdx := Fin 8

end Sys2Proof
end

