-- ==== Sys2Proof/Config.lean ====
section
/-! DEFINITION. What an implementation or the outside of the block fixes, and the free values of the model.
An `opaque` constant has no value that a proof can use: a statement that mentions one holds whatever it is. -/

namespace Sys2Proof.Config

/-- Bits 63:1 of a STATUS read that returns BUSY = 1, one draw per read: "every other bit of the returned word is
unspecified" (70_reset_and_hazards.md R231, U4; log 4). -/
opaque busyStatusBits : Nat → BitVec 63

/-- What the text buffer of a host procedure holds after a status other than OK (45_codec_procedures.md R154, U2; log 13). -/
opaque unspecifiedText : Nat → List Byte

/-- The value output of a host procedure after a status other than OK (R154, U2; log 13). -/
opaque unspecifiedValue : Nat → Value

/-- `HOST_BRIDGE_BYTE_ORDER` (20_memory.md R48, U6): which of the eight byte lanes of a window word, lane 0 holding bits
7:0, a host bridge shows at each byte offset. A property of the bridge, outside the block (log 18). -/
opaque hostBridgeByteOrder : Fin 8 → Fin 8

end Sys2Proof.Config
end

