-- ==== Sys2Proof/Machine/Value.lean ====
section
/-! DEFINITION. Readings and parts of a 512-bit value (00_scope.md R12, R15, R16; 41_signed.md R120). -/

namespace Sys2Proof.Machine

/-- The word numbers 0..7, low to high. -/
def wordIndices : List WordIdx := [0, 1, 2, 3, 4, 5, 6, 7]

/-- R15: `word(v, j) = v[64*j+63 : 64*j]`. -/
def word (v : Value) (j : WordIdx) : Word := v.extractLsb' (64 * j.val) 64

/-- `word(v, j) <- w`: the other words of v are unchanged (20_memory.md R43). -/
def setWord (v : Value) (j : WordIdx) (w : Word) : Value :=
  (v &&& ~~~((BitVec.allOnes 64).setWidth 512 <<< (64 * j.val))) ||| (w.setWidth 512 <<< (64 * j.val))

/-- R16: the unsigned reading, in 0..2^512-1. -/
def uval (v : Value) : Nat := v.toNat

/-- R120: `sign(v) = v[511]`. -/
def sign (v : Value) : Bool := v.getLsbD 511

/-- R16: the two's-complement reading `uval(v) - 2^512 * v[511]`. -/
def sval (v : Value) : Int := (uval v : Int) - 2 ^ 512 * (if sign v then 1 else 0)

/-- R16: the pattern with `uval(enc(n)) = n mod 2^512`. -/
def enc (n : Int) : Value := BitVec.ofInt 512 n

/-- R12: the largest signed value, 2^511 - 1. -/
def signedMax : Int := 2 ^ 511 - 1

/-- R12: the smallest signed value, -2^511. -/
def signedMin : Int := -2 ^ 511

end Sys2Proof.Machine
end

