-- ==== Sys2Proof/Machine/Datapath.lean ====
section
/-! DEFINITION. The multi-word datapaths, word by word as the spec's pseudocode has them: `add_words` (40_unsigned.md R100),
`sub_words` (R102), `mul_words` (R104), `div_bits` (R106) and the sign helpers `neg` and `mag` (41_signed.md R120). Their
closed forms are lemmas of Laws/Datapath.lean. All scratch is local to one call (10_state.md R35). -/

namespace Sys2Proof.Machine

/-! ## Carry and borrow chains -/

/-- One round of R100: "word sum = a[i] + b[i] + carry-in, carry-out = 1 if the 64-bit addition wrapped". -/
def addWordStep (a b : Value) (acc : Value × BitVec 1) (i : WordIdx) : Value × BitVec 1 :=
  let t : BitVec 65 := (word a i).setWidth 65 + (word b i).setWidth 65 + acc.2.setWidth 65
  (setWord acc.1 i (t.extractLsb' 0 64), t.extractLsb' 64 1)

/-- R100: `add_words(a, b, cin)`, the sum and the carry out of word 7. -/
def addWords (a b : Value) (cin : BitVec 1) : Value × BitVec 1 := wordIndices.foldl (addWordStep a b) (0, cin)

/-- One round of R102, "computed modulo 2^65". -/
def subWordStep (a b : Value) (acc : Value × BitVec 1) (i : WordIdx) : Value × BitVec 1 :=
  let t : BitVec 65 := (word a i).setWidth 65 - (word b i).setWidth 65 - acc.2.setWidth 65
  (setWord acc.1 i (t.extractLsb' 0 64), t.extractLsb' 64 1)

/-- R102: `sub_words(a, b, bin)`, the difference and the borrow out of word 7. -/
def subWords (a b : Value) (bin : BitVec 1) : Value × BitVec 1 := wordIndices.foldl (subWordStep a b) (0, bin)

/-! ## Schoolbook multiply -/

/-- The running state of R104: the partial sums p0..p7, the 64-bit carry and the overflow flag. -/
structure MulAcc where
  sums : Value
  carry : Word
  ovf : Bool
deriving DecidableEq, Repr

/-- One inner round of R104, word `i` of b and word `j` of a. -/
def mulWordStep (a b : Value) (i : WordIdx) (acc : MulAcc) (j : WordIdx) : MulAcc :=
  if h : i.val + j.val > 7 then
    if word a j ≠ 0 then { acc with ovf := true } else acc
  else
    let p : WordIdx := ⟨i.val + j.val, by omega⟩
    let t : BitVec 128 :=
      (word a j).setWidth 128 * (word b i).setWidth 128 + (word acc.sums p).setWidth 128 + acc.carry.setWidth 128
    { acc with sums := setWord acc.sums p (t.extractLsb' 0 64), carry := t.extractLsb' 64 64 }

/-- One outer round of R104: a zero word of b is skipped; a carry left after the round belongs to position 8. -/
def mulRow (a b : Value) (acc : Value × Bool) (i : WordIdx) : Value × Bool :=
  if word b i = 0 then acc
  else
    let r := wordIndices.foldl (mulWordStep a b i) { sums := acc.1, carry := 0, ovf := acc.2 }
    (r.sums, r.ovf || r.carry != 0)

/-- R104: `mul_words(a, b)`, the stored words and the overflow flag. -/
def mulWords (a b : Value) : Value × Bool := wordIndices.foldl (mulRow a b) (0, false)

/-! ## Long division -/

/-- R106: the index of the most-significant set bit of a nonzero value. -/
def msbIndex (v : Value) : Nat := Nat.log2 (uval v)

/-- R106 at bit `k`: shift the partial remainder left, inject bit k of a, subtract b if it fits. -/
def divStep (a b : Value) (k : Nat) (acc : Value × Value) : Value × Value :=
  let r : Value := (acc.2 <<< 1) ||| (if a.getLsbD k then 1 else 0)
  if uval b ≤ uval r then (acc.1 ||| ((1 : Value) <<< k), (subWords r b 0).1) else (acc.1, r)

/-- The rounds of R106 for bits k-1 down to 0. -/
def divLoop (a b : Value) : Nat → Value × Value → Value × Value
  | 0, acc => acc
  | k + 1, acc => divLoop a b k (divStep a b k acc)

/-- R106: `div_bits(a, b)`, quotient and remainder, for `uval(b) != 0` and `uval(a) >= uval(b)`. -/
def divBits (a b : Value) : Value × Value := divLoop a b (msbIndex a + 1) (0, 0)

/-- The unsigned divide of R107 for a nonzero divisor: the fast path for a < b, else the long division. -/
def divUnsigned (a b : Value) : Value × Value := if uval a < uval b then (0, a) else divBits a b

/-! ## Sign and magnitude (R120) -/

/-- R120: complement every word, then add 1 with carry propagation; the carry out is discarded. -/
def neg (v : Value) : Value := (addWords (~~~v) 0 1).1

/-- R120: `mag(v) = sign(v) == 1 ? neg(v) : v`. -/
def mag (v : Value) : Value := if sign v then neg v else v

/-- `c ? neg(v) : v`, the sign rule of R124 and R125. -/
def negateIf (c : Bool) (v : Value) : Value := if c then neg v else v

end Sys2Proof.Machine
end

