-- ==== Sys2Proof/Syntax.lean ====
section
/-! DEFINITION. The commands of the INT512 core as syntax: one constructor of `Instr` per row of spec/opcode_table.json
(30_encoding.md R65), the named constants of LDC (10_state.md R34) and the six formats (R62). -/

namespace Sys2Proof

/-- The seven named constants (10_state.md R34). Selector 7 names none of them (30_encoding.md R68; log 11). -/
inductive NamedConst where
  | uzero | uone | umax | szero | sone | smax | smin
deriving DecidableEq, Repr

/-- The command formats of 30_encoding.md R62. -/
inductive Format where
  | op3 | div4 | op2 | cmp2 | tst1 | ldk
deriving DecidableEq, Repr

/-- The listed opcodes of 30_encoding.md R65. -/
inductive Opcode where
  | addu | subu | mulu | divu | cmpu | tstz
  | adds | subs | muls | divs | cmps | tstn | neg
  | ldc | mov
deriving DecidableEq, Repr

/-- A command with its fields (30_encoding.md R61, R62, R65). -/
inductive Instr where
  /-- R101: rd = sum, rs1 = a, rs2 = b. -/
  | addu (rd rs1 rs2 : RegIdx)
  /-- R103: rd = difference, rs1 = minuend, rs2 = subtrahend. -/
  | subu (rd rs1 rs2 : RegIdx)
  /-- R105: rd = product. -/
  | mulu (rd rs1 rs2 : RegIdx)
  /-- R107: rd = quotient, rd2 = remainder, rs1 = dividend, rs2 = divisor. -/
  | divu (rd rd2 rs1 rs2 : RegIdx)
  /-- R108. -/
  | cmpu (rs1 rs2 : RegIdx)
  /-- R109. -/
  | tstz (rs1 : RegIdx)
  /-- R122. -/
  | adds (rd rs1 rs2 : RegIdx)
  /-- R123. -/
  | subs (rd rs1 rs2 : RegIdx)
  /-- R124. -/
  | muls (rd rs1 rs2 : RegIdx)
  /-- R125: rd = quotient, rd2 = remainder, rs1 = dividend, rs2 = divisor. -/
  | divs (rd rd2 rs1 rs2 : RegIdx)
  /-- R126. -/
  | cmps (rs1 rs2 : RegIdx)
  /-- R127. -/
  | tstn (rs1 : RegIdx)
  /-- R121. -/
  | neg (rd rs1 : RegIdx)
  /-- R140: rd = destination, k = the named constant. -/
  | ldc (rd : RegIdx) (k : NamedConst)
  /-- R141. -/
  | mov (rd rs1 : RegIdx)
deriving DecidableEq, Repr

end Sys2Proof
end

