-- ==== Sys2Proof/Machine/State.lean ====
section
/-! DEFINITION. The state of the INT512 core (10_state.md), the events that can come next (20_memory.md R49,
70_reset_and_hazards.md R220), the state after reset, and why a step can stop. Plain data only. -/

namespace Sys2Proof.Machine

/-- The eight value registers x0..x7 (R20); no register is hardwired (R21). -/
structure RegFile where
  x0 : Value
  x1 : Value
  x2 : Value
  x3 : Value
  x4 : Value
  x5 : Value
  x6 : Value
  x7 : Value
deriving DecidableEq, Repr

/-- The legal values of STATUS.CODE, the closed enumeration of 60_exceptions.md R200. Codes 8..15 are never written. -/
inductive StatusCode where
  /-- 0: success -/
  | ok
  /-- 1: "unsigned result ≥ 2^512 or signed result > max" -/
  | overflow
  /-- 2: "unsigned result < 0 or signed result < min" -/
  | underflow
  /-- 3: divide by zero -/
  | divByZero
  /-- 4: only host procedures -/
  | invalidString
  /-- 5: only host procedures -/
  | invalidBase
  /-- 6: only host procedures -/
  | nullPointer
  /-- 7: the latched command is not a legal encoding -/
  | illegalCommand
deriving DecidableEq, Repr

/-- The legal values of STATUS.CMP (R31). The pattern 10 is never written. -/
inductive CmpFlag where
  /-- 00: equal -/
  | equal
  /-- 01: first operand greater -/
  | greater
  /-- 11: first operand less -/
  | less
deriving DecidableEq, Repr

/-- The pending command: "the latched command word and the values of its source registers as they stood at the CMD
write" (R35); the CMD write latches the whole register file (R23). -/
structure Pending where
  word : Command
  operands : RegFile
deriving DecidableEq, Repr

/-- What can happen next: a host access (20_memory.md R42, R43), the reset input (70_reset_and_hazards.md R220), or the
core's turn to take its completion step (60_exceptions.md R204). -/
inductive Event where
  /-- `MemRead(a, 8)` by the host -/
  | read (a : WAddr)
  /-- `MemWrite(a, 8, v)` by the host -/
  | write (a : WAddr) (v : Word)
  /-- the reset input is asserted -/
  | reset
  /-- the core's turn -/
  | core
deriving DecidableEq, Repr

structure State where
  /-- x0..x7 (R20) -/
  regs : RegFile
  /-- CMD, the last value the host wrote there (R23) -/
  cmd : Command
  /-- STATUS.BUSY (R27) -/
  busy : Bool
  /-- STATUS.CODE (R28) -/
  code : StatusCode
  /-- STATUS.Z (R29) -/
  z : Bool
  /-- STATUS.N (R30) -/
  n : Bool
  /-- STATUS.CMP (R31) -/
  cmp : CmpFlag
  /-- the hidden pending command (R35) -/
  pending : Option Pending
  /-- the model's fault mark, "a Boolean that is not hardware state" (R36) -/
  faultMark : Bool
  /-- the model's own: how many free values have been drawn (log 4) -/
  draws : Nat
  /-- the model's own: what happens next, in order; empty means the core's turn (R49; log 1) -/
  schedule : List Event
  /-- the model's own: the words the host's reads returned, newest first (R42; log 5) -/
  responses : List Word
deriving DecidableEq, Repr

/-- All registers zero (R22). -/
def RegFile.zero : RegFile :=
  { x0 := 0, x1 := 0, x2 := 0, x3 := 0, x4 := 0, x5 := 0, x6 := 0, x7 := 0 }

/-- The machine right after reset (70_reset_and_hazards.md R222: "every piece of state holds the value 10_state.md gives
it"), with the fault mark clear (log 10) and nothing scheduled, read or drawn yet (log 1, 4, 5). -/
def State.reset : State :=
  { regs := RegFile.zero, cmd := 0, busy := false, code := .ok, z := false, n := false, cmp := .equal,
    pending := none, faultMark := false, draws := 0, schedule := [], responses := [] }

/-- Why a step can fault. The block itself never traps (60_exceptions.md R203). -/
inductive Fault where
  /-- `fault ProtocolViolation` (70_reset_and_hazards.md R230): the host made the access `e`, not a STATUS read, while
  BUSY = 1. Raised by `violate`, from the window accesses of Machine/Completion.lean. The hardware's behaviour is
  unspecified there, so stopping is safe. `marked` is the state with the fault mark set (R36); of its other fields only
  what a reset keeps has a meaning (log 3). -/
  | protocolViolation (e : Event) (marked : State)
deriving DecidableEq, Repr

/-- Why a step can be refused. -/
inductive Refusal where
  /-- a command of the opcode table without a meaning; no arm of `exec` answers so. Safe. -/
  | notModelled (mnemonic : String)
deriving DecidableEq, Repr

end Sys2Proof.Machine
end

