-- ==== Sys2Proof/Machine/Flags.lean ====
section
/-! DEFINITION. Every flag and status computation: the compare results (40_unsigned.md R108, 41_signed.md R126), the zero and
sign tests (R109, R127) and the classification of each arithmetic command (R101, R103, R105, R122 to R125). -/

namespace Sys2Proof.Machine

/-- R108: "compare from the most-significant word down to the least; first differing word determines the order". -/
def compareWords (a b : Value) : List WordIdx → CmpFlag
  | [] => .equal
  | i :: rest =>
    if word a i ≠ word b i then (if (word b i).toNat < (word a i).toNat then .greater else .less)
    else compareWords a b rest

/-- R108: the unsigned compare, words 7 down to 0. -/
def compareUnsigned (a b : Value) : CmpFlag := compareWords a b wordIndices.reverse

/-- R126: "differing signs decide immediately (negative < non-negative); equal signs delegate to unsigned compare". -/
def compareSigned (a b : Value) : CmpFlag :=
  if sign a ≠ sign b then (if sign a then .less else .greater) else compareUnsigned a b

/-- R109: "true iff every word is 0". -/
def isZero (a : Value) : Bool := wordIndices.all (fun i => word a i == 0)

/-- R101, R105: OVERFLOW iff the datapath's carry or overflow is set. -/
def overflowIf (c : Bool) : StatusCode := if c then .overflow else .ok

/-- R103: UNDERFLOW iff the borrow out is set. -/
def underflowIf (c : Bool) : StatusCode := if c then .underflow else .ok

/-- R122: operands of one sign and a sum `s` of the other; 90_conflicts.md C8: sign bit 0 is the positive case. -/
def addSignedStatus (a b s : Value) : StatusCode :=
  if sign a = sign b ∧ sign s ≠ sign a then (if sign a then .underflow else .overflow) else .ok

/-- R123: operands of different signs and a difference `d` whose sign is not a's. -/
def subSignedStatus (a b d : Value) : StatusCode :=
  if sign a ≠ sign b ∧ sign d ≠ sign a then (if sign a then .underflow else .overflow) else .ok

/-- R124: `badsign`, the final sign bit of the product `r` lands incorrectly for the expected sign. -/
def badProductSign (a b r : Value) : Bool :=
  (sign a == sign b && sign r) || (sign a != sign b && !sign r && uval r != 0)

/-- R124: OVERFLOW in both directions, never UNDERFLOW (90_conflicts.md C2). -/
def mulSignedStatus (a b r : Value) (uovf : Bool) : StatusCode := overflowIf (uovf || badProductSign a b r)

/-- R125: OVERFLOW when the operands' signs agree and the quotient `q` reads negative (90_conflicts.md C1). -/
def divSignedStatus (a b q : Value) : StatusCode := overflowIf (sign a == sign b && sign q)

end Sys2Proof.Machine
end

