-- ==== Sys2Proof/WellFormed.lean ====
section
/-! DEFINITION. When a command is legal as syntax. All register numbers are legal in every field and a register may stand
in several fields; "the only combination that is illegal is rd = rd2 in DIVU and DIVS" (30_encoding.md R63, R67). A
constant selector 7 (R68) cannot be written as a `NamedConst`. -/

namespace Sys2Proof

/-- R67: the quotient and the remainder of a divide go to different registers. -/
def Instr.wellFormed (i : Instr) : Bool :=
  match i with
  | .divu rd rd2 _ _ => rd != rd2
  | .divs rd rd2 _ _ => rd != rd2
  | .addu _ _ _ => true
  | .subu _ _ _ => true
  | .mulu _ _ _ => true
  | .cmpu _ _ => true
  | .tstz _ => true
  | .adds _ _ _ => true
  | .subs _ _ _ => true
  | .muls _ _ _ => true
  | .cmps _ _ => true
  | .tstn _ => true
  | .neg _ _ => true
  | .ldc _ _ => true
  | .mov _ _ => true

end Sys2Proof
end

