-- ==== Sys2Proof/Decode.lean ====
section
/-! DEFINITION. The decoder of 30_encoding.md R66, total on every 64-bit word and naming why it rejects one, and after it
the encoder of R71, both written from the tables of R61, R62 and R65. -/

namespace Sys2Proof

/-- Why a command word is illegal (R66). All four complete with ILLEGAL_COMMAND and behave identically (R69). -/
inductive IllegalReason where
  /-- bits 7:0 are no opcode of R65 -/
  | reservedOpcode
  /-- an unused field, res or hi is not 0 (R62) -/
  | nonzeroMustBeZero
  /-- DIVU or DIVS with rd = rd2 (R67) -/
  | sameDivDestination
  /-- LDC with k = 7 (R68) -/
  | reservedConstant
deriving DecidableEq, Repr

/-- What the decoder says of a word: R66's `ILLEGAL` with its reason, or the command. -/
inductive Decoded where
  | illegal (why : IllegalReason)
  | legal (i : Instr)
deriving DecidableEq, Repr

/-! ## The tables -/

/-- The opcode byte of R65. -/
def Opcode.byte : Opcode → BitVec 8
  | .addu => 0x01
  | .subu => 0x02
  | .mulu => 0x03
  | .divu => 0x04
  | .cmpu => 0x05
  | .tstz => 0x06
  | .adds => 0x11
  | .subs => 0x12
  | .muls => 0x13
  | .divs => 0x14
  | .cmps => 0x15
  | .tstn => 0x16
  | .neg => 0x17
  | .ldc => 0x20
  | .mov => 0x21

/-- The format of each opcode (R65). -/
def Opcode.format : Opcode → Format
  | .addu | .subu | .mulu | .adds | .subs | .muls => .op3
  | .divu | .divs => .div4
  | .cmpu | .cmps => .cmp2
  | .tstz | .tstn => .tst1
  | .neg | .mov => .op2
  | .ldc => .ldk

/-- The 64-bit mask of each format, 1 = checked (R62). -/
def Format.mask : Format → Command
  | .op3 => 0xFFFFFFFFFFF038FF
  | .div4 => 0xFFFFFFFFFFF000FF
  | .op2 => 0xFFFFFFFFFFFE38FF
  | .cmp2 => 0xFFFFFFFFFFF03FFF
  | .tst1 => 0xFFFFFFFFFFFE3FFF
  | .ldk => 0xFFFFFFFFFF8FF8FF

/-- The match value of a row: "the opcode in bits 7:0 and zero elsewhere" (R62). -/
def Opcode.matchWord (op : Opcode) : Command := op.byte.setWidth 64

/-- The rows of R65, in the table's order. -/
def opcodeRows : List Opcode :=
  [.addu, .subu, .mulu, .divu, .cmpu, .tstz, .adds, .subs, .muls, .divs, .cmps, .tstn, .neg, .ldc, .mov]

/-- The row whose opcode is a given byte, if there is one (R66, first line). -/
def opcodeOfByte (b : BitVec 8) : Option Opcode := opcodeRows.find? (fun op => op.byte == b)

/-- The selector number of each named constant (10_state.md R34, R64). -/
def NamedConst.selector : NamedConst → BitVec 3
  | .uzero => 0
  | .uone => 1
  | .umax => 2
  | .szero => 3
  | .sone => 4
  | .smax => 5
  | .smin => 6

/-- The constant a selector names; 7 names none (R64, R68). -/
def namedConstOfSelector (k : BitVec 3) : Option NamedConst :=
  [NamedConst.uzero, .uone, .umax, .szero, .sone, .smax, .smin].find? (fun c => c.selector == k)

/-! ## Fields (R61) -/

/-- The 3-bit register field whose lowest bit is `lo`, as a register number (R63). -/
def regField (c : Command) (lo : Nat) : RegIdx := ⟨(c.extractLsb' lo 3).toNat, (c.extractLsb' lo 3).isLt⟩

/-- Field rd, bits 10:8. -/
def rdField (c : Command) : RegIdx := regField c 8

/-- Field rd2, bits 13:11. -/
def rd2Field (c : Command) : RegIdx := regField c 11

/-- Field rs1, bits 16:14. -/
def rs1Field (c : Command) : RegIdx := regField c 14

/-- Field rs2, bits 19:17. -/
def rs2Field (c : Command) : RegIdx := regField c 17

/-- Field k, bits 22:20. -/
def kField (c : Command) : BitVec 3 := c.extractLsb' 20 3

/-! ## Decode -/

/-- A divide, or R67's rejection of rd = rd2. -/
def decodeDivide (rd rd2 : RegIdx) (i : Instr) : Decoded :=
  if rd = rd2 then .illegal .sameDivDestination else .legal i

/-- LDC, or R68's rejection of k = 7. -/
def decodeLoadConstant (rd : RegIdx) (k : Option NamedConst) : Decoded :=
  match k with
  | some c => .legal (.ldc rd c)
  | none => .illegal .reservedConstant

/-- The command of a row whose mask matched, from the fields its format uses (R62). -/
def decodeFields (op : Opcode) (c : Command) : Decoded :=
  match op with
  | .addu => .legal (.addu (rdField c) (rs1Field c) (rs2Field c))
  | .subu => .legal (.subu (rdField c) (rs1Field c) (rs2Field c))
  | .mulu => .legal (.mulu (rdField c) (rs1Field c) (rs2Field c))
  | .divu => decodeDivide (rdField c) (rd2Field c) (.divu (rdField c) (rd2Field c) (rs1Field c) (rs2Field c))
  | .cmpu => .legal (.cmpu (rs1Field c) (rs2Field c))
  | .tstz => .legal (.tstz (rs1Field c))
  | .adds => .legal (.adds (rdField c) (rs1Field c) (rs2Field c))
  | .subs => .legal (.subs (rdField c) (rs1Field c) (rs2Field c))
  | .muls => .legal (.muls (rdField c) (rs1Field c) (rs2Field c))
  | .divs => decodeDivide (rdField c) (rd2Field c) (.divs (rdField c) (rd2Field c) (rs1Field c) (rs2Field c))
  | .cmps => .legal (.cmps (rs1Field c) (rs2Field c))
  | .tstn => .legal (.tstn (rs1Field c))
  | .neg => .legal (.neg (rdField c) (rs1Field c))
  | .ldc => decodeLoadConstant (rdField c) (namedConstOfSelector (kField c))
  | .mov => .legal (.mov (rdField c) (rs1Field c))

/-- R66: `decode(c)`. -/
def decode (c : Command) : Decoded :=
  match opcodeOfByte (c.extractLsb' 0 8) with
  | none => .illegal .reservedOpcode
  | some op => if c &&& op.format.mask = op.matchWord then decodeFields op c else .illegal .nonzeroMustBeZero

/-! ## Encode -/

/-- R71: "The assembled value is `op | rd<<8 | rd2<<11 | rs1<<14 | rs2<<17 | k<<20`." -/
def assemble (op : Opcode) (rd rd2 rs1 rs2 : RegIdx) (k : BitVec 3) : Command :=
  op.byte.setWidth 64 ||| (BitVec.ofNat 64 rd.val <<< 8) ||| (BitVec.ofNat 64 rd2.val <<< 11)
    ||| (BitVec.ofNat 64 rs1.val <<< 14) ||| (BitVec.ofNat 64 rs2.val <<< 17) ||| (k.setWidth 64 <<< 20)

/-- The opcode of a command. -/
def Instr.opcode : Instr → Opcode
  | .addu _ _ _ => .addu
  | .subu _ _ _ => .subu
  | .mulu _ _ _ => .mulu
  | .divu _ _ _ _ => .divu
  | .cmpu _ _ => .cmpu
  | .tstz _ => .tstz
  | .adds _ _ _ => .adds
  | .subs _ _ _ => .subs
  | .muls _ _ _ => .muls
  | .divs _ _ _ _ => .divs
  | .cmps _ _ => .cmps
  | .tstn _ => .tstn
  | .neg _ _ => .neg
  | .ldc _ _ => .ldc
  | .mov _ _ => .mov

/-- The word of a command: its fields in place, every field its format does not use 0 (R62, R71). -/
def encode (i : Instr) : Command :=
  match i with
  | .addu rd rs1 rs2 => assemble .addu rd 0 rs1 rs2 0
  | .subu rd rs1 rs2 => assemble .subu rd 0 rs1 rs2 0
  | .mulu rd rs1 rs2 => assemble .mulu rd 0 rs1 rs2 0
  | .divu rd rd2 rs1 rs2 => assemble .divu rd rd2 rs1 rs2 0
  | .cmpu rs1 rs2 => assemble .cmpu 0 0 rs1 rs2 0
  | .tstz rs1 => assemble .tstz 0 0 rs1 0 0
  | .adds rd rs1 rs2 => assemble .adds rd 0 rs1 rs2 0
  | .subs rd rs1 rs2 => assemble .subs rd 0 rs1 rs2 0
  | .muls rd rs1 rs2 => assemble .muls rd 0 rs1 rs2 0
  | .divs rd rd2 rs1 rs2 => assemble .divs rd rd2 rs1 rs2 0
  | .cmps rs1 rs2 => assemble .cmps 0 0 rs1 rs2 0
  | .tstn rs1 => assemble .tstn 0 0 rs1 0 0
  | .neg rd rs1 => assemble .neg rd 0 rs1 0 0
  | .ldc rd k => assemble .ldc rd 0 0 0 k.selector
  | .mov rd rs1 => assemble .mov rd 0 rs1 0 0

/-- The command word whose low `nbits` bits are those of `w` and whose other bits are 0. -/
def tableWord (nbits w : Nat) : Command := BitVec.ofNat 64 (w % 2 ^ nbits)

/-- The command the decoder reads from a word of the opcode table, `none` where it rejects it. -/
def decodeTableWord (nbits w : Nat) : Option Instr :=
  match decode (tableWord nbits w) with
  | .legal i => some i
  | .illegal _ => none

end Sys2Proof
end

