-- ==== Sys2Proof/Machine/Ops.lean ====
section
/-! DEFINITION. The named operations over registers, STATUS and the host window: register access (00_scope.md R17), ending a
command (`complete`, `raise Status`), the STATUS word (10_state.md R25), `MemRead` and `MemWrite` with BUSY = 0 (20_memory.md
R42, R43), the fault of the BUSY protocol (70_reset_and_hazards.md R230) and reset (R220 to R222). -/

namespace Sys2Proof.Machine

/-- What one step, or one command, answers. -/
abbrev StepOutcome := Host.Outcome State Fault Refusal

/-! ## Value registers -/

/-- `x[i]` of a register file. -/
def RegFile.get (f : RegFile) (i : RegIdx) : Value :=
  match i with
  | 0 => f.x0
  | 1 => f.x1
  | 2 => f.x2
  | 3 => f.x3
  | 4 => f.x4
  | 5 => f.x5
  | 6 => f.x6
  | 7 => f.x7

/-- `x[i] <- v` on a register file. -/
def RegFile.set (f : RegFile) (i : RegIdx) (v : Value) : RegFile :=
  match i with
  | 0 => { f with x0 := v }
  | 1 => { f with x1 := v }
  | 2 => { f with x2 := v }
  | 3 => { f with x3 := v }
  | 4 => { f with x4 := v }
  | 5 => { f with x5 := v }
  | 6 => { f with x6 := v }
  | 7 => { f with x7 := v }

/-- Register xi as the host window shows it. -/
def State.reg (s : State) (i : RegIdx) : Value := s.regs.get i

/-- `x[i] <- v` (00_scope.md R17). -/
def State.setReg (s : State) (i : RegIdx) (v : Value) : State := { s with regs := s.regs.set i v }

/-! ## Ending a command (00_scope.md R17; 60_exceptions.md R202, R204)

The block has no trap: an error is a status code, and nothing is saved, entered or returned from (R203, R207). -/

/-- `raise Status(c)`: "the command ends, STATUS.CODE takes code c, and no register or flag is written unless the rule
wrote it before the raise". -/
def raiseStatus (c : StatusCode) (s : State) : State := { s with code := c }

/-- `complete(c)`: "the command ends normally with STATUS.CODE = c after the writes the rule lists". -/
def complete (c : StatusCode) (s : State) : State := { s with code := c }

/-- The last line of R204's completion step, `STATUS.BUSY <- 0`; no command is pending any more (10_state.md R35). -/
def retire (s : State) : State := { s with busy := false, pending := none }

/-- The command word the completion step decodes: the latched one (R35, R204). With none pending, CMD (log 6). -/
def State.latchedWord (s : State) : Command :=
  match s.pending with
  | some p => p.word
  | none => s.cmd

/-! ## The STATUS word -/

/-- The 4-bit number of a status code (60_exceptions.md R200). -/
def StatusCode.bits : StatusCode → BitVec 4
  | .ok => 0
  | .overflow => 1
  | .underflow => 2
  | .divByZero => 3
  | .invalidString => 4
  | .invalidBase => 5
  | .nullPointer => 6
  | .illegalCommand => 7

/-- The 2-bit two's-complement number of a compare result (10_state.md R31). -/
def CmpFlag.bits : CmpFlag → BitVec 2
  | .equal => 0b00
  | .greater => 0b01
  | .less => 0b11

/-- STATUS as the host reads it with BUSY defined (10_state.md R25): from the top, 63:12 reserved, CMP 11:10, N 9, Z 8,
CODE 7:4, 3:1 reserved, BUSY 0. -/
def State.statusWord (s : State) : Word :=
  0#52 ++ s.cmp.bits ++ BitVec.ofBool s.n ++ BitVec.ofBool s.z ++ s.code.bits ++ 0#3 ++ BitVec.ofBool s.busy

/-- What a STATUS read returns while BUSY = 1: 1 in bit 0, the other bits a draw (70_reset_and_hazards.md R231; log 4). -/
def busyStatusWord (draw : BitVec 63) : Word := draw ++ 1#1

/-! ## The host window with BUSY = 0 (20_memory.md R41 to R46) -/

/-- The word address of CMD. -/
def cmdAddr : WAddr := 0x40

/-- The word address of STATUS. -/
def statusAddr : WAddr := 0x41

/-- Whether an address names a register word, `waddr < 0x40`. -/
def isRegAddr (a : WAddr) : Bool := decide (a.toNat < 0x40)

/-- `waddr[5:3]`, the register a register address names. -/
def addrReg (a : WAddr) : RegIdx := ⟨(a.extractLsb' 3 3).toNat, (a.extractLsb' 3 3).isLt⟩

/-- `waddr[2:0]`, the word a register address names. -/
def addrWord (a : WAddr) : WordIdx := ⟨(a.extractLsb' 0 3).toNat, (a.extractLsb' 0 3).isLt⟩

/-- The word address of word j of xi, `8*i + j` (R44). -/
def regAddr (i : RegIdx) (j : WordIdx) : WAddr := BitVec.ofNat 7 (8 * i.val + j.val)

/-- R42: `MemRead(waddr, 8)` with BUSY = 0. -/
def memRead (s : State) (a : WAddr) : Word :=
  if isRegAddr a then word (s.reg (addrReg a)) (addrWord a)
  else if a = cmdAddr then s.cmd
  else if a = statusAddr then s.statusWord
  else 0

/-- The CMD write of R43: store c, latch it with the whole register file, set BUSY (10_state.md R23). -/
def issueCommand (s : State) (c : Command) : State :=
  { s with cmd := c, pending := some { word := c, operands := s.regs }, busy := true }

/-- R43: `MemWrite(waddr, 8, v)` with BUSY = 0. -/
def memWrite (s : State) (a : WAddr) (v : Word) : State :=
  if isRegAddr a then s.setReg (addrReg a) (setWord (s.reg (addrReg a)) (addrWord a) v)
  else if a = cmdAddr then issueCommand s v
  else s

/-- The value a host read returned is now the newest of the host's (log 5). -/
def respond (w : Word) (s : State) : State := { s with responses := w :: s.responses }

/-- One free value has been drawn (log 4). -/
def countDraw (s : State) : State := { s with draws := s.draws + 1 }

/-! ## The fault of the BUSY protocol, and reset -/

/-- `fault ProtocolViolation` (R230): the step faults and the fault mark is set (10_state.md R36). -/
def violate (e : Event) (s : State) : StepOutcome := .fault (.protocolViolation e { s with faultMark := true })

/-- The reset event (R221, R222): the block is as after reset, a pending command is discarded, and the fault mark is
unchanged. What the host has scheduled and read is the host's, not the block's (log 10). -/
def applyReset (s : State) : State :=
  { State.reset with
    faultMark := s.faultMark, draws := s.draws, schedule := s.schedule, responses := s.responses }

end Sys2Proof.Machine
end

