-- ==== Sys2Proof/Machine/Operands.lean ====
section
/-! DEFINITION. The operand forms of the commands: a whole source register (30_encoding.md R63) and a named constant of the
ROM (10_state.md R34, 30_encoding.md R64). There is no other operand form (R64, R75). -/

namespace Sys2Proof.Machine

/-- The source operand xi of a command: the register file "as they stood when the host wrote CMD" (00_scope.md R18,
10_state.md R35). With no command pending, the register file itself (log 6). -/
def State.operand (s : State) (i : RegIdx) : Value :=
  match s.pending with
  | some p => p.operands.get i
  | none => s.regs.get i

/-- The constant ROM (10_state.md R34). -/
def romValue : NamedConst → Value
  | .uzero => 0
  | .uone => 1
  | .umax => BitVec.allOnes 512
  | .szero => 0
  | .sone => 1
  | .smax => BitVec.ofNat 512 (2 ^ 511 - 1)
  | .smin => BitVec.ofNat 512 (2 ^ 511)

/-- SMIN, the pattern with only bit 511 set (00_scope.md R19). -/
def smin : Value := romValue .smin

end Sys2Proof.Machine
end

