-- ==== Sys2Proof/Machine/Unsigned.lean ====
section
/-! DEFINITION. The unsigned engine's commands (40_unsigned.md). Each reads all its sources before it writes a destination
(00_scope.md R18) and writes one status code (60_exceptions.md R201). -/

namespace Sys2Proof.Machine

/-- A command that writes one result register and ends with a code. -/
def finishOne (rd : RegIdx) (v : Value) (c : StatusCode) (s : State) : StepOutcome := .next (complete c (s.setReg rd v))

/-- A divide: R67 (rd = rd2 is illegal, log 8), then the divisor-zero check that "wins over every other outcome" (R205),
then quotient and remainder. -/
def finishDivide (rd rd2 : RegIdx) (b q r : Value) (c : StatusCode) (s : State) : StepOutcome :=
  if rd = rd2 then .next (raiseStatus .illegalCommand s)
  else if uval b = 0 then .next (raiseStatus .divByZero s)
  else .next (complete c ((s.setReg rd q).setReg rd2 r))

/-- R101: ADDU. -/
def execAddu (rd rs1 rs2 : RegIdx) (s : State) : StepOutcome :=
  let sum := addWords (s.operand rs1) (s.operand rs2) 0
  finishOne rd sum.1 (overflowIf (sum.2 == 1)) s

/-- R103: SUBU. -/
def execSubu (rd rs1 rs2 : RegIdx) (s : State) : StepOutcome :=
  let diff := subWords (s.operand rs1) (s.operand rs2) 0
  finishOne rd diff.1 (underflowIf (diff.2 == 1)) s

/-- R105: MULU. -/
def execMulu (rd rs1 rs2 : RegIdx) (s : State) : StepOutcome :=
  let prod := mulWords (s.operand rs1) (s.operand rs2)
  finishOne rd prod.1 (overflowIf prod.2) s

/-- R107: DIVU. -/
def execDivu (rd rd2 rs1 rs2 : RegIdx) (s : State) : StepOutcome :=
  let qr := divUnsigned (s.operand rs1) (s.operand rs2)
  finishDivide rd rd2 (s.operand rs2) qr.1 qr.2 .ok s

/-- R108: CMPU. -/
def execCmpu (rs1 rs2 : RegIdx) (s : State) : StepOutcome :=
  .next (complete .ok { s with cmp := compareUnsigned (s.operand rs1) (s.operand rs2) })

/-- R109: TSTZ. -/
def execTstz (rs1 : RegIdx) (s : State) : StepOutcome := .next (complete .ok { s with z := isZero (s.operand rs1) })

end Sys2Proof.Machine
end

