-- ==== Sys2Proof/Machine/MoveConst.lean ====
section
/-! DEFINITION. The constant and move commands (42_move_const.md). -/

namespace Sys2Proof.Machine

/-- R140: LDC. -/
def execLdc (rd : RegIdx) (k : NamedConst) (s : State) : StepOutcome := finishOne rd (romValue k) .ok s

/-- R141: MOV, all eight words. -/
def execMov (rd rs1 : RegIdx) (s : State) : StepOutcome := finishOne rd (s.operand rs1) .ok s

end Sys2Proof.Machine
end

