-- ==== Sys2Proof/Machine/Signed.lean ====
section
/-! DEFINITION. The signed two's-complement layer's commands (41_signed.md), built on the unsigned datapaths. -/

namespace Sys2Proof.Machine

/-- R121: NEG, always OK, SMIN included. -/
def execNeg (rd rs1 : RegIdx) (s : State) : StepOutcome := finishOne rd (neg (s.operand rs1)) .ok s

/-- R122: ADDS; the unsigned carry out is ignored. -/
def execAdds (rd rs1 rs2 : RegIdx) (s : State) : StepOutcome :=
  let a := s.operand rs1
  let b := s.operand rs2
  let sum := (addWords a b 0).1
  finishOne rd sum (addSignedStatus a b sum) s

/-- R123: SUBS; the unsigned borrow out is ignored. -/
def execSubs (rd rs1 rs2 : RegIdx) (s : State) : StepOutcome :=
  let a := s.operand rs1
  let b := s.operand rs2
  let diff := (subWords a b 0).1
  finishOne rd diff (subSignedStatus a b diff) s

/-- R124: MULS; the product of the magnitudes, negated if exactly one operand is negative. -/
def execMuls (rd rs1 rs2 : RegIdx) (s : State) : StepOutcome :=
  let a := s.operand rs1
  let b := s.operand rs2
  let prod := mulWords (mag a) (mag b)
  let r := negateIf (sign a != sign b) prod.1
  finishOne rd r (mulSignedStatus a b r prod.2) s

/-- R125: DIVS; the quotient is negated iff exactly one operand is negative, the remainder iff the dividend is. -/
def execDivs (rd rd2 rs1 rs2 : RegIdx) (s : State) : StepOutcome :=
  let a := s.operand rs1
  let b := s.operand rs2
  let qr := divUnsigned (mag a) (mag b)
  let q := negateIf (sign a != sign b) qr.1
  let r := negateIf (sign a) qr.2
  finishDivide rd rd2 b q r (divSignedStatus a b q) s

/-- R126: CMPS. -/
def execCmps (rs1 rs2 : RegIdx) (s : State) : StepOutcome :=
  .next (complete .ok { s with cmp := compareSigned (s.operand rs1) (s.operand rs2) })

/-- R127: TSTN. -/
def execTstn (rs1 : RegIdx) (s : State) : StepOutcome := .next (complete .ok { s with n := sign (s.operand rs1) })

end Sys2Proof.Machine
end

