-- ==== Sys2Proof/Machine/Dispatch.lean ====
section
/-! DEFINITION. `exec`: one arm per command, each one call of its meaning (30_encoding.md R65). -/

namespace Sys2Proof.Machine

def exec (i : Instr) (s : State) : Host.Outcome State Fault Refusal :=
  match i with
  | .addu rd rs1 rs2 => Sys2Proof.Machine.execAddu rd rs1 rs2 s
  | .subu rd rs1 rs2 => Sys2Proof.Machine.execSubu rd rs1 rs2 s
  | .mulu rd rs1 rs2 => Sys2Proof.Machine.execMulu rd rs1 rs2 s
  | .divu rd rd2 rs1 rs2 => Sys2Proof.Machine.execDivu rd rd2 rs1 rs2 s
  | .cmpu rs1 rs2 => Sys2Proof.Machine.execCmpu rs1 rs2 s
  | .tstz rs1 => Sys2Proof.Machine.execTstz rs1 s
  | .adds rd rs1 rs2 => Sys2Proof.Machine.execAdds rd rs1 rs2 s
  | .subs rd rs1 rs2 => Sys2Proof.Machine.execSubs rd rs1 rs2 s
  | .muls rd rs1 rs2 => Sys2Proof.Machine.execMuls rd rs1 rs2 s
  | .divs rd rd2 rs1 rs2 => Sys2Proof.Machine.execDivs rd rd2 rs1 rs2 s
  | .cmps rs1 rs2 => Sys2Proof.Machine.execCmps rs1 rs2 s
  | .tstn rs1 => Sys2Proof.Machine.execTstn rs1 s
  | .neg rd rs1 => Sys2Proof.Machine.execNeg rd rs1 s
  | .ldc rd k => Sys2Proof.Machine.execLdc rd k s
  | .mov rd rs1 => Sys2Proof.Machine.execMov rd rs1 s

end Sys2Proof.Machine
end

