-- ==== Sys2Proof/Machine/Completion.lean ====
section
/-! DEFINITION. The two agents' steps: the core's completion step (60_exceptions.md R204) and the host's window accesses
under the BUSY protocol (70_reset_and_hazards.md R230, R231). -/

namespace Sys2Proof.Machine

/-- What the completion step does with a decoded command: run its rule, or report ILLEGAL_COMMAND and nothing else
(30_encoding.md R66). -/
def runDecoded (d : Decoded) (s : State) : StepOutcome :=
  match d with
  | .illegal _ => .next (raiseStatus .illegalCommand s)
  | .legal i => exec i s

/-- The end of the completion step: BUSY <- 0 once the command has run. -/
def retireOutcome (o : StepOutcome) : StepOutcome :=
  match o with
  | .next t => .next (retire t)
  | .fault r => .fault r
  | .refused r => .refused r

/-- R204: `complete_pending()`, one atomic step. -/
def completePending (s : State) : StepOutcome := retireOutcome (runDecoded (decode s.latchedWord) s)

/-- The core's turn: its completion step "is enabled exactly when STATUS.BUSY = 1" and is its only step (R204); otherwise
"it does nothing; its state is held" (R215; log 9). -/
def coreTurn (s : State) : StepOutcome := if s.busy then completePending s else .next s

/-- A host read (20_memory.md R42). While BUSY = 1 only STATUS may be read, and its other bits are a draw (R230, R231). -/
def hostRead (a : WAddr) (s : State) : StepOutcome :=
  if s.busy then
    if a = statusAddr then .next (respond (busyStatusWord (Config.busyStatusBits s.draws)) (countDraw s))
    else violate (.read a) s
  else .next (respond (memRead s a) s)

/-- A host write (20_memory.md R43). While BUSY = 1 every write is a protocol violation (R230). -/
def hostWrite (a : WAddr) (v : Word) (s : State) : StepOutcome :=
  if s.busy then violate (.write a v) s else .next (memWrite s a v)

/-- One event of the schedule. -/
def takeEvent (e : Event) (s : State) : StepOutcome :=
  match e with
  | .read a => hostRead a s
  | .write a v => hostWrite a v s
  | .reset => .next (applyReset s)
  | .core => coreTurn s

end Sys2Proof.Machine
end

