-- ==== Sys2Proof/Machine/Step.lean ====
section
/-! DEFINITION. One step of the machine: the next event of the schedule, or with none left the core's turn. Every execution
is such an interleaving of host steps, core steps and resets (20_memory.md R49, 70_reset_and_hazards.md R220; log 1). -/

namespace Sys2Proof.Machine

/-- One step. With nothing scheduled the core moves, so a pending command is completed: the weak fairness of R204. -/
def step (s : State) : Host.Outcome State Fault Refusal :=
  match s.schedule with
  | [] => coreTurn s
  | e :: rest => takeEvent e { s with schedule := rest }

/-- `s` with the command of an opcode-table word issued, as by the host's CMD write (10_state.md R23), and the core's turn
next: the very next step completes it (log 2). -/
def State.withFetchWord (s : State) (nbits w : Nat) : State :=
  { issueCommand s (tableWord nbits w) with schedule := .core :: s.schedule }

end Sys2Proof.Machine
end

