-- ==== Sys2Proof/Machine/Assembler.lean ====
section
/-! DEFINITION. The assembler (30_encoding.md R71) and the pseudo-instructions (R72): from a line of text to the command word,
and from a command to its line. A line of the syntax may assemble to an illegal word, as `LDC rd, #7` does (R68). -/

namespace Sys2Proof.Machine

/-- The register names (10_state.md R20: no aliases). -/
def registerNames : List (String × RegIdx) :=
  [("x0", 0), ("x1", 1), ("x2", 2), ("x3", 3), ("x4", 4), ("x5", 5), ("x6", 6), ("x7", 7)]

/-- The constants by name (R71), with their selectors (R64). -/
def namedSelectors : List (String × BitVec 3) :=
  [("UZERO", 0), ("UONE", 1), ("UMAX", 2), ("SZERO", 3), ("SONE", 4), ("SMAX", 5), ("SMIN", 6)]

/-- The selectors as numbers, `#k` (R71): every value of the 3-bit field, the reserved 7 too (95_test_vectors.md LDC-8). -/
def numberedSelectors : List (String × BitVec 3) :=
  [("#0", 0), ("#1", 1), ("#2", 2), ("#3", 3), ("#4", 4), ("#5", 5), ("#6", 6), ("#7", 7)]

/-- What can stand as LDC's constant: `NAME` or `#k` (R71). -/
def constantNames : List (String × BitVec 3) := namedSelectors ++ numberedSelectors

/-- The mnemonics of R65. -/
def mnemonicNames : List (String × Opcode) :=
  [("ADDU", .addu), ("SUBU", .subu), ("MULU", .mulu), ("DIVU", .divu), ("CMPU", .cmpu), ("TSTZ", .tstz),
   ("ADDS", .adds), ("SUBS", .subs), ("MULS", .muls), ("DIVS", .divs), ("CMPS", .cmps), ("TSTN", .tstn),
   ("NEG", .neg), ("LDC", .ldc), ("MOV", .mov)]

/-- What a name stands for in a table. -/
def lookupName {α : Type} (table : List (String × α)) (name : String) : Option α :=
  (table.find? (fun e => e.1 == name)).map (fun e => e.2)

/-- The name of a register. -/
def registerName (i : RegIdx) : String :=
  match i with
  | 0 => "x0"
  | 1 => "x1"
  | 2 => "x2"
  | 3 => "x3"
  | 4 => "x4"
  | 5 => "x5"
  | 6 => "x6"
  | 7 => "x7"

/-- The name of a constant. -/
def constantName : NamedConst → String
  | .uzero => "UZERO"
  | .uone => "UONE"
  | .umax => "UMAX"
  | .szero => "SZERO"
  | .sone => "SONE"
  | .smax => "SMAX"
  | .smin => "SMIN"

/-- The mnemonic of an opcode. -/
def opcodeName : Opcode → String
  | .addu => "ADDU"
  | .subu => "SUBU"
  | .mulu => "MULU"
  | .divu => "DIVU"
  | .cmpu => "CMPU"
  | .tstz => "TSTZ"
  | .adds => "ADDS"
  | .subs => "SUBS"
  | .muls => "MULS"
  | .divs => "DIVS"
  | .cmps => "CMPS"
  | .tstn => "TSTN"
  | .neg => "NEG"
  | .ldc => "LDC"
  | .mov => "MOV"

/-- The operands of a command as R71 writes them, in order. -/
def operandNames (i : Instr) : List String :=
  match i with
  | .addu rd rs1 rs2 => [registerName rd, registerName rs1, registerName rs2]
  | .subu rd rs1 rs2 => [registerName rd, registerName rs1, registerName rs2]
  | .mulu rd rs1 rs2 => [registerName rd, registerName rs1, registerName rs2]
  | .divu rd rd2 rs1 rs2 => [registerName rd, registerName rd2, registerName rs1, registerName rs2]
  | .cmpu rs1 rs2 => [registerName rs1, registerName rs2]
  | .tstz rs1 => [registerName rs1]
  | .adds rd rs1 rs2 => [registerName rd, registerName rs1, registerName rs2]
  | .subs rd rs1 rs2 => [registerName rd, registerName rs1, registerName rs2]
  | .muls rd rs1 rs2 => [registerName rd, registerName rs1, registerName rs2]
  | .divs rd rd2 rs1 rs2 => [registerName rd, registerName rd2, registerName rs1, registerName rs2]
  | .cmps rs1 rs2 => [registerName rs1, registerName rs2]
  | .tstn rs1 => [registerName rs1]
  | .neg rd rs1 => [registerName rd, registerName rs1]
  | .ldc rd k => [registerName rd, constantName k]
  | .mov rd rs1 => [registerName rd, registerName rs1]

/-- A command in assembler text (R71). -/
def assemblyText (i : Instr) : String := opcodeName i.opcode ++ " " ++ String.intercalate ", " (operandNames i)

/-- The word of an opcode and register numbers, by the syntax of its format (R71): the operands a format does not use are 0.
LDK takes a constant instead. -/
def assembleRegisters (op : Opcode) (rs : List RegIdx) : Option Command :=
  match op.format, rs with
  | .op3, [rd, rs1, rs2] => some (assemble op rd 0 rs1 rs2 0)
  | .div4, [rd, rd2, rs1, rs2] => some (assemble op rd rd2 rs1 rs2 0)
  | .op2, [rd, rs1] => some (assemble op rd 0 rs1 0 0)
  | .cmp2, [rs1, rs2] => some (assemble op 0 0 rs1 rs2 0)
  | .tst1, [rs1] => some (assemble op 0 0 rs1 0 0)
  | _, _ => none

/-- The registers a list of names stands for, if every name is one. -/
def registersOfNames : List String → Option (List RegIdx)
  | [] => some []
  | name :: rest =>
    match lookupName registerNames name, registersOfNames rest with
    | some r, some rs => some (r :: rs)
    | _, _ => none

/-- `LDC rd, NAME` or `LDC rd, #k` (R71). -/
def assembleLoadConstant (names : List String) : Option Command :=
  match names with
  | [rd, k] =>
    match lookupName registerNames rd, lookupName constantNames k with
    | some r, some c => some (assemble .ldc r 0 0 0 c)
    | _, _ => none
  | _ => none

/-- A pseudo-instruction on one register (R72: `CLR rd` is `LDC rd, UZERO`, `ONE rd` is `LDC rd, UONE`). -/
def assemblePseudo (mnemonic : String) (names : List String) : Option Command :=
  match registersOfNames names with
  | some [rd] =>
    if mnemonic == "CLR" then some (encode (.ldc rd .uzero))
    else if mnemonic == "ONE" then some (encode (.ldc rd .uone))
    else none
  | _ => none

/-- The word of a mnemonic and its operands (R71, R72); `none` outside the syntax. -/
def assembleLine (mnemonic : String) (names : List String) : Option Command :=
  match lookupName mnemonicNames mnemonic with
  | some .ldc => assembleLoadConstant names
  | some op =>
    match registersOfNames names with
    | some rs => assembleRegisters op rs
    | none => none
  | none => assemblePseudo mnemonic names

/-! ## A line of text: "the mnemonic, then its operands separated by commas" (R71)

Spaces and tabs around the mnemonic and around an operand are skipped, the model's choice (log 25). -/

/-- A space or a tab. -/
def isBlank (c : Char) : Bool := c == ' ' || c == '\t'

/-- The characters without the blanks at either end. -/
def trimBlanks (cs : List Char) : List Char := ((cs.dropWhile isBlank).reverse.dropWhile isBlank).reverse

/-- The pieces between commas, at least one. -/
def cutAtCommas : List Char → List (List Char)
  | [] => [[]]
  | c :: cs =>
    match cutAtCommas cs with
    | [] => [[c]]
    | piece :: pieces => if c == ',' then [] :: piece :: pieces else (c :: piece) :: pieces

/-- The mnemonic of a line: what stands before its first inner blank. -/
def mnemonicOf (text : String) : String := String.ofList ((trimBlanks text.toList).takeWhile (fun c => !isBlank c))

/-- The operands of a line: what stands after the mnemonic, cut at the commas; none when nothing does. -/
def operandsOf (text : String) : List String :=
  match trimBlanks ((trimBlanks text.toList).dropWhile (fun c => !isBlank c)) with
  | [] => []
  | c :: cs => (cutAtCommas (c :: cs)).map (fun piece => String.ofList (trimBlanks piece))

/-- The word a line of assembler text stands for (R71, R72); `none` for a line outside the syntax. -/
def assembleText (text : String) : Option Command := assembleLine (mnemonicOf text) (operandsOf text)

end Sys2Proof.Machine
end

