-- ==== Sys2Proof/Machine/HostOps.lean ====
section
/-! DEFINITION. The host operations of listings (30_encoding.md R73) as schedules and as runs of `step`, the widening of narrow
operands (45_codec_procedures.md R166) and the byte view of a host bridge (20_memory.md R48). -/

namespace Sys2Proof.Machine

/-! ## Host operations as events (R73) -/

/-- `LD xi, n` with `v = enc(n)`: eight word writes, j = 0..7. -/
def loadEvents (i : RegIdx) (v : Value) : List Event :=
  wordIndices.map (fun j => Event.write (regAddr i j) (word v j))

/-- `RD xi[j]` for j = 0..7. -/
def readValueEvents (i : RegIdx) : List Event := wordIndices.map (fun j => Event.read (regAddr i j))

/-- `WAIT` when the core completes after the host's first `polls` reads of STATUS: they return BUSY = 1, the next one 0.
Every number of polls is possible (70_reset_and_hazards.md R232, R235; log 19). -/
def waitEvents (polls : Nat) : List Event :=
  List.replicate polls (Event.read statusAddr) ++ [Event.core, Event.read statusAddr]

/-- `ISSUE <command>; WAIT`, a command alone in a listing. -/
def commandEvents (i : Instr) (polls : Nat) : List Event := Event.write cmdAddr (encode i) :: waitEvents polls

/-! ## Running events -/

/-- Go on with the state, or stop as the outcome does. -/
def andThen {α β : Type} (o : Host.Outcome α Fault Refusal) (f : α → Host.Outcome β Fault Refusal) :
    Host.Outcome β Fault Refusal :=
  match o with
  | .next a => f a
  | .fault r => .fault r
  | .refused r => .refused r

/-- One `step` per event, each put in front of whatever the state has scheduled. -/
def runEvents : List Event → State → StepOutcome
  | [], s => .next s
  | e :: es, s => andThen (step { s with schedule := e :: s.schedule }) (runEvents es)

/-- What a host procedure that returns a value answers. -/
abbrev ProcOutcome (α : Type) := Host.Outcome (α × State) Fault Refusal

/-- The word the host's last read returned. -/
def State.lastResponse (s : State) : Word := s.responses.headD 0

/-- A value from its words, the most significant first. -/
def joinWords (ws : List Word) : Value := ws.foldl (fun acc w => (acc <<< 64) ||| w.setWidth 512) 0

/-- `RD` of one window word. -/
def hostReadWord (a : WAddr) (s : State) : ProcOutcome Word :=
  andThen (runEvents [.read a] s) fun t => .next (t.lastResponse, t)

/-- `RD` of the eight words of xi, joined. -/
def hostReadValue (i : RegIdx) (s : State) : ProcOutcome Value :=
  andThen (runEvents (readValueEvents i) s) fun t => .next (joinWords (t.responses.take 8), t)

/-- `ISSUE <command>; WAIT`, answering the STATUS word of the last poll. How often the host polls may depend on how much it
has read before, so it may differ from command to command. -/
def hostCommand (polls : Nat → Nat) (i : Instr) (s : State) : ProcOutcome Word :=
  andThen (runEvents (commandEvents i (polls s.responses.length)) s) fun t => .next (t.lastResponse, t)

/-- STATUS.CODE of a STATUS word (10_state.md R25). -/
def codeField (status : Word) : BitVec 4 := status.extractLsb' 4 4

/-- STATUS.Z of a STATUS word. -/
def zField (status : Word) : Bool := status.getLsbD 8

/-- STATUS.N of a STATUS word. -/
def nField (status : Word) : Bool := status.getLsbD 9

/-! ## Widening (R166) -/

/-- The value a host writes for an unsigned N-bit operand. -/
def widenUnsigned {width : Nat} (u : BitVec width) : Value := u.setWidth 512

/-- The value a host writes for a signed N-bit operand, `sext_512`. -/
def widenSigned {width : Nat} (v : BitVec width) : Value := v.signExtend 512

/-! ## A host bridge (20_memory.md R48) -/

/-- "A host bridge that exposes the window at byte addresses places word address w at byte offset 8*w of its aperture". -/
def bridgeOffset (w : WAddr) : Nat := 8 * w.toNat

/-- The byte a bridge shows at byte `off` of window word `w`: the lane HOST_BRIDGE_BYTE_ORDER puts there (log 18). -/
def bridgeByte (s : State) (w : WAddr) (off : Fin 8) : Byte :=
  (memRead s w).extractLsb' (8 * (Config.hostBridgeByteOrder off).val) 8

end Sys2Proof.Machine
end

