-- ==== Sys2Proof/Machine/Codec.lean ====
section
/-! DEFINITION. The host-side text codec (45_codec_procedures.md): first as functions of values (R150 to R161), then as host
programs that use only window accesses and commands of the block (R163). A status here is what the procedure returns to
its caller, not STATUS.CODE. -/

namespace Sys2Proof.Machine

/-- What a to_string procedure returns: its status and the characters it wrote from buffer[0] on. -/
structure TextResult where
  status : StatusCode
  text : List Byte
deriving DecidableEq, Repr

/-- What a from_string procedure returns. -/
structure ValueResult where
  status : StatusCode
  value : Value
deriving DecidableEq, Repr

/-! ## Characters (R151, R152, R157; ASCII, G1 to G3, log 17) -/

def charMinus : Byte := 0x2D
def charPlus : Byte := 0x2B
def charSpace : Byte := 0x20
def charTab : Byte := 0x09
def charZero : Byte := 0x30
/-- The terminator, NUL (R155, G3). -/
def charNul : Byte := 0x00

/-- R150: a radix is in 2..36. -/
def radixLegal (radix : Int) : Bool := decide (2 ≤ radix ∧ radix ≤ 36)

/-- R151: digits 0..9 are '0' + d, digits 10..35 are 'a' + (d - 10). -/
def digitChar (d : Nat) : Byte := if d < 10 then BitVec.ofNat 8 (0x30 + d) else BitVec.ofNat 8 (0x61 + (d - 10))

/-- R152: the digit value of a character, letters of either case; every other character has none. -/
def digitValue (ch : Byte) : Option Nat :=
  let c := ch.toNat
  if 0x30 ≤ c ∧ c ≤ 0x39 then some (c - 0x30)
  else if 0x61 ≤ c ∧ c ≤ 0x7A then some (c - 0x61 + 10)
  else if 0x41 ≤ c ∧ c ≤ 0x5A then some (c - 0x41 + 10)
  else none

/-! ## to_string as a function -/

/-- The loop of R155, least-significant digit first, "until the value reaches zero". -/
def digitsLow (radix : Nat) : Nat → Nat → List Byte
  | 0, _ => []
  | fuel + 1, w => if w = 0 then [] else digitChar (w % radix) :: digitsLow radix fuel (w / radix)

/-- The digits of R155, most significant first; "zero is special-cased". 512 rounds suffice (R156). -/
def digitsText (v : Value) (radix : Nat) : List Byte :=
  if uval v = 0 then [charZero] else (digitsLow radix 512 (uval v)).reverse

/-- The end of R155: digits and terminator if the buffer holds them. `junk` is what the buffer holds after an error (R154). -/
def fitText (digits : List Byte) (cap : Nat) (junk : List Byte) : TextResult :=
  if digits.length + 1 > cap then { status := .invalidString, text := junk }
  else { status := .ok, text := digits ++ [charNul] }

/-- R150, then R153 (log 14): the radix, then the buffer, before any work. -/
def checkArguments {α : Type} (radix : Int) (buffer : Option α) : StatusCode :=
  if !radixLegal radix then .invalidBase else if buffer.isNone then .nullPointer else .ok

/-- R155: `to_string_u(v, radix, cap)`; no `cap` stands for an absent buffer (R153). -/
def toStringU (v : Value) (radix : Int) (cap : Option Nat) (junk : List Byte) : TextResult :=
  match checkArguments radix cap with
  | .ok => fitText (digitsText v radix.toNat) (cap.getD 0) junk
  | c => { status := c, text := junk }

/-- R159: put the sign in front of the text of the magnitude. -/
def prefixMinus (r : TextResult) (junk : List Byte) : TextResult :=
  if r.status = .ok then { status := .ok, text := charMinus :: r.text } else { status := r.status, text := junk }

/-- R159: `to_string_s(v, radix, cap)`. -/
def toStringS (v : Value) (radix : Int) (cap : Option Nat) (junk : List Byte) : TextResult :=
  match checkArguments radix cap with
  | .ok =>
    if sign v then
      if cap.getD 0 < 1 then { status := .invalidString, text := junk }
      else prefixMinus (toStringU (neg v) radix (some (cap.getD 0 - 1)) junk) junk
    else toStringU v radix cap junk
  | c => { status := c, text := junk }

/-! ## from_string as a function -/

/-- R157: skip every leading space and tab. -/
def skipBlanks : List Byte → List Byte
  | [] => []
  | ch :: rest => if ch = charSpace ∨ ch = charTab then skipBlanks rest else ch :: rest

/-- R157: discard one '+' if it is the next character. -/
def dropPlus (text : List Byte) : List Byte :=
  match text with
  | [] => []
  | ch :: rest => if ch = charPlus then rest else ch :: rest

/-- R157: trimming. -/
def trimText (text : List Byte) : List Byte := dropPlus (skipBlanks text)

/-- R152, R158: the digit of a character in a radix, if it has one. -/
def digitInRadix (radix : Nat) (ch : Byte) : Option Nat :=
  match digitValue ch with
  | some d => if d < radix then some d else none
  | none => none

/-- R158: `acc * radix + d` with its two overflow checks; a status other than OK ends the parse. -/
def accumulateDigit (acc : Value) (radix d : Nat) : ValueResult :=
  let m := mulWords acc (enc radix)
  if m.2 then { status := .overflow, value := m.1 }
  else
    let t := addWords m.1 (enc d) 0
    { status := overflowIf (t.2 == 1), value := t.1 }

/-- R158: the loop; "the first error met in this left-to-right order is the one returned". -/
def accumulateText (radix : Nat) : Value → List Byte → ValueResult
  | acc, [] => { status := .ok, value := acc }
  | acc, ch :: rest =>
    match digitInRadix radix ch with
    | none => { status := .invalidString, value := acc }
    | some d =>
      let r := accumulateDigit acc radix d
      if r.status = .ok then accumulateText radix r.value rest else r

/-- R154: on an error the value is `junk`. -/
def hideValueOnError (r : ValueResult) (junk : Value) : ValueResult :=
  if r.status = .ok then r else { status := r.status, value := junk }

/-- R157, R158: `from_string_u(text, radix)`; no text stands for an absent buffer (R153). -/
def fromStringU (text : Option (List Byte)) (radix : Int) (junk : Value) : ValueResult :=
  match checkArguments radix text with
  | .ok =>
    if trimText (text.getD []) = [] then { status := .invalidString, value := junk }
    else hideValueOnError (accumulateText radix.toNat 0 (trimText (text.getD []))) junk
  | c => { status := c, value := junk }

/-- R160: whether the first character is '-'. -/
def startsWithMinus (text : List Byte) : Bool := text.head? == some charMinus

/-- R160: the text after a '-' or '+' at its first character. -/
def dropSign (text : List Byte) : List Byte :=
  match text with
  | [] => []
  | ch :: rest => if ch = charMinus ∨ ch = charPlus then rest else ch :: rest

/-- R161: the range check of a parsed magnitude. -/
def magnitudeStatus (minus : Bool) (m : Value) : StatusCode :=
  if minus then (if uval m > 2 ^ 511 then .underflow else .ok)
  else (if uval m > 2 ^ 511 - 1 then .overflow else .ok)

/-- R160, R161: the value of a parsed magnitude and sign. -/
def applySign (minus : Bool) (r : ValueResult) (junk : Value) : ValueResult :=
  if r.status ≠ .ok then { status := r.status, value := junk }
  else if magnitudeStatus minus r.value ≠ .ok then { status := magnitudeStatus minus r.value, value := junk }
  else { status := .ok, value := negateIf minus r.value }

/-- R160, R161: `from_string_s(text, radix)`. -/
def fromStringS (text : Option (List Byte)) (radix : Int) (junk : Value) : ValueResult :=
  match checkArguments radix text with
  | .ok =>
    applySign (startsWithMinus (text.getD []))
      (fromStringU (some (dropSign (text.getD []))) radix junk) junk
  | c => { status := c, value := junk }

/-! ## The procedures on the block (R163)

`w`, `r` and `d` are the host's three registers: working value, radix, digit. `polls` says how often the host polls in each
WAIT (log 19). The order of the loads before the first command is the model's choice (log 16), and so are the host's reads of
a whole value, which R163 does not list (log 28). -/

/-- The three distinct registers of R163. -/
structure CodecRegs where
  w : RegIdx
  r : RegIdx
  d : RegIdx
deriving DecidableEq, Repr

/-- R163: they are distinct. -/
def CodecRegs.distinct (g : CodecRegs) : Bool := g.w != g.r && g.w != g.d && g.r != g.d

/-- R154: an error of a to_string procedure leaves a free text in the buffer. -/
def failText (c : StatusCode) (s : State) : ProcOutcome TextResult :=
  .next ({ status := c, text := Config.unspecifiedText s.draws }, countDraw s)

/-- R154: an error of a from_string procedure leaves a free value in the output. -/
def failValue (c : StatusCode) (s : State) : ProcOutcome ValueResult :=
  .next ({ status := c, value := Config.unspecifiedValue s.draws }, countDraw s)

/-- `LD xi, v` (R73). -/
def hostLoad (i : RegIdx) (v : Value) (s : State) : StepOutcome := runEvents (loadEvents i v) s

/-- The to_string loop of R163: DIVU, read the digit, TSTZ, until Z = 1. The digits collected so far, most significant
first, are `acc`. -/
def digitLoopOnBlock (polls : Nat → Nat) (g : CodecRegs) : Nat → List Byte → State → ProcOutcome (List Byte)
  | 0, acc, s => .next (acc, s)
  | fuel + 1, acc, s =>
    andThen (hostCommand polls (.divu g.w g.d g.w g.r) s) fun p1 =>
    andThen (hostReadWord (regAddr g.d 0) p1.2) fun p2 =>
    andThen (hostCommand polls (.tstz g.w) p2.2) fun p3 =>
      if zField p3.1 then .next (digitChar p2.1.toNat :: acc, p3.2)
      else digitLoopOnBlock polls g fuel (digitChar p2.1.toNat :: acc) p3.2

/-- The digits of `v`, which xw holds (R155): zero is special-cased by the host. -/
def digitsOnBlock (polls : Nat → Nat) (g : CodecRegs) (v : Value) (radix : Nat) (s : State) : ProcOutcome (List Byte) :=
  if uval v = 0 then .next ([charZero], s)
  else andThen (hostLoad g.r (enc radix) s) (digitLoopOnBlock polls g 512 [])

/-- The end of R155 on the block: the digits and the terminator if they fit, after a prefix already written. -/
def deliverText (lead digits : List Byte) (cap : Nat) (s : State) : ProcOutcome TextResult :=
  if digits.length + 1 > cap then failText .invalidString s
  else .next ({ status := .ok, text := lead ++ digits ++ [charNul] }, s)

/-- `to_string_u` on the block. -/
def toStringUOnBlock (polls : Nat → Nat) (g : CodecRegs) (v : Value) (radix : Int) (cap : Option Nat) (s : State) :
    ProcOutcome TextResult :=
  match checkArguments radix cap with
  | .ok =>
    andThen (hostLoad g.w v s) fun s1 =>
    andThen (digitsOnBlock polls g v radix.toNat s1) fun p => deliverText [] p.1 (cap.getD 0) p.2
  | c => failText c s

/-- The negative branch of R159 on the block: NEG, read the magnitude, convert it behind the '-'. DESIGN CHOICE (log 28): R163
lists no read of the magnitude; the host here reads its eight words back after NEG, to make the zero test of R155. -/
def negativeTextOnBlock (polls : Nat → Nat) (g : CodecRegs) (radix : Nat) (cap : Nat) (s : State) :
    ProcOutcome TextResult :=
  if cap < 1 then failText .invalidString s
  else
    andThen (hostCommand polls (.neg g.w g.w) s) fun p1 =>
    andThen (hostReadValue g.w p1.2) fun p2 =>
    andThen (digitsOnBlock polls g p2.1 radix p2.2) fun p3 => deliverText [charMinus] p3.1 (cap - 1) p3.2

/-- `to_string_s` on the block: TSTN finds the sign. -/
def toStringSOnBlock (polls : Nat → Nat) (g : CodecRegs) (v : Value) (radix : Int) (cap : Option Nat) (s : State) :
    ProcOutcome TextResult :=
  match checkArguments radix cap with
  | .ok =>
    andThen (hostLoad g.w v s) fun s1 =>
    andThen (hostCommand polls (.tstn g.w) s1) fun p =>
      if nField p.1 then negativeTextOnBlock polls g radix.toNat (cap.getD 0) p.2
      else andThen (digitsOnBlock polls g v radix.toNat p.2) fun p2 => deliverText [] p2.1 (cap.getD 0) p2.2
  | c => failText c s

/-- The from_string loop of R163: MULU and read CODE, write the digit, ADDU and read CODE, per character. The status it
answers is OK or the first error met. -/
def parseLoopOnBlock (polls : Nat → Nat) (g : CodecRegs) (radix : Nat) : List Byte → State → ProcOutcome StatusCode
  | [], s => .next (.ok, s)
  | ch :: rest, s =>
    match digitInRadix radix ch with
    | none => .next (.invalidString, s)
    | some d =>
      andThen (hostCommand polls (.mulu g.w g.w g.r) s) fun p1 =>
        if codeField p1.1 = StatusCode.overflow.bits then .next (.overflow, p1.2)
        else
          andThen (runEvents [.write (regAddr g.d 0) (BitVec.ofNat 64 d)] p1.2) fun s2 =>
          andThen (hostCommand polls (.addu g.w g.w g.d) s2) fun p3 =>
            if codeField p3.1 = StatusCode.overflow.bits then .next (.overflow, p3.2)
            else parseLoopOnBlock polls g radix rest p3.2

/-- What a from_string procedure does with the loop's status: on OK the value is read back from xw. DESIGN CHOICE (log 28): R163
does not say how the host obtains the value it returns; here it reads the eight words. -/
def deliverValue (g : CodecRegs) (p : StatusCode × State) : ProcOutcome ValueResult :=
  if p.1 = .ok then andThen (hostReadValue g.w p.2) fun q => .next ({ status := .ok, value := q.1 }, q.2)
  else failValue p.1 p.2

/-- `from_string_u` on the block; the value it returns stands in xw. -/
def fromStringUOnBlock (polls : Nat → Nat) (g : CodecRegs) (text : Option (List Byte)) (radix : Int) (s : State) :
    ProcOutcome ValueResult :=
  match checkArguments radix text with
  | .ok =>
    if trimText (text.getD []) = [] then failValue .invalidString s
    else
      andThen (hostLoad g.r (enc radix) s) fun s1 =>
      andThen (hostCommand polls (.ldc g.w .uzero) s1) fun p2 =>
      andThen (hostCommand polls (.ldc g.d .uzero) p2.2) fun p3 =>
      andThen (parseLoopOnBlock polls g radix.toNat (trimText (text.getD [])) p3.2) (deliverValue g)
  | c => failValue c s

/-- R160, R161 on the block: check the magnitude's range, then NEG if a minus was present. DESIGN CHOICE (log 28): R163 names no
command for the range check; the host here compares the magnitude it has read back from xw (`deliverValue`), and reads xw
again after NEG. -/
def applySignOnBlock (polls : Nat → Nat) (g : CodecRegs) (minus : Bool) (p : ValueResult × State) :
    ProcOutcome ValueResult :=
  if p.1.status ≠ .ok then .next p
  else if magnitudeStatus minus p.1.value ≠ .ok then failValue (magnitudeStatus minus p.1.value) p.2
  else if minus then
    andThen (hostCommand polls (.neg g.w g.w) p.2) fun q =>
    andThen (hostReadValue g.w q.2) fun v => .next ({ status := .ok, value := v.1 }, v.2)
  else .next p

/-- `from_string_s` on the block. -/
def fromStringSOnBlock (polls : Nat → Nat) (g : CodecRegs) (text : Option (List Byte)) (radix : Int) (s : State) :
    ProcOutcome ValueResult :=
  match checkArguments radix text with
  | .ok =>
    andThen (fromStringUOnBlock polls g (some (dropSign (text.getD []))) radix s)
      (applySignOnBlock polls g (startsWithMinus (text.getD [])))
  | c => failValue c s

end Sys2Proof.Machine
end

