-- ==== Sys2Proof/Safety.lean ====
section
/-! DEFINITION. What counts as a safe run, in the terms the statements use: the host protocol of 70_reset_and_hazards.md R230,
the fault mark of 10_state.md R36, and the invariant every reachable state meets. -/

namespace Sys2Proof.Machine

/-- The codes the block itself can write; 4, 5 and 6 are the host procedures' (60_exceptions.md R200). -/
def StatusCode.ofBlock : StatusCode → Bool
  | .ok | .overflow | .underflow | .divByZero | .illegalCommand => true
  | .invalidString | .invalidBase | .nullPointer => false

/-- The invariant: BUSY is 1 exactly while a command is pending (R27, R35), the latched word is what CMD reads back (R23) and
the latched register file "equals" the register file (R35), and CODE is a code of the block (R200). -/
structure State.Inv (s : State) : Prop where
  busy_pending : s.busy = s.pending.isSome
  latched_word : ∀ p, s.pending = some p → p.word = s.cmd
  latched_regs : ∀ p, s.pending = some p → p.operands = s.regs
  block_code : s.code.ofBlock = true

/-- Whether the next event breaks the BUSY protocol: a host access other than a STATUS read while BUSY = 1 (R230). -/
def State.breaksProtocol (s : State) : Bool :=
  match s.schedule with
  | .read a :: _ => s.busy && a != statusAddr
  | .write _ _ :: _ => s.busy
  | _ => false

/-- A good run of `k` steps: it does not stop and its fault mark is clear at the end (R36). -/
def goodRun (k : Nat) (s : State) : Prop :=
  ∃ t, Host.Core.run Sys2Proof.core k s = .next t ∧ t.faultMark = false

/-- The state a fault leaves once the block is reset: "the fault mark stays set" (R36, R222). -/
def Fault.afterReset : Fault → State
  | .protocolViolation _ marked => applyReset marked

/-- The registers a command can write (10_state.md §1, column "written by commands"). -/
def destinations (i : Instr) : List RegIdx :=
  match i with
  | .addu rd _ _ => [rd]
  | .subu rd _ _ => [rd]
  | .mulu rd _ _ => [rd]
  | .divu rd rd2 _ _ => [rd, rd2]
  | .cmpu _ _ => []
  | .tstz _ => []
  | .adds rd _ _ => [rd]
  | .subs rd _ _ => [rd]
  | .muls rd _ _ => [rd]
  | .divs rd rd2 _ _ => [rd, rd2]
  | .cmps _ _ => []
  | .tstn _ => []
  | .neg rd _ => [rd]
  | .ldc rd _ => [rd]
  | .mov rd _ => [rd]

/-- The codes a legal command can write (60_exceptions.md R201). -/
def possibleCodes (i : Instr) : List StatusCode :=
  match i with
  | .addu _ _ _ => [.ok, .overflow]
  | .subu _ _ _ => [.ok, .underflow]
  | .mulu _ _ _ => [.ok, .overflow]
  | .divu _ _ _ _ => [.ok, .divByZero]
  | .cmpu _ _ => [.ok]
  | .tstz _ => [.ok]
  | .adds _ _ _ => [.ok, .overflow, .underflow]
  | .subs _ _ _ => [.ok, .overflow, .underflow]
  | .muls _ _ _ => [.ok, .overflow]
  | .divs _ _ _ _ => [.ok, .divByZero, .overflow]
  | .cmps _ _ => [.ok]
  | .tstn _ => [.ok]
  | .neg _ _ => [.ok]
  | .ldc _ _ => [.ok]
  | .mov _ _ => [.ok]

end Sys2Proof.Machine
end

