-- ==== Sys2Proof/Certificates/Slice0/Obligations.lean ====
section
/-! DEFINITION. The statements about the INT512 core, for the provers. A source operand of a command is `s.operand i`: the
register as it stood at the CMD write (00_scope.md R18, 10_state.md R35); statement `LatchedOperandsAreTheRegisters` says it
is the register itself in every state that meets the invariant. -/

open Sys2Proof Sys2Proof.Machine

/-! ## Encoding -/

/-- Decoding the word of a well-formed command gives the command back, with every operand (30_encoding.md R61, R62, R66, R71). -/
def Obligations.DecodeOfEncode : Prop :=
  ∀ i : Instr, i.wellFormed = true → decode (encode i) = .legal i

/-- A legal word is the word of its command and of no other: no bit of it is dropped (R62, R66, R71). -/
def Obligations.EncodeOfDecode : Prop :=
  ∀ (c : Command) (i : Instr), decode c = .legal i → encode i = c ∧ i.wellFormed = true

/-- R66: a word is legal iff its row exists and the three checks pass; an illegal one completes with CODE = 7 and nothing
else but the end of BUSY. -/
def Obligations.IllegalWordsWriteOnlyTheCode : Prop :=
  (∀ c : Command, (∃ i, decode c = .legal i) ↔
    ∃ op : Opcode, c.extractLsb' 0 8 = op.byte ∧ c &&& op.format.mask = op.matchWord
      ∧ (op.format = .div4 → c.extractLsb' 8 3 ≠ c.extractLsb' 11 3)
      ∧ (op.format = .ldk → c.extractLsb' 20 3 ≠ 7)) ∧
  (∀ (c : Command) (i : Instr), decode c = .legal i → c.extractLsb' 0 8 = i.opcode.byte ∧ encode i = c) ∧
  (∀ (s : State) (rest : List Event) (why : IllegalReason),
    s.busy = true → decode s.latchedWord = .illegal why →
    s.schedule = .core :: rest ∨ (s.schedule = [] ∧ rest = []) →
    step s = .next { s with code := .illegalCommand, busy := false, pending := none, schedule := rest })

/-- R67 and R68: a divide with rd = rd2, and LDC with k = 7, are illegal whatever their other fields. The third clause, that
the meaning of a divide says so too, is the model's choice (log 8): the decoder yields no such term. -/
def Obligations.EqualDivideDestinationsAndSelectorSevenAreIllegal : Prop :=
  (∀ (op : Opcode) (c : Command), op = .divu ∨ op = .divs → c &&& op.format.mask = op.matchWord →
    c.extractLsb' 8 3 = c.extractLsb' 11 3 → decode c = .illegal .sameDivDestination) ∧
  (∀ c : Command, c &&& Opcode.ldc.format.mask = Opcode.ldc.matchWord → c.extractLsb' 20 3 = 7 →
    decode c = .illegal .reservedConstant) ∧
  (∀ (rd rs1 rs2 : RegIdx) (s : State),
    exec (.divu rd rd rs1 rs2) s = .next (raiseStatus .illegalCommand s) ∧
    exec (.divs rd rd rs1 rs2) s = .next (raiseStatus .illegalCommand s))

/-- The example words of R71, one per format, and the reset value of CMD (R69). -/
def Obligations.SampleWordsDecode : Prop :=
  decode 0x00020201 = .legal (.addu 2 0 1) ∧ decode 0x00021A04 = .legal (.divu 2 3 0 1) ∧
  decode 0x00000117 = .legal (.neg 1 0) ∧ decode 0x00020005 = .legal (.cmpu 0 1) ∧
  decode 0x0000C006 = .legal (.tstz 3) ∧ decode 0x00200420 = .legal (.ldc 4 .umax) ∧
  decode 0 = .illegal .reservedOpcode

/-- R71: every command's line of text assembles to its word, LDC also in its second form with every `#k`, the reserved 7 too;
R72: CLR and ONE are the only pseudo-instructions. How blanks are read is the model's choice (log 25). -/
def Obligations.AssemblerReadsEveryCommand : Prop :=
  (∀ i : Instr, assembleText (assemblyText i) = some (encode i) ∧
    assembleLine (opcodeName i.opcode) (operandNames i) = some (encode i)) ∧
  (∀ rd : RegIdx, ∀ e ∈ [("#0", (0 : BitVec 3)), ("#1", 1), ("#2", 2), ("#3", 3), ("#4", 4), ("#5", 5), ("#6", 6), ("#7", 7)],
    assembleText ("LDC " ++ registerName rd ++ ", " ++ e.1) = some (assemble .ldc rd 0 0 0 e.2)) ∧
  (∀ rd : RegIdx, assembleText ("CLR " ++ registerName rd) = some (encode (.ldc rd .uzero))
    ∧ assembleText ("ONE " ++ registerName rd) = some (encode (.ldc rd .uone))) ∧
  (∀ text : String, lookupName mnemonicNames (mnemonicOf text) = none → mnemonicOf text ≠ "CLR" →
    mnemonicOf text ≠ "ONE" → assembleText text = none)

/-! ## The completion step -/

/-- A step runs the decoded command: with BUSY = 1 and the core to move, the step is `exec` of the latched word's command
with BUSY cleared at the end (R204). -/
def Obligations.StepRunsTheLatchedCommand : Prop :=
  ∀ (s : State) (i : Instr), s.busy = true → decode s.latchedWord = .legal i →
    (∀ rest, s.schedule = .core :: rest → step s = retireOutcome (exec i { s with schedule := rest })) ∧
    (s.schedule = [] → step s = retireOutcome (exec i s))

/-- The host's write of a command's word to CMD, then the core's step: `exec` of that command on the registers as they
stood at the write (R23, R43, R204). -/
def Obligations.IssuedCommandRuns : Prop :=
  ∀ (s : State) (i : Instr) (rest : List Event), i.wellFormed = true → s.busy = false →
    s.schedule = .write 0x40 (encode i) :: .core :: rest →
    Host.Core.run Sys2Proof.core 2 s = retireOutcome (exec i (issueCommand { s with schedule := rest } (encode i)))

/-- `ISSUE <command>; WAIT` (R73) ends however often the host polls first: the last poll reads the defined STATUS with
BUSY = 0, and every effect of the command is there (R50, R232, R235). The number of polls is an argument (log 19), and the
words the host has read are kept in the model's own list (log 5). -/
def Obligations.WaitEndsWithTheCommandDone : Prop :=
  ∀ (s : State) (i : Instr) (polls : Nat), i.wellFormed = true → s.busy = false →
    ∃ u t, exec i (issueCommand s (encode i)) = .next u ∧ runEvents (commandEvents i polls) s = .next t ∧
      t.regs = u.regs ∧ t.code = u.code ∧ t.z = u.z ∧ t.n = u.n ∧ t.cmp = u.cmp ∧ t.cmd = encode i ∧
      t.busy = false ∧ t.pending = none ∧ t.lastResponse = t.statusWord ∧ t.lastResponse.getLsbD 0 = false ∧
      t.responses.length = s.responses.length + polls + 1 ∧ t.schedule = s.schedule ∧ t.faultMark = s.faultMark

/-- R232, U15: a host that waits to see BUSY = 1 can wait for ever: once the core has completed, every poll reads 0. -/
def Obligations.BusyIsNeverSeenAfterCompletion : Prop :=
  ∀ (s : State) (c : Command) (n : Nat), s.busy = false →
    ∃ t, runEvents (.write 0x40 c :: .core :: List.replicate n (.read 0x41)) s = .next t ∧
      t.responses.length = s.responses.length + n ∧ ∀ w ∈ t.responses.take n, w.getLsbD 0 = false

/-! ## The invariant -/

/-- The invariant holds after reset. -/
def Obligations.ResetMeetsTheInvariant : Prop := State.reset.Inv

/-- Every step keeps the invariant: BUSY says whether a command is pending, the latched word and registers equal CMD and
the registers, and CODE is a code of the block (R27, R35, R200). -/
def Obligations.StepKeepsTheInvariant : Prop :=
  ∀ s t : State, s.Inv → step s = .next t → t.Inv

/-- R35: "the register file the core reads at completion equals the latched one". -/
def Obligations.LatchedOperandsAreTheRegisters : Prop :=
  ∀ s : State, s.Inv → (∀ i, s.operand i = s.reg i) ∧ s.latchedWord = s.cmd

/-! ## Reset -/

/-- R220 to R222: whatever the state, busy or not, a reset step leaves every register, CMD and STATUS zero and nothing
pending, and does not clear the fault mark. -/
def Obligations.ResetLeavesEverythingZero : Prop :=
  ∀ (s : State) (rest : List Event), s.schedule = .reset :: rest →
    ∃ t, step s = .next t ∧ (∀ i, t.reg i = 0) ∧ t.cmd = 0 ∧ t.statusWord = 0 ∧ t.busy = false ∧ t.code = .ok ∧
      t.z = false ∧ t.n = false ∧ t.cmp = .equal ∧ t.pending = none ∧ t.faultMark = s.faultMark

/-! ## The host window -/

/-- R42: what a host read returns with BUSY = 0; it changes nothing of the block. (`respond` records for the host what the
read returned, log 5.) -/
def Obligations.WindowReadsFollowTheMap : Prop :=
  ∀ (s : State) (a : WAddr) (rest : List Event), s.busy = false → s.schedule = .read a :: rest →
    ∃ v, step s = .next (respond v { s with schedule := rest }) ∧
      (∀ (i : RegIdx) (j : WordIdx), a.toNat = 8 * i.val + j.val → v = word (s.reg i) j) ∧
      (a = 0x40 → v = s.cmd) ∧ (a = 0x41 → v = s.statusWord) ∧ (0x42 ≤ a.toNat → v = 0)

/-- R43: what a host write does with BUSY = 0. -/
def Obligations.WindowWritesFollowTheMap : Prop :=
  ∀ (s : State) (a : WAddr) (v : Word) (rest : List Event), s.busy = false → s.schedule = .write a v :: rest →
    (∀ (i : RegIdx) (j : WordIdx), a.toNat = 8 * i.val + j.val →
      ∃ f : RegFile, step s = .next { s with regs := f, schedule := rest } ∧ word (f.get i) j = v ∧
        (∀ j', j' ≠ j → word (f.get i) j' = word (s.reg i) j') ∧ (∀ i', i' ≠ i → f.get i' = s.reg i')) ∧
    (a = 0x40 → step s = .next
      { s with cmd := v, pending := some { word := v, operands := s.regs }, busy := true, schedule := rest }) ∧
    (0x41 ≤ a.toNat → step s = .next { s with schedule := rest })

/-- A register word reads back what was last written there, and no other window address changes (R44, R47). -/
def Obligations.RegisterWordsReadBack : Prop :=
  ∀ (s : State) (i : RegIdx) (j : WordIdx) (v : Word) (a : WAddr),
    memRead (memWrite s (regAddr i j) v) a = if a = regAddr i j then v else memRead s a

/-- R44: eight word writes in ANY order load a whole value and change nothing else. -/
def Obligations.WordsLoadInAnyOrder : Prop :=
  ∀ (s : State) (i : RegIdx) (v : Value) (order : List WordIdx), s.busy = false → order.Perm wordIndices →
    runEvents (order.map (fun j => .write (regAddr i j) (word v j))) s = .next (s.setReg i v)

/-- R25, R32, R46: the STATUS layout, its legal values, its reserved bits, and that a write to it has no effect. -/
def Obligations.StatusRegisterLayout : Prop :=
  ∀ s : State,
    s.statusWord.getLsbD 0 = s.busy ∧ s.statusWord.extractLsb' 1 3 = 0 ∧ s.statusWord.extractLsb' 4 4 = s.code.bits ∧
    s.statusWord.getLsbD 8 = s.z ∧ s.statusWord.getLsbD 9 = s.n ∧ s.statusWord.extractLsb' 10 2 = s.cmp.bits ∧
    s.statusWord.extractLsb' 12 52 = 0 ∧ s.code.bits.toNat ≤ 7 ∧ s.cmp.bits ≠ 0b10 ∧
    ∀ v, memWrite s 0x41 v = s

/-- R45: reserved addresses read as 0 and ignore writes. -/
def Obligations.ReservedAddressesAreInert : Prop :=
  ∀ (s : State) (a : WAddr), 0x42 ≤ a.toNat → memRead s a = 0 ∧ ∀ v, memWrite s a v = s

/-! ## The BUSY protocol -/

/-- R230: a step faults exactly on a host access other than a STATUS read while BUSY = 1, and then sets the fault mark;
no step is refused. That the fault carries the marked state is the model's form (log 3). -/
def Obligations.FaultExactlyOnProtocolViolation : Prop :=
  ∀ s : State,
    (∀ r, step s = .fault r ↔
      s.busy = true ∧ ∃ e rest, s.schedule = e :: rest ∧
        ((∃ a, e = .read a ∧ a ≠ 0x41) ∨ (∃ a v, e = .write a v)) ∧
        r = .protocolViolation e { s with schedule := rest, faultMark := true }) ∧
    (∀ r, step s ≠ .refused r)

/-- R231: a STATUS read while BUSY = 1 returns 1 in bit 0 and unspecified bits elsewhere, and changes nothing of the block;
a STATUS read that returns BUSY = 0 returns the defined STATUS. The unspecified bits are the model's free value, whatever it
is (log 4). -/
def Obligations.StatusReadsWhileBusy : Prop :=
  ∀ (s : State) (rest : List Event), s.schedule = .read 0x41 :: rest →
    (s.busy = true → ∃ w, step s = .next (respond w (countDraw { s with schedule := rest })) ∧
      w.getLsbD 0 = true ∧ w.extractLsb' 1 63 = Config.busyStatusBits s.draws) ∧
    (∀ t, step s = .next t → t.lastResponse.getLsbD 0 = false → s.busy = false ∧ t.lastResponse = s.statusWord)

/-- R36: the fault mark is set by a protocol violation and never cleared, not even by reset; no other step sets it. That a
reset keeps the draws, the schedule and the responses too is the model's choice (log 10). -/
def Obligations.FaultMarkIsNeverCleared : Prop :=
  ∀ s : State, (∀ t, step s = .next t → t.faultMark = s.faultMark) ∧
    (∀ r, step s = .fault r → r.afterReset = { State.reset with
      faultMark := true, draws := s.draws, schedule := s.schedule.tail, responses := s.responses })

/-- R215: with no command pending and no host access or reset, the block holds its state. -/
def Obligations.IdleBlockHoldsItsState : Prop :=
  ∀ s : State, s.busy = false →
    (s.schedule = [] → step s = .next s) ∧
    (∀ rest, s.schedule = .core :: rest → step s = .next { s with schedule := rest })

/-! ## Whole-machine rules -/

/-- R29 to R31: Z, N and CMP change only at reset or when TSTZ, TSTN, or CMPU and CMPS complete, that is in the core's step
with BUSY = 1, and what they change to. -/
def Obligations.FlagsAreWrittenOnlyByTheirCommands : Prop :=
  ∀ s t : State, step s = .next t →
    (t.z ≠ s.z → (s.schedule.head? = some .reset ∧ t.z = false) ∨
      (s.busy = true ∧ (s.schedule = [] ∨ s.schedule.head? = some .core) ∧
        ∃ r, decode s.latchedWord = .legal (.tstz r) ∧ (t.z = true ↔ ∀ j, word (s.operand r) j = 0))) ∧
    (t.n ≠ s.n → (s.schedule.head? = some .reset ∧ t.n = false) ∨
      (s.busy = true ∧ (s.schedule = [] ∨ s.schedule.head? = some .core) ∧
        ∃ r, decode s.latchedWord = .legal (.tstn r) ∧ t.n = (s.operand r).getLsbD 511)) ∧
    (t.cmp ≠ s.cmp → (s.schedule.head? = some .reset ∧ t.cmp = .equal) ∨
      (s.busy = true ∧ (s.schedule = [] ∨ s.schedule.head? = some .core) ∧
        ∃ r1 r2,
          (decode s.latchedWord = .legal (.cmpu r1 r2) ∧
            t.cmp = if uval (s.operand r1) > uval (s.operand r2) then .greater
              else if uval (s.operand r1) = uval (s.operand r2) then .equal else .less) ∨
          (decode s.latchedWord = .legal (.cmps r1 r2) ∧
            t.cmp = if sval (s.operand r1) > sval (s.operand r2) then .greater
              else if sval (s.operand r1) = sval (s.operand r2) then .equal else .less)))

/-- A value register changes only when the host writes one of its words with BUSY = 0, at reset, or when a command that
names it as a destination completes (10_state.md §1, R21, R35). -/
def Obligations.RegistersAreWrittenOnlyByTheirWriters : Prop :=
  ∀ (s t : State) (j : RegIdx), step s = .next t → t.reg j ≠ s.reg j →
    (s.busy = false ∧ ∃ (k : WordIdx) (v : Word), s.schedule.head? = some (.write (regAddr j k) v) ∧
      t.reg j = setWord (s.reg j) k v) ∨
    (s.schedule.head? = some .reset ∧ t.reg j = 0) ∨
    (s.busy = true ∧ (s.schedule = [] ∨ s.schedule.head? = some .core) ∧
      ∃ i, decode s.latchedWord = .legal i ∧ j ∈ destinations i)

/-- R23, R27: CMD changes only by the host's write or reset; BUSY rises only by a CMD write and falls only by the
completion step or reset. -/
def Obligations.CmdAndBusyFollowTheProtocol : Prop :=
  ∀ s t : State, step s = .next t →
    (t.cmd ≠ s.cmd → (s.busy = false ∧ s.schedule.head? = some (.write 0x40 t.cmd)) ∨
      (s.schedule.head? = some .reset ∧ t.cmd = 0)) ∧
    (s.busy = false → t.busy = true → s.schedule.head? = some (.write 0x40 t.cmd)) ∧
    (s.busy = true → t.busy = false →
      s.schedule = [] ∨ s.schedule.head? = some .core ∨ s.schedule.head? = some .reset) ∧
    (s.busy = true → (s.schedule = [] ∨ s.schedule.head? = some .core) → t.busy = false)

/-- R28, R201: a command writes one of its own codes, and CODE changes only by a completion or reset. -/
def Obligations.CodesAreThoseOfTheCommand : Prop :=
  (∀ (i : Instr) (s t : State), i.wellFormed = true → exec i s = .next t → t.code ∈ possibleCodes i) ∧
  (∀ s t : State, step s = .next t → t.code ≠ s.code →
    s.schedule.head? = some .reset ∨ (s.busy = true ∧ (s.schedule = [] ∨ s.schedule.head? = some .core)))

/-! ## Datapaths -/

/-- R104: the schoolbook multiply gives the product modulo 2^512, and its overflow flag is exact (90_conflicts.md C3). -/
def Obligations.SchoolbookMultiplyIsExact : Prop :=
  ∀ a b : Value, (mulWords a b).1 = enc ((uval a * uval b : Nat) : Int) ∧
    ((mulWords a b).2 = true ↔ 2 ^ 512 ≤ uval a * uval b)

/-- R106: the bit-by-bit long division gives the exact quotient and remainder. -/
def Obligations.LongDivisionIsExact : Prop :=
  ∀ a b : Value, uval b ≠ 0 → uval b ≤ uval a →
    (divBits a b).1 = enc ((uval a / uval b : Nat) : Int) ∧ (divBits a b).2 = enc ((uval a % uval b : Nat) : Int) ∧
    uval a = uval b * uval (divBits a b).1 + uval (divBits a b).2 ∧ uval (divBits a b).2 < uval b

/-! ## Results of the unsigned commands -/

/-- R101: ADDU. -/
def Obligations.AdduWritesTheSum : Prop :=
  (∀ (rd rs1 rs2 : RegIdx) (s : State),
    exec (.addu rd rs1 rs2) s = .next (complete
      (if 2 ^ 512 ≤ uval (s.operand rs1) + uval (s.operand rs2) then .overflow else .ok)
      (s.setReg rd (enc ((uval (s.operand rs1) : Int) + uval (s.operand rs2)))))) ∧
  Opcode.addu.byte = 0x01 ∧ Opcode.addu.format = .op3

/-- R103: SUBU. -/
def Obligations.SubuWritesTheDifference : Prop :=
  (∀ (rd rs1 rs2 : RegIdx) (s : State),
    exec (.subu rd rs1 rs2) s = .next (complete
      (if uval (s.operand rs1) < uval (s.operand rs2) then .underflow else .ok)
      (s.setReg rd (enc ((uval (s.operand rs1) : Int) - uval (s.operand rs2)))))) ∧
  Opcode.subu.byte = 0x02 ∧ Opcode.subu.format = .op3

/-- R105: MULU. -/
def Obligations.MuluWritesTheProduct : Prop :=
  (∀ (rd rs1 rs2 : RegIdx) (s : State),
    exec (.mulu rd rs1 rs2) s = .next (complete
      (if 2 ^ 512 ≤ uval (s.operand rs1) * uval (s.operand rs2) then .overflow else .ok)
      (s.setReg rd (enc ((uval (s.operand rs1) : Int) * uval (s.operand rs2)))))) ∧
  Opcode.mulu.byte = 0x03 ∧ Opcode.mulu.format = .op3

/-- R107: DIVU; a zero divisor writes no register, and rd = rd2 is illegal (R66, R67). That the
meaning reports so too is the model's choice (log 8): the decoder yields no such term. -/
def Obligations.DivuWritesQuotientAndRemainder : Prop :=
  (∀ (rd rd2 rs1 rs2 : RegIdx) (s : State),
    (rd = rd2 → exec (.divu rd rd2 rs1 rs2) s = .next (raiseStatus .illegalCommand s)) ∧
    (rd ≠ rd2 → uval (s.operand rs2) = 0 → exec (.divu rd rd2 rs1 rs2) s = .next (raiseStatus .divByZero s)) ∧
    (rd ≠ rd2 → uval (s.operand rs2) ≠ 0 →
      ∃ q r, exec (.divu rd rd2 rs1 rs2) s = .next (complete .ok ((s.setReg rd q).setReg rd2 r)) ∧
        uval q = uval (s.operand rs1) / uval (s.operand rs2) ∧ uval r = uval (s.operand rs1) % uval (s.operand rs2) ∧
        uval (s.operand rs1) = uval (s.operand rs2) * uval q + uval r ∧ uval r < uval (s.operand rs2))) ∧
  Opcode.divu.byte = 0x04 ∧ Opcode.divu.format = .div4

/-- R108: CMPU. -/
def Obligations.CmpuComparesUnsigned : Prop :=
  (∀ (rs1 rs2 : RegIdx) (s : State),
    exec (.cmpu rs1 rs2) s = .next (complete .ok { s with
      cmp := if uval (s.operand rs1) > uval (s.operand rs2) then .greater
        else if uval (s.operand rs1) = uval (s.operand rs2) then .equal else .less })) ∧
  Opcode.cmpu.byte = 0x05 ∧ Opcode.cmpu.format = .cmp2

/-- R109: TSTZ. -/
def Obligations.TstzTestsEveryWord : Prop :=
  (∀ (rs1 : RegIdx) (s : State), ∃ z : Bool,
    exec (.tstz rs1) s = .next (complete .ok { s with z := z }) ∧
      (z = true ↔ ∀ j, word (s.operand rs1) j = 0) ∧ (z = true ↔ uval (s.operand rs1) = 0)) ∧
  Opcode.tstz.byte = 0x06 ∧ Opcode.tstz.format = .tst1

/-! ## Results of the signed commands -/

/-- R121: NEG, status OK also for SMIN, which it leaves as it is and which is the one nonzero value whose sign it keeps. -/
def Obligations.NegNegates : Prop :=
  (∀ (rd rs1 : RegIdx) (s : State),
    exec (.neg rd rs1) s = .next (complete .ok (s.setReg rd (enc (-(sval (s.operand rs1))))))) ∧
  enc (-(sval smin)) = smin ∧
  (∀ v : Value, uval v ≠ 0 → ((enc (-(sval v))).getLsbD 511 = v.getLsbD 511 ↔ v = smin)) ∧
  Opcode.neg.byte = 0x17 ∧ Opcode.neg.format = .op2

/-- R122: ADDS; OVERFLOW above the signed range, UNDERFLOW below it, the wrapped sum in every case. -/
def Obligations.AddsClassifiesTheSignedSum : Prop :=
  (∀ (rd rs1 rs2 : RegIdx) (s : State),
    exec (.adds rd rs1 rs2) s = .next (complete
      (if signedMax < sval (s.operand rs1) + sval (s.operand rs2) then .overflow
        else if sval (s.operand rs1) + sval (s.operand rs2) < signedMin then .underflow else .ok)
      (s.setReg rd (enc (sval (s.operand rs1) + sval (s.operand rs2)))))) ∧
  Opcode.adds.byte = 0x11 ∧ Opcode.adds.format = .op3

/-- R123: SUBS. -/
def Obligations.SubsClassifiesTheSignedDifference : Prop :=
  (∀ (rd rs1 rs2 : RegIdx) (s : State),
    exec (.subs rd rs1 rs2) s = .next (complete
      (if signedMax < sval (s.operand rs1) - sval (s.operand rs2) then .overflow
        else if sval (s.operand rs1) - sval (s.operand rs2) < signedMin then .underflow else .ok)
      (s.setReg rd (enc (sval (s.operand rs1) - sval (s.operand rs2)))))) ∧
  Opcode.subs.byte = 0x12 ∧ Opcode.subs.format = .op3

/-- R124: MULS; OVERFLOW in both directions, never UNDERFLOW (90_conflicts.md C2). -/
def Obligations.MulsClassifiesTheSignedProduct : Prop :=
  (∀ (rd rs1 rs2 : RegIdx) (s : State),
    exec (.muls rd rs1 rs2) s = .next (complete
      (if signedMin ≤ sval (s.operand rs1) * sval (s.operand rs2) ∧
          sval (s.operand rs1) * sval (s.operand rs2) ≤ signedMax then .ok else .overflow)
      (s.setReg rd (enc (sval (s.operand rs1) * sval (s.operand rs2)))))) ∧
  Opcode.muls.byte = 0x13 ∧ Opcode.muls.format = .op3

/-- R125: DIVS; truncating, OVERFLOW exactly for SMIN / -1 (90_conflicts.md C1). rd = rd2 is illegal (R66, R67); that the
meaning reports so too is the model's choice (log 8): the decoder yields no such term. -/
def Obligations.DivsTruncates : Prop :=
  (∀ (rd rd2 rs1 rs2 : RegIdx) (s : State),
    (rd = rd2 → exec (.divs rd rd2 rs1 rs2) s = .next (raiseStatus .illegalCommand s)) ∧
    (rd ≠ rd2 → uval (s.operand rs2) = 0 → exec (.divs rd rd2 rs1 rs2) s = .next (raiseStatus .divByZero s)) ∧
    (rd ≠ rd2 → s.operand rs1 = smin → sval (s.operand rs2) = -1 →
      exec (.divs rd rd2 rs1 rs2) s = .next (complete .overflow ((s.setReg rd smin).setReg rd2 0))) ∧
    (rd ≠ rd2 → uval (s.operand rs2) ≠ 0 → ¬ (s.operand rs1 = smin ∧ sval (s.operand rs2) = -1) →
      ∃ q r, exec (.divs rd rd2 rs1 rs2) s = .next (complete .ok ((s.setReg rd q).setReg rd2 r)) ∧
        sval q = (sval (s.operand rs1)).tdiv (sval (s.operand rs2)) ∧
        sval r = sval (s.operand rs1) - sval (s.operand rs2) * sval q)) ∧
  Opcode.divs.byte = 0x14 ∧ Opcode.divs.format = .div4

/-- R126: CMPS. -/
def Obligations.CmpsComparesSigned : Prop :=
  (∀ (rs1 rs2 : RegIdx) (s : State),
    exec (.cmps rs1 rs2) s = .next (complete .ok { s with
      cmp := if sval (s.operand rs1) > sval (s.operand rs2) then .greater
        else if sval (s.operand rs1) = sval (s.operand rs2) then .equal else .less })) ∧
  Opcode.cmps.byte = 0x15 ∧ Opcode.cmps.format = .cmp2

/-- R127: TSTN; N is bit 511, which says whether the signed reading is negative. -/
def Obligations.TstnReadsTheSign : Prop :=
  (∀ (rs1 : RegIdx) (s : State),
    exec (.tstn rs1) s = .next (complete .ok { s with n := (s.operand rs1).getLsbD 511 }) ∧
    ((s.operand rs1).getLsbD 511 = true ↔ sval (s.operand rs1) < 0)) ∧
  Opcode.tstn.byte = 0x16 ∧ Opcode.tstn.format = .tst1

/-! ## Results of the constant and move commands -/

/-- R140 with the table of R34: LDC, with the number of each selector (R64); selector 7 names no constant. -/
def Obligations.LdcLoadsTheNamedConstant : Prop :=
  (∀ (rd : RegIdx) (k : NamedConst) (s : State),
    ∃ v, exec (.ldc rd k) s = .next (complete .ok (s.setReg rd v)) ∧
      (k = .uzero → v = enc 0) ∧ (k = .uone → v = enc 1) ∧ (k = .umax → v = enc (2 ^ 512 - 1)) ∧
      (k = .szero → v = enc 0) ∧ (k = .sone → v = enc 1) ∧ (k = .smax → v = enc (2 ^ 511 - 1)) ∧
      (k = .smin → v = enc (-2 ^ 511) ∧ ∀ n, v.getLsbD n = true ↔ n = 511)) ∧
  (namedConstOfSelector 0 = some .uzero ∧ namedConstOfSelector 1 = some .uone ∧ namedConstOfSelector 2 = some .umax ∧
    namedConstOfSelector 3 = some .szero ∧ namedConstOfSelector 4 = some .sone ∧ namedConstOfSelector 5 = some .smax ∧
    namedConstOfSelector 6 = some .smin ∧ namedConstOfSelector 7 = none) ∧
  (NamedConst.uzero.selector = 0 ∧ NamedConst.uone.selector = 1 ∧ NamedConst.umax.selector = 2 ∧
    NamedConst.szero.selector = 3 ∧ NamedConst.sone.selector = 4 ∧ NamedConst.smax.selector = 5 ∧
    NamedConst.smin.selector = 6) ∧
  Opcode.ldc.byte = 0x20 ∧ Opcode.ldc.format = .ldk

/-- R141: MOV, every word. -/
def Obligations.MovCopiesEveryWord : Prop :=
  (∀ (rd rs1 : RegIdx) (s : State),
    exec (.mov rd rs1) s = .next (complete .ok (s.setReg rd (s.operand rs1))) ∧
    ∀ j, word ((s.setReg rd (s.operand rs1)).reg rd) j = word (s.operand rs1) j) ∧
  Opcode.mov.byte = 0x21 ∧ Opcode.mov.format = .op2

/-! ## Frames -/

/-- The frame of the commands with one result register: nothing changes but that register and CODE, and every window
address outside the register's words and STATUS reads as before. -/
def Obligations.FrameOfOneResultCommands : Prop :=
  ∀ (rd rs1 rs2 : RegIdx) (k : NamedConst) (s t : State),
    ∀ i ∈ [Instr.addu rd rs1 rs2, .subu rd rs1 rs2, .mulu rd rs1 rs2, .adds rd rs1 rs2, .subs rd rs1 rs2,
      .muls rd rs1 rs2, .neg rd rs1, .ldc rd k, .mov rd rs1],
    exec i s = .next t →
      (∀ j, j ≠ rd → t.reg j = s.reg j) ∧ t.z = s.z ∧ t.n = s.n ∧ t.cmp = s.cmp ∧ t.cmd = s.cmd ∧ t.busy = s.busy ∧
      t.pending = s.pending ∧ t.faultMark = s.faultMark ∧ t.draws = s.draws ∧ t.schedule = s.schedule ∧
      t.responses = s.responses ∧
      ∀ a, a ≠ 0x41 → (∀ j, a ≠ regAddr rd j) → memRead t a = memRead s a

/-- The frame of the divides: nothing changes but the two destinations and CODE; with a zero divisor or rd = rd2, CODE
alone. What the meaning does with rd = rd2 (illegal, R67) is the model's choice (log 8). -/
def Obligations.FrameOfDivides : Prop :=
  ∀ (rd rd2 rs1 rs2 : RegIdx) (s t : State),
    ∀ i ∈ [Instr.divu rd rd2 rs1 rs2, .divs rd rd2 rs1 rs2],
    exec i s = .next t →
      (∀ j, j ≠ rd → j ≠ rd2 → t.reg j = s.reg j) ∧ t.z = s.z ∧ t.n = s.n ∧ t.cmp = s.cmp ∧ t.cmd = s.cmd ∧
      t.busy = s.busy ∧ t.pending = s.pending ∧ t.faultMark = s.faultMark ∧ t.draws = s.draws ∧
      t.schedule = s.schedule ∧ t.responses = s.responses ∧
      (∀ a, a ≠ 0x41 → (∀ j, a ≠ regAddr rd j ∧ a ≠ regAddr rd2 j) → memRead t a = memRead s a) ∧
      (rd = rd2 ∨ uval (s.operand rs2) = 0 → t.regs = s.regs)

/-- The frame of the compares and tests: no register changes, each writes only its own flag and CODE, and every window
address but STATUS reads as before. -/
def Obligations.FrameOfComparesAndTests : Prop :=
  ∀ (rs1 rs2 : RegIdx) (s t : State),
    ∀ i ∈ [Instr.cmpu rs1 rs2, .cmps rs1 rs2, .tstz rs1, .tstn rs1],
    exec i s = .next t →
      t.regs = s.regs ∧ t.cmd = s.cmd ∧ t.busy = s.busy ∧ t.pending = s.pending ∧ t.faultMark = s.faultMark ∧
      t.draws = s.draws ∧ t.schedule = s.schedule ∧ t.responses = s.responses ∧
      (i ≠ .tstz rs1 → t.z = s.z) ∧ (i ≠ .tstn rs1 → t.n = s.n) ∧
      (i = .tstz rs1 ∨ i = .tstn rs1 → t.cmp = s.cmp) ∧
      ∀ a, a ≠ 0x41 → memRead t a = memRead s a

/-! ## Laws -/

/-- R110: in any later state whose sources hold the sum and b, SUBU undoes an ADDU that reported OK; ADDU and MULU are
commutative in result and status, and the results are those of the integers modulo 2^512 whatever the status. -/
def Obligations.UnsignedLaws : Prop :=
  (∀ (s t s' : State) (rc ra rb rd ra' rb' : RegIdx), exec (.addu rc ra rb) s = .next t → t.code = .ok →
    s'.operand ra' = t.reg rc → s'.operand rb' = s.operand rb →
    ∃ u, exec (.subu rd ra' rb') s' = .next u ∧ u.reg rd = s.operand ra ∧ u.code = .ok) ∧
  (∀ (s : State) (rd ra rb : RegIdx), exec (.addu rd ra rb) s = exec (.addu rd rb ra) s ∧
    exec (.mulu rd ra rb) s = exec (.mulu rd rb ra) s) ∧
  (∀ (s t u w : State) (rd ra rb : RegIdx), exec (.addu rd ra rb) s = .next t → exec (.subu rd ra rb) s = .next u →
    exec (.mulu rd ra rb) s = .next w →
      (uval (t.reg rd) : Int) = ((uval (s.operand ra) : Int) + uval (s.operand rb)) % 2 ^ 512 ∧
      (uval (u.reg rd) : Int) = ((uval (s.operand ra) : Int) - uval (s.operand rb)) % 2 ^ 512 ∧
      (uval (w.reg rd) : Int) = ((uval (s.operand ra) : Int) * uval (s.operand rb)) % 2 ^ 512)

/-- R111: the unsigned division law: DIVU gives q and r with a = b*q + r and r < b, and reports
DIV_BY_ZERO for every dividend when b is zero. -/
def Obligations.UnsignedDivisionLaw : Prop :=
  ∀ (s : State) (rd rd2 ra rb : RegIdx), rd ≠ rd2 →
    ∃ t, exec (.divu rd rd2 ra rb) s = .next t ∧
      (uval (s.operand rb) ≠ 0 → t.code = .ok ∧
        uval (s.operand ra) = uval (s.operand rb) * uval (t.reg rd) + uval (t.reg rd2) ∧
        uval (t.reg rd2) < uval (s.operand rb)) ∧
      (uval (s.operand rb) = 0 → t.code = .divByZero)

/-- R128: the signed division law, SMAX + 1 overflows, ADDS and MULS are commutative in result and status, and the signed
results are the unsigned ones: only the status differs. -/
def Obligations.SignedLaws : Prop :=
  (∀ (s : State) (rd rd2 ra rb : RegIdx), rd ≠ rd2 → uval (s.operand rb) ≠ 0 →
    ¬ (s.operand ra = smin ∧ sval (s.operand rb) = -1) →
    ∃ t, exec (.divs rd rd2 ra rb) s = .next t ∧
      sval (s.operand ra) = sval (s.operand rb) * sval (t.reg rd) + sval (t.reg rd2) ∧
      (sval (t.reg rd2) = 0 ∨ (sval (t.reg rd2) < 0 ↔ sval (s.operand ra) < 0)) ∧
      |sval (t.reg rd2)| < |sval (s.operand rb)|) ∧
  (∀ (s : State) (rd ra rb : RegIdx), s.operand ra = romValue .smax → s.operand rb = romValue .sone →
    ∃ t, exec (.adds rd ra rb) s = .next t ∧ t.code = .overflow ∧ t.reg rd = smin) ∧
  (∀ (s : State) (rd ra rb : RegIdx), exec (.adds rd ra rb) s = exec (.adds rd rb ra) s ∧
    exec (.muls rd ra rb) s = exec (.muls rd rb ra) s) ∧
  (∀ (s : State) (rd ra rb : RegIdx),
    (∃ t u, exec (.adds rd ra rb) s = .next t ∧ exec (.addu rd ra rb) s = .next u ∧ t = { u with code := t.code }) ∧
    (∃ t u, exec (.subs rd ra rb) s = .next t ∧ exec (.subu rd ra rb) s = .next u ∧ t = { u with code := t.code }) ∧
    (∃ t u, exec (.muls rd ra rb) s = .next t ∧ exec (.mulu rd ra rb) s = .next u ∧ t = { u with code := t.code }))

/-! ## Host procedures -/

/-- R150, R153, R205: a bad radix, then an absent buffer, is reported first; the procedure then makes no window access. That
the radix comes before the absent buffer is the model's reading (log 14). -/
def Obligations.ProceduresCheckTheirArgumentsFirst : Prop :=
  ∀ (polls : Nat → Nat) (g : CodecRegs) (v : Value) (cap : Option Nat) (text : Option (List Byte)) (radix : Int)
    (s : State),
    (radix < 2 ∨ 36 < radix →
      (∃ x, toStringUOnBlock polls g v radix cap s = .next ({ status := .invalidBase, text := x }, countDraw s)) ∧
      (∃ x, toStringSOnBlock polls g v radix cap s = .next ({ status := .invalidBase, text := x }, countDraw s)) ∧
      (∃ x, fromStringUOnBlock polls g text radix s = .next ({ status := .invalidBase, value := x }, countDraw s)) ∧
      (∃ x, fromStringSOnBlock polls g text radix s = .next ({ status := .invalidBase, value := x }, countDraw s))) ∧
    (2 ≤ radix → radix ≤ 36 →
      (∃ x, toStringUOnBlock polls g v radix none s = .next ({ status := .nullPointer, text := x }, countDraw s)) ∧
      (∃ x, toStringSOnBlock polls g v radix none s = .next ({ status := .nullPointer, text := x }, countDraw s)) ∧
      (∃ x, fromStringUOnBlock polls g none radix s = .next ({ status := .nullPointer, value := x }, countDraw s)) ∧
      (∃ x, fromStringSOnBlock polls g none radix s = .next ({ status := .nullPointer, value := x }, countDraw s)))

/-- R156: how many digits a value has, and the buffers that suffice. -/
def Obligations.DigitCountIsLeast : Prop :=
  (∀ (v : Value) (radix : Nat), 2 ≤ radix → radix ≤ 36 → uval v ≠ 0 →
    uval v < radix ^ (digitsText v radix).length ∧
    (∀ m, m < (digitsText v radix).length → radix ^ m ≤ uval v) ∧
    1 ≤ (digitsText v radix).length ∧ (digitsText v radix).length ≤ 512) ∧
  (∀ (v : Value) (radix : Int) (cap : Nat) (junk : List Byte), 2 ≤ radix → radix ≤ 36 →
    (513 ≤ cap → (toStringU v radix (some cap) junk).status = .ok) ∧
    (514 ≤ cap → (toStringS v radix (some cap) junk).status = .ok))

/-- R162: parsing what to_string wrote, without its terminator, gives the value back, unsigned and signed. -/
def Obligations.TextRoundTrip : Prop :=
  ∀ (v jv : Value) (radix : Int) (cap : Nat) (junk : List Byte),
    ((toStringU v radix (some cap) junk).status = .ok →
      fromStringU (some (toStringU v radix (some cap) junk).text.dropLast) radix jv = { status := .ok, value := v }) ∧
    ((toStringS v radix (some cap) junk).status = .ok →
      fromStringS (some (toStringS v radix (some cap) junk).text.dropLast) radix jv = { status := .ok, value := v })

/-- R163: `to_string_u` run on the block, through the window and with any polling, is the function of R155, and it never
breaks the protocol. The order of the loads (log 16) and the polls as an argument (log 19) are the model's choices. -/
def Obligations.UnsignedTextOnBlock : Prop :=
  ∀ (polls : Nat → Nat) (g : CodecRegs) (v : Value) (radix : Int) (cap : Option Nat) (junk : List Byte) (s : State),
    g.distinct = true → s.busy = false →
    ∃ res t, toStringUOnBlock polls g v radix cap s = .next (res, t) ∧
      res.status = (toStringU v radix cap junk).status ∧
      (res.status = .ok → res.text = (toStringU v radix cap junk).text) ∧
      t.busy = false ∧ t.faultMark = s.faultMark ∧ t.schedule = s.schedule

/-- R159, R163: `to_string_s` on the block. The order of the loads (log 16), the polls as an argument (log 19) and the read of
the magnitude (log 28) are the model's choices. -/
def Obligations.SignedTextOnBlock : Prop :=
  ∀ (polls : Nat → Nat) (g : CodecRegs) (v : Value) (radix : Int) (cap : Option Nat) (junk : List Byte) (s : State),
    g.distinct = true → s.busy = false →
    ∃ res t, toStringSOnBlock polls g v radix cap s = .next (res, t) ∧
      res.status = (toStringS v radix cap junk).status ∧
      (res.status = .ok → res.text = (toStringS v radix cap junk).text) ∧
      t.busy = false ∧ t.faultMark = s.faultMark ∧ t.schedule = s.schedule

/-- R157, R158, R163: `from_string_u` on the block; on OK the value also stands in the working register.
The order of the loads (log 16), the polls as an argument (log 19) and the read of the value (log 28) are the model's choices. -/
def Obligations.UnsignedParseOnBlock : Prop :=
  ∀ (polls : Nat → Nat) (g : CodecRegs) (text : Option (List Byte)) (radix : Int) (junk : Value) (s : State),
    g.distinct = true → s.busy = false →
    ∃ res t, fromStringUOnBlock polls g text radix s = .next (res, t) ∧
      res.status = (fromStringU text radix junk).status ∧
      (res.status = .ok → res.value = (fromStringU text radix junk).value ∧ t.reg g.w = res.value) ∧
      t.busy = false ∧ t.faultMark = s.faultMark ∧ t.schedule = s.schedule

/-- R160, R161, R163: `from_string_s` on the block. The order of the loads (log 16), the polls as an argument (log 19) and the
reads and the host's compare of the range check (log 28) are the model's choices. -/
def Obligations.SignedParseOnBlock : Prop :=
  ∀ (polls : Nat → Nat) (g : CodecRegs) (text : Option (List Byte)) (radix : Int) (junk : Value) (s : State),
    g.distinct = true → s.busy = false →
    ∃ res t, fromStringSOnBlock polls g text radix s = .next (res, t) ∧
      res.status = (fromStringS text radix junk).status ∧
      (res.status = .ok → res.value = (fromStringS text radix junk).value ∧ t.reg g.w = res.value) ∧
      t.busy = false ∧ t.faultMark = s.faultMark ∧ t.schedule = s.schedule

/-- R166: the words a host writes for a narrow operand, and the readings of the widened value. -/
def Obligations.WideningKeepsTheValue : Prop :=
  (∀ (width : Nat) (x : BitVec width), width ∈ [8, 16, 32, 64] →
    word (widenUnsigned x) 0 = x.setWidth 64 ∧ word (widenSigned x) 0 = x.signExtend 64 ∧
    ∀ j : WordIdx, j ≠ 0 → word (widenUnsigned x) j = 0 ∧
      word (widenSigned x) j = if x.msb then 0xFFFFFFFFFFFFFFFF else 0) ∧
  (∀ x : BitVec 128,
    word (widenUnsigned x) 0 = x.extractLsb' 0 64 ∧ word (widenUnsigned x) 1 = x.extractLsb' 64 64 ∧
    word (widenSigned x) 0 = x.extractLsb' 0 64 ∧ word (widenSigned x) 1 = x.extractLsb' 64 64 ∧
    ∀ j : WordIdx, j ≠ 0 → j ≠ 1 → word (widenUnsigned x) j = 0 ∧
      word (widenSigned x) j = if x.msb then 0xFFFFFFFFFFFFFFFF else 0) ∧
  (∀ (width : Nat) (x : BitVec width), width ∈ [8, 16, 32, 64, 128] →
    uval (widenUnsigned x) = x.toNat ∧ sval (widenSigned x) = x.toInt)
end

