-- ==== Sys2Proof/Laws/Assembler.lean ====
section
/-! SUPPORT. The assembler's tables give back what the names were written from (30_encoding.md R65, R71, R34). -/

namespace Sys2Proof.Machine

@[simp] theorem lookup_registerName (i : RegIdx) : lookupName registerNames (registerName i) = some i := by
  fin_cases i <;> decide

@[simp] theorem lookup_opcodeName (op : Opcode) : lookupName mnemonicNames (opcodeName op) = some op := by
  cases op <;> decide

@[simp] theorem lookup_constantName (k : NamedConst) : lookupName constantNames (constantName k) = some k.selector := by
  cases k <;> decide

/-- The registers of a list of register names are those registers. -/
@[simp] theorem registersOfNames_map (rs : List RegIdx) : registersOfNames (rs.map registerName) = some rs := by
  induction rs with
  | nil => rfl
  | cons r rs ih => simp [registersOfNames, ih]

/-- Each of the eight selector numbers is the constant `#k` (30_encoding.md R71). -/
theorem lookup_numbered : ∀ e ∈ numberedSelectors, lookupName constantNames e.1 = some e.2 := by decide +kernel

end Sys2Proof.Machine
end

