-- ==== Sys2Proof/Laws/State.lean ====
section
/-! SUPPORT. One lemma per field per named update of State, each true by rfl, so that no proof unfolds an update; reading a
register file after a write. -/

namespace Sys2Proof.Machine

/-! ## Register files -/

@[simp] theorem RegFile.get_set_same (f : RegFile) (i : RegIdx) (v : Value) : (f.set i v).get i = v := by
  fin_cases i <;> rfl

theorem RegFile.get_set_ne (f : RegFile) (v : Value) : ∀ i j : RegIdx, j ≠ i → (f.set i v).get j = f.get j := by
  intro i j h
  fin_cases i <;> fin_cases j <;> first | exact absurd rfl h | rfl

theorem RegFile.get_set (f : RegFile) (i j : RegIdx) (v : Value) :
    (f.set i v).get j = if j = i then v else f.get j := by
  split
  · subst j; exact RegFile.get_set_same f i v
  · exact RegFile.get_set_ne f v i j ‹_›

@[simp] theorem RegFile.get_zero (i : RegIdx) : RegFile.zero.get i = 0 := by
  fin_cases i <;> rfl

/-- Two register files that agree on every register are equal. -/
theorem RegFile.ext_get (f g : RegFile) (h : ∀ i, f.get i = g.get i) : f = g := by
  obtain ⟨_, _, _, _, _, _, _, _⟩ := f
  obtain ⟨_, _, _, _, _, _, _, _⟩ := g
  have h0 := h 0; have h1 := h 1; have h2 := h 2; have h3 := h 3
  have h4 := h 4; have h5 := h 5; have h6 := h 6; have h7 := h 7
  simp only [RegFile.get] at h0 h1 h2 h3 h4 h5 h6 h7
  simp_all

/-- Writing back what a register holds changes nothing. -/
@[simp] theorem RegFile.set_get (f : RegFile) (i : RegIdx) : f.set i (f.get i) = f := by
  fin_cases i <;> rfl

theorem RegFile.set_set_same (f : RegFile) (i : RegIdx) (v w : Value) : (f.set i v).set i w = f.set i w := by
  fin_cases i <;> rfl

/-! ## setReg -/

@[simp] theorem State.setReg_regs (s : State) (i : RegIdx) (v : Value) : (s.setReg i v).regs = s.regs.set i v := rfl
@[simp] theorem State.setReg_cmd (s : State) (i : RegIdx) (v : Value) : (s.setReg i v).cmd = s.cmd := rfl
@[simp] theorem State.setReg_busy (s : State) (i : RegIdx) (v : Value) : (s.setReg i v).busy = s.busy := rfl
@[simp] theorem State.setReg_code (s : State) (i : RegIdx) (v : Value) : (s.setReg i v).code = s.code := rfl
@[simp] theorem State.setReg_z (s : State) (i : RegIdx) (v : Value) : (s.setReg i v).z = s.z := rfl
@[simp] theorem State.setReg_n (s : State) (i : RegIdx) (v : Value) : (s.setReg i v).n = s.n := rfl
@[simp] theorem State.setReg_cmp (s : State) (i : RegIdx) (v : Value) : (s.setReg i v).cmp = s.cmp := rfl
@[simp] theorem State.setReg_pending (s : State) (i : RegIdx) (v : Value) : (s.setReg i v).pending = s.pending := rfl
@[simp] theorem State.setReg_faultMark (s : State) (i : RegIdx) (v : Value) : (s.setReg i v).faultMark = s.faultMark := rfl
@[simp] theorem State.setReg_draws (s : State) (i : RegIdx) (v : Value) : (s.setReg i v).draws = s.draws := rfl
@[simp] theorem State.setReg_schedule (s : State) (i : RegIdx) (v : Value) : (s.setReg i v).schedule = s.schedule := rfl
@[simp] theorem State.setReg_responses (s : State) (i : RegIdx) (v : Value) : (s.setReg i v).responses = s.responses := rfl

/-! ## complete -/

@[simp] theorem complete_regs (s : State) (c : StatusCode) : (complete c s).regs = s.regs := rfl
@[simp] theorem complete_cmd (s : State) (c : StatusCode) : (complete c s).cmd = s.cmd := rfl
@[simp] theorem complete_busy (s : State) (c : StatusCode) : (complete c s).busy = s.busy := rfl
@[simp] theorem complete_code (s : State) (c : StatusCode) : (complete c s).code = c := rfl
@[simp] theorem complete_z (s : State) (c : StatusCode) : (complete c s).z = s.z := rfl
@[simp] theorem complete_n (s : State) (c : StatusCode) : (complete c s).n = s.n := rfl
@[simp] theorem complete_cmp (s : State) (c : StatusCode) : (complete c s).cmp = s.cmp := rfl
@[simp] theorem complete_pending (s : State) (c : StatusCode) : (complete c s).pending = s.pending := rfl
@[simp] theorem complete_faultMark (s : State) (c : StatusCode) : (complete c s).faultMark = s.faultMark := rfl
@[simp] theorem complete_draws (s : State) (c : StatusCode) : (complete c s).draws = s.draws := rfl
@[simp] theorem complete_schedule (s : State) (c : StatusCode) : (complete c s).schedule = s.schedule := rfl
@[simp] theorem complete_responses (s : State) (c : StatusCode) : (complete c s).responses = s.responses := rfl

/-! ## raiseStatus -/

@[simp] theorem raiseStatus_regs (s : State) (c : StatusCode) : (raiseStatus c s).regs = s.regs := rfl
@[simp] theorem raiseStatus_cmd (s : State) (c : StatusCode) : (raiseStatus c s).cmd = s.cmd := rfl
@[simp] theorem raiseStatus_busy (s : State) (c : StatusCode) : (raiseStatus c s).busy = s.busy := rfl
@[simp] theorem raiseStatus_code (s : State) (c : StatusCode) : (raiseStatus c s).code = c := rfl
@[simp] theorem raiseStatus_z (s : State) (c : StatusCode) : (raiseStatus c s).z = s.z := rfl
@[simp] theorem raiseStatus_n (s : State) (c : StatusCode) : (raiseStatus c s).n = s.n := rfl
@[simp] theorem raiseStatus_cmp (s : State) (c : StatusCode) : (raiseStatus c s).cmp = s.cmp := rfl
@[simp] theorem raiseStatus_pending (s : State) (c : StatusCode) : (raiseStatus c s).pending = s.pending := rfl
@[simp] theorem raiseStatus_faultMark (s : State) (c : StatusCode) : (raiseStatus c s).faultMark = s.faultMark := rfl
@[simp] theorem raiseStatus_draws (s : State) (c : StatusCode) : (raiseStatus c s).draws = s.draws := rfl
@[simp] theorem raiseStatus_schedule (s : State) (c : StatusCode) : (raiseStatus c s).schedule = s.schedule := rfl
@[simp] theorem raiseStatus_responses (s : State) (c : StatusCode) : (raiseStatus c s).responses = s.responses := rfl

/-! ## retire -/

@[simp] theorem retire_regs (s : State) : (retire s).regs = s.regs := rfl
@[simp] theorem retire_cmd (s : State) : (retire s).cmd = s.cmd := rfl
@[simp] theorem retire_busy (s : State) : (retire s).busy = false := rfl
@[simp] theorem retire_code (s : State) : (retire s).code = s.code := rfl
@[simp] theorem retire_z (s : State) : (retire s).z = s.z := rfl
@[simp] theorem retire_n (s : State) : (retire s).n = s.n := rfl
@[simp] theorem retire_cmp (s : State) : (retire s).cmp = s.cmp := rfl
@[simp] theorem retire_pending (s : State) : (retire s).pending = none := rfl
@[simp] theorem retire_faultMark (s : State) : (retire s).faultMark = s.faultMark := rfl
@[simp] theorem retire_draws (s : State) : (retire s).draws = s.draws := rfl
@[simp] theorem retire_schedule (s : State) : (retire s).schedule = s.schedule := rfl
@[simp] theorem retire_responses (s : State) : (retire s).responses = s.responses := rfl

/-! ## respond -/

@[simp] theorem respond_regs (s : State) (w : Word) : (respond w s).regs = s.regs := rfl
@[simp] theorem respond_cmd (s : State) (w : Word) : (respond w s).cmd = s.cmd := rfl
@[simp] theorem respond_busy (s : State) (w : Word) : (respond w s).busy = s.busy := rfl
@[simp] theorem respond_code (s : State) (w : Word) : (respond w s).code = s.code := rfl
@[simp] theorem respond_z (s : State) (w : Word) : (respond w s).z = s.z := rfl
@[simp] theorem respond_n (s : State) (w : Word) : (respond w s).n = s.n := rfl
@[simp] theorem respond_cmp (s : State) (w : Word) : (respond w s).cmp = s.cmp := rfl
@[simp] theorem respond_pending (s : State) (w : Word) : (respond w s).pending = s.pending := rfl
@[simp] theorem respond_faultMark (s : State) (w : Word) : (respond w s).faultMark = s.faultMark := rfl
@[simp] theorem respond_draws (s : State) (w : Word) : (respond w s).draws = s.draws := rfl
@[simp] theorem respond_schedule (s : State) (w : Word) : (respond w s).schedule = s.schedule := rfl
@[simp] theorem respond_responses (s : State) (w : Word) : (respond w s).responses = w :: s.responses := rfl

/-! ## countDraw -/

@[simp] theorem countDraw_regs (s : State) : (countDraw s).regs = s.regs := rfl
@[simp] theorem countDraw_cmd (s : State) : (countDraw s).cmd = s.cmd := rfl
@[simp] theorem countDraw_busy (s : State) : (countDraw s).busy = s.busy := rfl
@[simp] theorem countDraw_code (s : State) : (countDraw s).code = s.code := rfl
@[simp] theorem countDraw_z (s : State) : (countDraw s).z = s.z := rfl
@[simp] theorem countDraw_n (s : State) : (countDraw s).n = s.n := rfl
@[simp] theorem countDraw_cmp (s : State) : (countDraw s).cmp = s.cmp := rfl
@[simp] theorem countDraw_pending (s : State) : (countDraw s).pending = s.pending := rfl
@[simp] theorem countDraw_faultMark (s : State) : (countDraw s).faultMark = s.faultMark := rfl
@[simp] theorem countDraw_draws (s : State) : (countDraw s).draws = s.draws + 1 := rfl
@[simp] theorem countDraw_schedule (s : State) : (countDraw s).schedule = s.schedule := rfl
@[simp] theorem countDraw_responses (s : State) : (countDraw s).responses = s.responses := rfl

/-! ## issueCommand -/

@[simp] theorem issueCommand_regs (s : State) (c : Command) : (issueCommand s c).regs = s.regs := rfl
@[simp] theorem issueCommand_cmd (s : State) (c : Command) : (issueCommand s c).cmd = c := rfl
@[simp] theorem issueCommand_busy (s : State) (c : Command) : (issueCommand s c).busy = true := rfl
@[simp] theorem issueCommand_code (s : State) (c : Command) : (issueCommand s c).code = s.code := rfl
@[simp] theorem issueCommand_z (s : State) (c : Command) : (issueCommand s c).z = s.z := rfl
@[simp] theorem issueCommand_n (s : State) (c : Command) : (issueCommand s c).n = s.n := rfl
@[simp] theorem issueCommand_cmp (s : State) (c : Command) : (issueCommand s c).cmp = s.cmp := rfl
@[simp] theorem issueCommand_pending (s : State) (c : Command) : (issueCommand s c).pending = some { word := c, operands := s.regs } := rfl
@[simp] theorem issueCommand_faultMark (s : State) (c : Command) : (issueCommand s c).faultMark = s.faultMark := rfl
@[simp] theorem issueCommand_draws (s : State) (c : Command) : (issueCommand s c).draws = s.draws := rfl
@[simp] theorem issueCommand_schedule (s : State) (c : Command) : (issueCommand s c).schedule = s.schedule := rfl
@[simp] theorem issueCommand_responses (s : State) (c : Command) : (issueCommand s c).responses = s.responses := rfl

/-! ## applyReset -/

@[simp] theorem applyReset_regs (s : State) : (applyReset s).regs = RegFile.zero := rfl
@[simp] theorem applyReset_cmd (s : State) : (applyReset s).cmd = 0 := rfl
@[simp] theorem applyReset_busy (s : State) : (applyReset s).busy = false := rfl
@[simp] theorem applyReset_code (s : State) : (applyReset s).code = .ok := rfl
@[simp] theorem applyReset_z (s : State) : (applyReset s).z = false := rfl
@[simp] theorem applyReset_n (s : State) : (applyReset s).n = false := rfl
@[simp] theorem applyReset_cmp (s : State) : (applyReset s).cmp = .equal := rfl
@[simp] theorem applyReset_pending (s : State) : (applyReset s).pending = none := rfl
@[simp] theorem applyReset_faultMark (s : State) : (applyReset s).faultMark = s.faultMark := rfl
@[simp] theorem applyReset_draws (s : State) : (applyReset s).draws = s.draws := rfl
@[simp] theorem applyReset_schedule (s : State) : (applyReset s).schedule = s.schedule := rfl
@[simp] theorem applyReset_responses (s : State) : (applyReset s).responses = s.responses := rfl

/-! ## Registers and operands through the updates -/

theorem State.reg_setReg (s : State) (i j : RegIdx) (v : Value) :
    (s.setReg i v).reg j = if j = i then v else s.reg j := RegFile.get_set s.regs i j v

@[simp] theorem State.reg_setReg_same (s : State) (i : RegIdx) (v : Value) : (s.setReg i v).reg i = v :=
  RegFile.get_set_same s.regs i v

@[simp] theorem complete_reg (s : State) (c : StatusCode) (i : RegIdx) : (complete c s).reg i = s.reg i := rfl
@[simp] theorem raiseStatus_reg (s : State) (c : StatusCode) (i : RegIdx) : (raiseStatus c s).reg i = s.reg i := rfl
@[simp] theorem retire_reg (s : State) (i : RegIdx) : (retire s).reg i = s.reg i := rfl
@[simp] theorem respond_reg (s : State) (w : Word) (i : RegIdx) : (respond w s).reg i = s.reg i := rfl
@[simp] theorem countDraw_reg (s : State) (i : RegIdx) : (countDraw s).reg i = s.reg i := rfl
@[simp] theorem issueCommand_reg (s : State) (c : Command) (i : RegIdx) : (issueCommand s c).reg i = s.reg i := rfl
@[simp] theorem applyReset_reg (s : State) (i : RegIdx) : (applyReset s).reg i = 0 := RegFile.get_zero i

/-- Right after a CMD write the latched operands are the registers (10_state.md R23, R35). -/
@[simp] theorem issueCommand_operand (s : State) (c : Command) (i : RegIdx) : (issueCommand s c).operand i = s.reg i := rfl

@[simp] theorem issueCommand_latchedWord (s : State) (c : Command) : (issueCommand s c).latchedWord = c := rfl

/-- What a step takes off the schedule is no operand. -/
@[simp] theorem operand_schedule (s : State) (es : List Event) (i : RegIdx) :
    ({ s with schedule := es } : State).operand i = s.operand i := rfl

@[simp] theorem latchedWord_schedule (s : State) (es : List Event) :
    ({ s with schedule := es } : State).latchedWord = s.latchedWord := rfl

end Sys2Proof.Machine
end

