-- ==== Sys2Proof/Laws/Value.lean ====
section
/-! SUPPORT. The laws of the readings and parts of a value (00_scope.md R15, R16): bits of a word, a value as the sum of its
words, reading a word after a write, `enc`, `uval` and `sval`. -/

set_option exponentiation.threshold 600

namespace Sys2Proof.Machine

/-! ## Words as bits -/

theorem getLsbD_word (v : Value) (j : WordIdx) (k : Nat) :
    (word v j).getLsbD k = (decide (k < 64) && v.getLsbD (64 * j.val + k)) := by
  simp [word]

theorem getLsbD_setWord (v : Value) (j : WordIdx) (w : Word) (k : Nat) (hk : k < 512) :
    (setWord v j w).getLsbD k =
      if 64 * j.val ≤ k ∧ k < 64 * j.val + 64 then w.getLsbD (k - 64 * j.val) else v.getLsbD k := by
  simp only [setWord, BitVec.getLsbD_or, BitVec.getLsbD_and, BitVec.getLsbD_not, BitVec.getLsbD_shiftLeft,
    BitVec.getLsbD_setWidth, BitVec.getLsbD_allOnes, hk, decide_true, Bool.true_and]
  by_cases h1 : k < 64 * j.val
  · simp [h1, show ¬ 64 * j.val ≤ k by omega]
  · by_cases h2 : k - 64 * j.val < 64
    · have h3 : k - 64 * j.val < 512 := by omega
      simp [h1, h2, h3, show 64 * j.val ≤ k ∧ k < 64 * j.val + 64 by omega]
    · have h4 : ¬ (64 * j.val ≤ k ∧ k < 64 * j.val + 64) := by omega
      have h5 : w.getLsbD (k - 64 * j.val) = false := BitVec.getLsbD_of_ge _ _ (by omega)
      simp [h1, h2, h4, h5]

/-- R43: a write sets its word and leaves the others alone. -/
theorem word_setWord (v : Value) (i j : WordIdx) (w : Word) :
    word (setWord v i w) j = if j = i then w else word v j := by
  apply BitVec.eq_of_getLsbD_eq
  intro k hk
  have hj := j.isLt
  rw [getLsbD_word, getLsbD_setWord _ _ _ _ (by omega)]
  by_cases h : j = i
  · subst h
    simp [hk]
  · have hne : j.val ≠ i.val := fun e => h (Fin.ext e)
    have : ¬ (64 * i.val ≤ 64 * j.val + k ∧ 64 * j.val + k < 64 * i.val + 64) := by omega
    simp [h, this, getLsbD_word]

@[simp] theorem word_setWord_same (v : Value) (i : WordIdx) (w : Word) : word (setWord v i w) i = w := by
  simp [word_setWord]

theorem word_setWord_ne (v : Value) (i j : WordIdx) (w : Word) (h : j ≠ i) : word (setWord v i w) j = word v j := by
  simp [word_setWord, h]

/-- Two values with the same words are equal. -/
theorem Value_ext_word (u v : Value) (h : ∀ j, word u j = word v j) : u = v := by
  apply BitVec.eq_of_getLsbD_eq
  intro k hk
  have hj : k / 64 < 8 := by omega
  have hw := congrArg (fun x => x.getLsbD (k % 64)) (h ⟨k / 64, hj⟩)
  simp only [getLsbD_word, show k % 64 < 64 from Nat.mod_lt _ (by decide), decide_true, Bool.true_and,
    Nat.div_add_mod] at hw
  exact hw

@[simp] theorem setWord_word (v : Value) (i : WordIdx) : setWord v i (word v i) = v := by
  apply Value_ext_word
  intro j
  rw [word_setWord]
  split
  · subst j; rfl
  · rfl

/-! ## Words as numbers -/

theorem word_toNat (v : Value) (j : WordIdx) : (word v j).toNat = uval v / 2 ^ (64 * j.val) % 2 ^ 64 := by
  simp [word, uval, BitVec.extractLsb'_toNat, Nat.shiftRight_eq_div_pow]

theorem uval_lt (v : Value) : uval v < 2 ^ 512 := v.isLt

/-- R16: `uval(v)` is the sum of its words, word j at weight 2^(64*j). -/
theorem uval_eq_sum (v : Value) :
    uval v = (word v 0).toNat + (word v 1).toNat * 2 ^ 64 + (word v 2).toNat * 2 ^ 128 + (word v 3).toNat * 2 ^ 192
      + (word v 4).toNat * 2 ^ 256 + (word v 5).toNat * 2 ^ 320 + (word v 6).toNat * 2 ^ 384
      + (word v 7).toNat * 2 ^ 448 := by
  have h := uval_lt v
  simp only [word_toNat]
  generalize uval v = n at h
  norm_num
  omega

/-- A word write replaces one term of the sum. -/
theorem uval_setWord (v : Value) (i : WordIdx) (w : Word) :
    uval (setWord v i w) + (word v i).toNat * 2 ^ (64 * i.val) = uval v + w.toNat * 2 ^ (64 * i.val) := by
  rw [uval_eq_sum (setWord v i w), uval_eq_sum v]
  simp only [word_setWord]
  fin_cases i <;> simp <;> omega

/-- A word above everything stored is zero. -/
theorem word_eq_zero_of_lt (v : Value) (i : WordIdx) (h : uval v < 2 ^ (64 * i.val)) : word v i = 0 := by
  apply BitVec.eq_of_toNat_eq
  rw [word_toNat, Nat.div_eq_of_lt h]
  rfl

/-- Two values with the same unsigned reading are equal. -/
theorem uval_inj {u v : Value} (h : uval u = uval v) : u = v := BitVec.eq_of_toNat_eq h

/-! ## enc and the readings (R16) -/

/-- R16: `uval(enc(n)) = n mod 2^512`. -/
theorem uval_enc (n : Int) : (uval (enc n) : Int) = n % 2 ^ 512 := by
  simp only [uval, enc, BitVec.toNat_ofInt]
  have := Int.emod_nonneg n (show (2 : Int) ^ 512 ≠ 0 by norm_num)
  push_cast
  omega

theorem uval_enc_nat (n : Nat) : uval (enc n) = n % 2 ^ 512 := by
  have h := uval_enc n
  exact_mod_cast h

/-- `enc` of a number in range is read back. -/
theorem uval_enc_of_lt (n : Nat) (h : n < 2 ^ 512) : uval (enc n) = n := by
  rw [uval_enc_nat, Nat.mod_eq_of_lt h]

@[simp] theorem enc_uval (v : Value) : enc (uval v : Int) = v := uval_inj (uval_enc_of_lt _ (uval_lt v))

/-- A value is `enc n` as soon as its reading is n modulo 2^512. -/
theorem eq_enc_of_uval_nat (v : Value) (n : Nat) (h : uval v = n % 2 ^ 512) : v = enc n :=
  uval_inj (by rw [h, uval_enc_nat])

theorem eq_enc_of_uval (v : Value) (n : Int) (h : (uval v : Int) = n % 2 ^ 512) : v = enc n := by
  apply uval_inj
  have := uval_enc n
  omega

/-- `enc` sees its argument modulo 2^512. -/
theorem enc_eq_enc_iff (m n : Int) : enc m = enc n ↔ m % 2 ^ 512 = n % 2 ^ 512 := by
  constructor
  · intro h
    have h1 := uval_enc m
    have h2 := uval_enc n
    rw [h] at h1
    omega
  · intro h
    exact eq_enc_of_uval _ _ (by rw [uval_enc, h])

/-- The sign bit says in which half the unsigned reading lies. -/
theorem sign_eq_decide (v : Value) : sign v = decide (2 ^ 511 ≤ uval v) := by
  have h := BitVec.msb_eq_decide v
  have hm : v.msb = sign v := by simp [BitVec.msb, BitVec.getMsbD, sign]
  rw [← hm, h]
  rfl

theorem sign_true_iff (v : Value) : sign v = true ↔ 2 ^ 511 ≤ uval v := by simp [sign_eq_decide]

theorem sign_false_iff (v : Value) : sign v = false ↔ uval v < 2 ^ 511 := by simp [sign_eq_decide]

theorem sval_of_sign_true (v : Value) (h : sign v = true) : sval v = (uval v : Int) - 2 ^ 512 := by simp [sval, h]

theorem sval_of_sign_false (v : Value) (h : sign v = false) : sval v = (uval v : Int) := by simp [sval, h]

theorem sval_cases (v : Value) :
    (sign v = false ∧ uval v < 2 ^ 511 ∧ sval v = (uval v : Int)) ∨
    (sign v = true ∧ 2 ^ 511 ≤ uval v ∧ sval v = (uval v : Int) - 2 ^ 512) := by
  cases h : sign v
  · exact .inl ⟨rfl, (sign_false_iff v).1 h, sval_of_sign_false v h⟩
  · exact .inr ⟨rfl, (sign_true_iff v).1 h, sval_of_sign_true v h⟩

/-- R12: the signed range. -/
theorem sval_range (v : Value) : signedMin ≤ sval v ∧ sval v ≤ signedMax := by
  have h := uval_lt v
  have := sval_cases v
  simp only [signedMin, signedMax]
  omega

theorem sval_eq_toInt (v : Value) : sval v = v.toInt := by
  have h := sval_cases v
  rw [BitVec.toInt_eq_toNat_cond]
  have hu : uval v = v.toNat := rfl
  rw [hu] at h
  split <;> omega

@[simp] theorem enc_sval (v : Value) : enc (sval v) = v := by
  rw [sval_eq_toInt]
  exact BitVec.ofInt_toInt

/-- `enc` of a number of the signed range is read back. -/
theorem sval_enc_of_range (n : Int) (h1 : signedMin ≤ n) (h2 : n ≤ signedMax) : sval (enc n) = n := by
  have h := uval_enc n
  have := sval_cases (enc n)
  have := uval_lt (enc n)
  simp only [signedMin, signedMax] at h1 h2
  omega

/-- The two readings agree modulo 2^512 (R16). -/
theorem sval_emod (v : Value) : sval v % 2 ^ 512 = (uval v : Int) := by
  have h := uval_lt v
  have := sval_cases v
  omega

theorem sval_inj {u v : Value} (h : sval u = sval v) : u = v := by
  rw [← enc_sval u, h, enc_sval]

end Sys2Proof.Machine
end

