-- ==== Sys2Proof/Laws/Datapath.lean ====
section
/-! SUPPORT. What each round of a datapath does to the numbers, and the closed forms of the carry chain (40_unsigned.md R100),
the borrow chain (R102), one row of the schoolbook multiply (R104), one round of the long division (R106) and the sign
helpers (41_signed.md R120). -/

set_option exponentiation.threshold 600

namespace Sys2Proof.Machine

/-! ## The carry chain (R100) -/

theorem bit_toNat_lt (c : BitVec 1) : c.toNat < 2 := c.isLt

/-- The number kept by a round: a stored word `lo` and a carry `hi` out of a running sum `n` at weight W. -/
theorem place_word (u lo hi n W B : Nat) (hn : lo + hi * B = n) (hu : u < W) (hlo : lo < B) :
    u + lo * W + hi * B * W = u + n * W ∧ u + lo * W < B * W := by
  constructor
  · rw [← hn]; ring
  · calc u + lo * W < W + lo * W := by omega
      _ = (lo + 1) * W := by ring
      _ ≤ B * W := Nat.mul_le_mul_right _ hlo

/-- Storing a word where nothing is stored yet. -/
theorem uval_setWord_above (v : Value) (i : WordIdx) (w : Word) (h : uval v < 2 ^ (64 * i.val)) :
    uval (setWord v i w) = uval v + w.toNat * 2 ^ (64 * i.val) := by
  have hs := uval_setWord v i w
  rw [word_eq_zero_of_lt v i h] at hs
  simpa using hs

/-- One round: the stored word and the carry out together are the sum at position i. -/
theorem addWordStep_spec (a b : Value) (acc : Value × BitVec 1) (i : WordIdx) (h : uval acc.1 < 2 ^ (64 * i.val)) :
    uval (addWordStep a b acc i).1 + (addWordStep a b acc i).2.toNat * 2 ^ 64 * 2 ^ (64 * i.val)
        = uval acc.1 + ((word a i).toNat + (word b i).toNat + acc.2.toNat) * 2 ^ (64 * i.val)
      ∧ uval (addWordStep a b acc i).1 < 2 ^ 64 * 2 ^ (64 * i.val) := by
  have ha := (word a i).isLt
  have hb := (word b i).isLt
  have hc := bit_toNat_lt acc.2
  simp only [addWordStep]
  rw [uval_setWord_above _ _ _ h]
  apply place_word _ _ _ _ _ _ _ h (BitVec.isLt _)
  simp only [BitVec.extractLsb'_toNat, BitVec.toNat_add, BitVec.toNat_setWidth, Nat.shiftRight_eq_div_pow]
  omega

/-- The part of a value below word i+1 is the part below word i and word i. -/
theorem uval_mod_succ (v : Value) (i : WordIdx) :
    uval v % (2 ^ 64 * 2 ^ (64 * i.val)) = uval v % 2 ^ (64 * i.val) + (word v i).toNat * 2 ^ (64 * i.val) := by
  rw [word_toNat, Nat.mul_comm (2 ^ 64), Nat.mod_mul, Nat.mul_comm (2 ^ (64 * i.val))]

theorem pow_word_succ (k : Nat) : 2 ^ (64 * (k + 1)) = 2 ^ 64 * 2 ^ (64 * k) := by
  rw [← pow_add]; congr 1; omega

/-- The carry chain's invariant before word k. -/
structure AddInv (a b : Value) (cin : BitVec 1) (k : Nat) (acc : Value × BitVec 1) : Prop where
  low : uval acc.1 < 2 ^ (64 * k)
  total : uval acc.1 + acc.2.toNat * 2 ^ (64 * k) = uval a % 2 ^ (64 * k) + uval b % 2 ^ (64 * k) + cin.toNat

theorem AddInv.step {a b : Value} {cin : BitVec 1} {acc : Value × BitVec 1} (i : WordIdx)
    (h : AddInv a b cin i.val acc) : AddInv a b cin (i.val + 1) (addWordStep a b acc i) := by
  have hs := addWordStep_spec a b acc i h.low
  constructor
  · rw [pow_word_succ]; exact hs.2
  · have ht := h.total
    rw [pow_word_succ, uval_mod_succ, uval_mod_succ, ← mul_assoc, hs.1]
    linarith

/-- R100, closed form: the sum and the carry out are `uval(a) + uval(b) + cin` split at 2^512. -/
theorem addWords_spec (a b : Value) (cin : BitVec 1) :
    uval (addWords a b cin).1 + (addWords a b cin).2.toNat * 2 ^ 512 = uval a + uval b + cin.toNat := by
  have h0 : AddInv a b cin 0 (0, cin) := ⟨Nat.one_pos, by simp [uval, Nat.mod_one]⟩
  have h8 : AddInv a b cin 8 (addWords a b cin) :=
    ((((((((h0.step 0).step 1).step 2).step 3).step 4).step 5).step 6).step 7)
  have := h8.total
  rwa [Nat.mod_eq_of_lt (uval_lt a), Nat.mod_eq_of_lt (uval_lt b)] at this

/-- R100: the sum modulo 2^512. -/
theorem addWords_fst (a b : Value) (cin : BitVec 1) :
    (addWords a b cin).1 = enc ((uval a + uval b + cin.toNat : Nat) : Int) := by
  apply eq_enc_of_uval_nat
  have h := addWords_spec a b cin
  have hl := uval_lt (addWords a b cin).1
  omega

/-- R100: `cout = 1` iff `uval(a) + uval(b) + cin >= 2^512`. -/
theorem addWords_snd (a b : Value) (cin : BitVec 1) :
    (addWords a b cin).2 = 1 ↔ 2 ^ 512 ≤ uval a + uval b + cin.toNat := by
  have h := addWords_spec a b cin
  have hl := uval_lt (addWords a b cin).1
  have hc := bit_toNat_lt (addWords a b cin).2
  rw [← BitVec.toNat_inj, show (1 : BitVec 1).toNat = 1 from rfl]
  omega

/-! ## The borrow chain (R102) -/

/-- One round: the stored word and the borrow out make up the difference at position i. -/
theorem subWordStep_spec (a b : Value) (acc : Value × BitVec 1) (i : WordIdx) (h : uval acc.1 < 2 ^ (64 * i.val)) :
    uval (subWordStep a b acc i).1 + ((word b i).toNat + acc.2.toNat) * 2 ^ (64 * i.val)
        = uval acc.1 + ((word a i).toNat + (subWordStep a b acc i).2.toNat * 2 ^ 64) * 2 ^ (64 * i.val)
      ∧ uval (subWordStep a b acc i).1 < 2 ^ 64 * 2 ^ (64 * i.val) := by
  have ha := (word a i).isLt
  have hb := (word b i).isLt
  have hc := bit_toNat_lt acc.2
  simp only [subWordStep]
  rw [uval_setWord_above _ _ _ h]
  have hlo := (BitVec.extractLsb' 0 64 ((word a i).setWidth 65 - (word b i).setWidth 65 - acc.2.setWidth 65)).isLt
  have hd : (BitVec.extractLsb' 0 64 ((word a i).setWidth 65 - (word b i).setWidth 65 - acc.2.setWidth 65)).toNat
      + ((word b i).toNat + acc.2.toNat) = (word a i).toNat
        + (BitVec.extractLsb' 64 1 ((word a i).setWidth 65 - (word b i).setWidth 65 - acc.2.setWidth 65)).toNat * 2 ^ 64 := by
    simp only [BitVec.extractLsb'_toNat, BitVec.toNat_sub, BitVec.toNat_setWidth, Nat.shiftRight_eq_div_pow]
    omega
  constructor
  · rw [add_assoc, ← Nat.add_mul, hd]
  · exact (place_word _ _ 0 _ _ _ rfl h hlo).2

/-- The borrow chain's invariant before word k. -/
structure SubInv (a b : Value) (bin : BitVec 1) (k : Nat) (acc : Value × BitVec 1) : Prop where
  low : uval acc.1 < 2 ^ (64 * k)
  total : uval acc.1 + uval b % 2 ^ (64 * k) + bin.toNat = uval a % 2 ^ (64 * k) + acc.2.toNat * 2 ^ (64 * k)

theorem SubInv.step {a b : Value} {bin : BitVec 1} {acc : Value × BitVec 1} (i : WordIdx)
    (h : SubInv a b bin i.val acc) : SubInv a b bin (i.val + 1) (subWordStep a b acc i) := by
  have hs := subWordStep_spec a b acc i h.low
  constructor
  · rw [pow_word_succ]; exact hs.2
  · have ht := h.total
    have h1 := hs.1
    rw [pow_word_succ, uval_mod_succ, uval_mod_succ]
    linarith

/-- R102, closed form: the difference and the borrow out are `uval(a) - uval(b) - bin` split at 2^512. -/
theorem subWords_spec (a b : Value) (bin : BitVec 1) :
    uval (subWords a b bin).1 + uval b + bin.toNat = uval a + (subWords a b bin).2.toNat * 2 ^ 512 := by
  have h0 : SubInv a b bin 0 (0, bin) := ⟨Nat.one_pos, by simp [uval, Nat.mod_one]⟩
  have h8 : SubInv a b bin 8 (subWords a b bin) :=
    ((((((((h0.step 0).step 1).step 2).step 3).step 4).step 5).step 6).step 7)
  have := h8.total
  rwa [Nat.mod_eq_of_lt (uval_lt a), Nat.mod_eq_of_lt (uval_lt b)] at this

/-- R102: the difference modulo 2^512. -/
theorem subWords_fst (a b : Value) (bin : BitVec 1) :
    (subWords a b bin).1 = enc ((uval a : Int) - uval b - bin.toNat) := by
  apply eq_enc_of_uval
  have h := subWords_spec a b bin
  have hl := uval_lt (subWords a b bin).1
  omega

/-- R102: `bout = 1` iff `uval(a) < uval(b) + bin`. -/
theorem subWords_snd (a b : Value) (bin : BitVec 1) : (subWords a b bin).2 = 1 ↔ uval a < uval b + bin.toNat := by
  have h := subWords_spec a b bin
  have hl := uval_lt (subWords a b bin).1
  have hla := uval_lt a
  have hc := bit_toNat_lt (subWords a b bin).2
  rw [← BitVec.toNat_inj, show (1 : BitVec 1).toNat = 1 from rfl]
  omega

/-! ## Sign helpers (41_signed.md R120) -/

/-- R120: `neg(v) = enc(2^512 - uval(v))`. -/
theorem uval_neg (v : Value) : uval (neg v) = (2 ^ 512 - uval v) % 2 ^ 512 := by
  have h := addWords_spec (~~~v) 0 1
  have hn : uval (~~~v) = 2 ^ 512 - 1 - uval v := BitVec.toNat_not
  have hl := uval_lt v
  have hr := uval_lt (addWords (~~~v) 0 1).1
  simp only [neg]
  simp only [hn, show uval (0 : Value) = 0 from rfl, show (1 : BitVec 1).toNat = 1 from rfl] at h
  omega

/-- R121: `neg(v) = enc(-sval(v))`, also for SMIN. -/
theorem neg_eq_enc (v : Value) : neg v = enc (-(sval v)) := by
  apply eq_enc_of_uval
  have h := uval_neg v
  have hl := uval_lt v
  have := sval_cases v
  omega

/-- R120: `uval(mag(v)) = |sval(v)|` for every v, SMIN included. -/
theorem uval_mag (v : Value) : uval (mag v) = (sval v).natAbs := by
  have h := uval_neg v
  have hl := uval_lt v
  rcases sval_cases v with ⟨hs, hu, hv⟩ | ⟨hs, hu, hv⟩
  · rw [hv]; simp [mag, hs]
  · rw [hv]
    simp only [mag, hs, if_true]
    omega

/-! ## One row of the schoolbook multiply (R104) -/

/-- An inner round within the eight words: what the stored words and the carry gain. -/
theorem mulWordStep_low (a b : Value) (i j : WordIdx) (acc : MulAcc) (h : i.val + j.val ≤ 7) :
    uval (mulWordStep a b i acc j).sums + (mulWordStep a b i acc j).carry.toNat * 2 ^ (64 * (i.val + j.val + 1))
        = uval acc.sums + ((word a j).toNat * (word b i).toNat + acc.carry.toNat) * 2 ^ (64 * (i.val + j.val))
      ∧ (mulWordStep a b i acc j).ovf = acc.ovf := by
  have hn : ¬ i.val + j.val > 7 := by omega
  simp only [mulWordStep, hn, dite_false, and_true]
  generalize hp : (⟨i.val + j.val, by omega⟩ : WordIdx) = p
  have hpv : p.val = i.val + j.val := by rw [← hp]
  have hs := uval_setWord acc.sums p (((word a j).setWidth 128 * (word b i).setWidth 128
    + (word acc.sums p).setWidth 128 + acc.carry.setWidth 128).extractLsb' 0 64)
  rw [← hpv, pow_word_succ]
  have hx := (word a j).isLt
  have hy := (word b i).isLt
  have ho := (word acc.sums p).isLt
  have hc := acc.carry.isLt
  have hxy : (word a j).toNat * (word b i).toNat ≤ (2 ^ 64 - 1) * (2 ^ 64 - 1) := Nat.mul_le_mul (by omega) (by omega)
  simp only [BitVec.extractLsb'_toNat, BitVec.toNat_add, BitVec.toNat_mul, BitVec.toNat_setWidth,
    Nat.shiftRight_eq_div_pow] at hs ⊢
  rw [Nat.mod_eq_of_lt (show (word a j).toNat < 2 ^ 128 by omega),
    Nat.mod_eq_of_lt (show (word b i).toNat < 2 ^ 128 by omega)] at hs ⊢
  generalize (word a j).toNat * (word b i).toNat = xy at *
  generalize (word acc.sums p).toNat = old at *
  generalize acc.carry.toNat = c at *
  have hsplit : ((xy % 2 ^ 128 + old % 2 ^ 128) % 2 ^ 128 + c % 2 ^ 128) % 2 ^ 128 = xy + old + c := by omega
  rw [hsplit] at hs ⊢
  have hlh : (xy + old + c) / 2 ^ 0 % 2 ^ 64 + (xy + old + c) / 2 ^ 64 % 2 ^ 64 * 2 ^ 64 = xy + old + c := by omega
  generalize (xy + old + c) / 2 ^ 0 % 2 ^ 64 = lo at *
  generalize (xy + old + c) / 2 ^ 64 % 2 ^ 64 = hi at *
  have hW : (lo + hi * 2 ^ 64) * 2 ^ (64 * p.val) = (xy + old + c) * 2 ^ (64 * p.val) := by rw [hlh]
  linarith

/-- An inner round beyond word 7: nothing is stored, a nonzero word is flagged. -/
theorem mulWordStep_high (a b : Value) (i j : WordIdx) (acc : MulAcc) (h : 7 < i.val + j.val) :
    mulWordStep a b i acc j = { acc with ovf := acc.ovf || decide (word a j ≠ 0) } := by
  simp only [mulWordStep, gt_iff_lt, h, dite_true]
  by_cases h0 : word a j = 0
  · rw [if_neg (not_not.2 h0)]; simp [h0]
  · rw [if_pos h0]; simp only [h0, ne_eq, not_false_eq_true, decide_true, Bool.or_true]

/-- The inner loop's invariant before word k of a, in row i started from the sums `p` and the flag `o`. -/
structure MulInv (a b p : Value) (o : Bool) (i : WordIdx) (k : Nat) (acc : MulAcc) : Prop where
  total : uval acc.sums + acc.carry.toNat * 2 ^ (64 * (i.val + min k (8 - i.val)))
      = uval p + uval a % 2 ^ (64 * min k (8 - i.val)) * (word b i).toNat * 2 ^ (64 * i.val)
  flag : acc.ovf = (o || decide (2 ^ (64 * (8 - i.val)) ≤ uval a % 2 ^ (64 * k)))

theorem MulInv.step {a b p : Value} {o : Bool} {i : WordIdx} {acc : MulAcc} (j : WordIdx)
    (h : MulInv a b p o i j.val acc) : MulInv a b p o i (j.val + 1) (mulWordStep a b i acc j) := by
  have hi := i.isLt
  by_cases hj : i.val + j.val ≤ 7
  · have hs := mulWordStep_low a b i j acc hj
    have hm : min j.val (8 - i.val) = j.val := by omega
    have hm' : min (j.val + 1) (8 - i.val) = j.val + 1 := by omega
    constructor
    · have ht := h.total
      rw [hm] at ht
      rw [hm', ← add_assoc, hs.1, pow_word_succ j.val, uval_mod_succ]
      have e : 2 ^ (64 * (i.val + j.val)) = 2 ^ (64 * j.val) * 2 ^ (64 * i.val) := by rw [← pow_add]; congr 1; omega
      rw [e] at ht ⊢
      linarith
    · rw [hs.2, h.flag]
      have l1 : uval a % 2 ^ (64 * j.val) < 2 ^ (64 * (8 - i.val)) :=
        lt_of_lt_of_le (Nat.mod_lt _ (by positivity)) (Nat.pow_le_pow_right (by norm_num) (by omega))
      have l2 : uval a % 2 ^ (64 * (j.val + 1)) < 2 ^ (64 * (8 - i.val)) :=
        lt_of_lt_of_le (Nat.mod_lt _ (by positivity)) (Nat.pow_le_pow_right (by norm_num) (by omega))
      simp [Nat.not_le.2 l1, Nat.not_le.2 l2]
  · rw [mulWordStep_high a b i j acc (by omega)]
    have hm : min j.val (8 - i.val) = 8 - i.val := by omega
    have hm' : min (j.val + 1) (8 - i.val) = 8 - i.val := by omega
    constructor
    · have ht := h.total
      rw [hm] at ht
      simpa [hm'] using ht
    · show (acc.ovf || _) = _
      rw [h.flag, pow_word_succ, uval_mod_succ, Bool.or_assoc]
      congr 1
      have hle : 2 ^ (64 * (8 - i.val)) ≤ 2 ^ (64 * j.val) := Nat.pow_le_pow_right (by norm_num) (by omega)
      by_cases h0 : word a j = 0
      · simp [h0]
      · have hpos : 1 ≤ (word a j).toNat := by
          rcases Nat.eq_zero_or_pos (word a j).toNat with e | e
          · exact absurd (BitVec.eq_of_toNat_eq e) h0
          · exact e
        have : 2 ^ (64 * j.val) ≤ (word a j).toNat * 2 ^ (64 * j.val) := Nat.le_mul_of_pos_left _ hpos
        simp only [h0, ne_eq, not_false_eq_true, decide_true, Bool.or_true]
        rw [eq_comm, decide_eq_true_eq]
        omega

/-- R104, one row: what does not fit in the eight words is exactly what is flagged. -/
theorem mulRow_spec (a b : Value) (acc : Value × Bool) (i : WordIdx) :
    ∃ spill : Nat,
      uval (mulRow a b acc i).1 + spill * 2 ^ 512 = uval acc.1 + uval a * (word b i).toNat * 2 ^ (64 * i.val)
      ∧ (mulRow a b acc i).2 = (acc.2 || decide (spill ≠ 0)) := by
  by_cases hb : word b i = 0
  · exact ⟨0, by simp [mulRow, hb], by simp [mulRow, hb]⟩
  have h0 : MulInv a b acc.1 acc.2 i 0 { sums := acc.1, carry := 0, ovf := acc.2 } :=
    ⟨by simp [Nat.mod_one], by simp [Nat.mod_one]⟩
  have h8 : MulInv a b acc.1 acc.2 i 8
      (wordIndices.foldl (mulWordStep a b i) { sums := acc.1, carry := 0, ovf := acc.2 }) :=
    ((((((((h0.step 0).step 1).step 2).step 3).step 4).step 5).step 6).step 7)
  simp only [mulRow, hb, if_false]
  generalize wordIndices.foldl (mulWordStep a b i) { sums := acc.1, carry := 0, ovf := acc.2 } = r at *
  have hi := i.isLt
  have ht := h8.total
  have hf := h8.flag
  rw [show min 8 (8 - i.val) = 8 - i.val by omega, show i.val + (8 - i.val) = 8 by omega] at ht
  rw [Nat.mod_eq_of_lt (uval_lt a)] at hf
  refine ⟨r.carry.toNat + uval a / 2 ^ (64 * (8 - i.val)) * (word b i).toNat, ?_, ?_⟩
  · have hd := Nat.div_add_mod (uval a) (2 ^ (64 * (8 - i.val)))
    have e : 2 ^ 512 = 2 ^ (64 * (8 - i.val)) * 2 ^ (64 * i.val) := by rw [← pow_add]; congr 1; omega
    have e8 : 2 ^ (64 * 8) = 2 ^ 512 := rfl
    rw [e8] at ht
    calc uval r.sums + (r.carry.toNat + uval a / 2 ^ (64 * (8 - i.val)) * (word b i).toNat) * 2 ^ 512
        = (uval r.sums + r.carry.toNat * 2 ^ 512)
            + uval a / 2 ^ (64 * (8 - i.val)) * (word b i).toNat * 2 ^ 512 := by ring
      _ = uval acc.1 + (2 ^ (64 * (8 - i.val)) * (uval a / 2 ^ (64 * (8 - i.val)))
            + uval a % 2 ^ (64 * (8 - i.val))) * (word b i).toNat * 2 ^ (64 * i.val) := by rw [ht, e]; ring
      _ = _ := by rw [hd]
  · rw [hf]
    have hbp : (word b i).toNat ≠ 0 := fun e => hb (BitVec.eq_of_toNat_eq e)
    have hc : (r.carry != 0) = decide (r.carry.toNat ≠ 0) := by
      by_cases h : r.carry = 0
      · simp [h]
      · have : r.carry.toNat ≠ 0 := fun e => h (BitVec.eq_of_toNat_eq e)
        rw [decide_eq_true this]; exact bne_iff_ne.2 h
    rw [hc, Bool.or_assoc]
    congr 1
    have hdiv : uval a / 2 ^ (64 * (8 - i.val)) = 0 ↔ uval a < 2 ^ (64 * (8 - i.val)) :=
      Nat.div_eq_zero_iff_lt (by positivity)
    by_cases h1 : uval a < 2 ^ (64 * (8 - i.val))
    · have := hdiv.2 h1
      simp [this, Nat.not_le.2 h1]
    · have h2 : uval a / 2 ^ (64 * (8 - i.val)) ≠ 0 := fun e => h1 (hdiv.1 e)
      have h3 : uval a / 2 ^ (64 * (8 - i.val)) * (word b i).toNat ≠ 0 := Nat.mul_ne_zero h2 hbp
      simp [Nat.not_lt.1 h1]
      omega

/-! ## One round of the long division (R106) -/

/-- Setting a bit of a quotient whose lower bits are still clear adds its weight. -/
theorem uval_or_bit (q : Value) (k : Nat) (hk : k < 512) (h : uval q % 2 ^ (k + 1) = 0) :
    uval (q ||| ((1 : Value) <<< k)) = uval q + 2 ^ k := by
  have h1 : q &&& ((1 : Value) <<< k) = 0 := by
    apply BitVec.eq_of_getLsbD_eq
    intro n hn
    have hq : q.getLsbD k = false := by
      have : uval q / 2 ^ k % 2 = 0 := by
        have h2 : uval q % (2 ^ k * 2) = 0 := by rw [← pow_succ]; exact h
        rw [Nat.mod_mul] at h2
        have h3 := Nat.pow_pos (n := k) (show 0 < 2 by norm_num)
        by_contra hc
        have : 0 < 2 ^ k * (uval q / 2 ^ k % 2) := Nat.mul_pos h3 (Nat.pos_of_ne_zero hc)
        omega
      simp only [BitVec.getLsbD, Nat.testBit, Nat.shiftRight_eq_div_pow, Nat.one_and_eq_mod_two]
      simp only [uval] at this
      simp [this]
    by_cases e : n = k
    · subst e; simp [hq]
    · by_cases hlt : n < k
      · simp [hlt]
      · have : ¬ n - k = 0 := by omega
        simp [hlt, BitVec.getLsbD_one, this]
  rw [← BitVec.add_eq_or_of_and_eq_zero _ _ h1]
  have h2 : uval q + 2 ^ k < 2 ^ 512 := by
    have hq := uval_lt q
    obtain ⟨m, hm⟩ := Nat.dvd_of_mod_eq_zero h
    have e : (2:Nat) ^ 512 = 2 ^ (k + 1) * 2 ^ (511 - k) := by rw [← pow_add]; congr 1; omega
    have hml : m < 2 ^ (511 - k) := by
      by_contra hc
      have := Nat.mul_le_mul_left (2 ^ (k+1)) (Nat.not_lt.1 hc)
      omega
    have : 2 ^ (k+1) * (m + 1) ≤ 2 ^ (k + 1) * 2 ^ (511 - k) := Nat.mul_le_mul_left _ hml
    have e2 : 2 ^ (k+1) * (m+1) = 2 ^ (k+1) * m + 2 * 2 ^ k := by ring
    have := Nat.pow_pos (n := k) (show 0 < 2 by norm_num)
    omega
  have hk2 : (2:Nat) ^ k < 2 ^ 512 := Nat.pow_lt_pow_right (by norm_num) hk
  simp only [uval, BitVec.toNat_add, BitVec.toNat_shiftLeft, Nat.shiftLeft_eq] at *
  rw [show BitVec.toNat (1 : Value) = 1 from rfl, one_mul, Nat.mod_eq_of_lt hk2, Nat.mod_eq_of_lt h2]

/-- A bit of a value as a number. -/
theorem toNat_getLsbD (a : Value) (k : Nat) : (a.getLsbD k).toNat = uval a / 2 ^ k % 2 := by
  simp only [BitVec.getLsbD, Nat.testBit, Nat.shiftRight_eq_div_pow, Nat.one_and_eq_mod_two, uval]
  rcases Nat.mod_two_eq_zero_or_one (a.toNat / 2 ^ k) with h | h <;> simp [h]


/-- R106 at bit k, on a partial remainder that leaves room for the shift: subtract the divisor iff it fits. -/
theorem divStep_spec (a b : Value) (k : Nat) (acc : Value × Value) (h : uval acc.2 < 2 ^ 511) :
    divStep a b k acc =
      if uval b ≤ 2 * uval acc.2 + (a.getLsbD k).toNat then
        (acc.1 ||| ((1 : Value) <<< k), enc ((2 * uval acc.2 + (a.getLsbD k).toNat : Nat) - (uval b : Int)))
      else (acc.1, enc ((2 * uval acc.2 + (a.getLsbD k).toNat : Nat) : Int)) := by
  have hr : uval ((acc.2 <<< 1) ||| (if a.getLsbD k then 1 else 0) : Value)
      = 2 * uval acc.2 + (a.getLsbD k).toNat := by
    have h1 : (acc.2 <<< 1) &&& (if a.getLsbD k then 1 else 0 : Value) = 0 := by
      apply BitVec.eq_of_getLsbD_eq
      intro n hn
      cases a.getLsbD k <;> cases n <;> simp
    have h2 : ((acc.2 <<< 1) ||| (if a.getLsbD k then 1 else 0) : Value)
        = (acc.2 <<< 1) + (if a.getLsbD k then 1 else 0) := (BitVec.add_eq_or_of_and_eq_zero _ _ h1).symm
    rw [h2]
    have h3 : uval acc.2 = acc.2.toNat := rfl
    cases a.getLsbD k <;> simp [uval, BitVec.toNat_add, BitVec.toNat_shiftLeft, Nat.shiftLeft_eq] <;> omega
  have he : ((acc.2 <<< 1) ||| (if a.getLsbD k then 1 else 0) : Value)
      = enc ((2 * uval acc.2 + (a.getLsbD k).toNat : Nat) : Int) :=
    uval_inj (by rw [hr, uval_enc_of_lt]; have := Bool.toNat_lt (a.getLsbD k); omega)
  simp only [divStep, hr]
  split
  · rw [subWords_fst, hr]; simp
  · rw [he]

end Sys2Proof.Machine
end

