-- ==== Sys2Proof/Laws/Exec.lean ====
section
/-! SUPPORT. What every command does, whatever it computes: it answers a next state and leaves everything alone that is not a
value register, a flag or CODE. -/

namespace Sys2Proof.Machine

/-- What no command's rule writes: CMD, BUSY, the pending command, and what is not the block's. CODE becomes a code of the
block. -/
structure KeepsControl (s t : State) : Prop where
  cmd : t.cmd = s.cmd
  busy : t.busy = s.busy
  pending : t.pending = s.pending
  faultMark : t.faultMark = s.faultMark
  draws : t.draws = s.draws
  schedule : t.schedule = s.schedule
  responses : t.responses = s.responses
  code : t.code.ofBlock = true

theorem overflowIf_ofBlock (c : Bool) : (overflowIf c).ofBlock = true := by cases c <;> rfl

theorem underflowIf_ofBlock (c : Bool) : (underflowIf c).ofBlock = true := by cases c <;> rfl

theorem addSignedStatus_ofBlock (a b s : Value) : (addSignedStatus a b s).ofBlock = true := by
  simp only [addSignedStatus]; split <;> (try split) <;> rfl

theorem subSignedStatus_ofBlock (a b d : Value) : (subSignedStatus a b d).ofBlock = true := by
  simp only [subSignedStatus]; split <;> (try split) <;> rfl

/-- A command that writes one register answers the state with that register and CODE written. -/
theorem finishOne_next (rd : RegIdx) (v : Value) (c : StatusCode) (s : State) :
    finishOne rd v c s = .next (complete c (s.setReg rd v)) := rfl

theorem finishOne_keeps (rd : RegIdx) (v : Value) (c : StatusCode) (s : State) (hc : c.ofBlock = true) :
    ∃ t, finishOne rd v c s = .next t ∧ KeepsControl s t :=
  ⟨_, rfl, rfl, rfl, rfl, rfl, rfl, rfl, rfl, hc⟩

/-- The three ways a divide ends. -/
theorem finishDivide_cases (rd rd2 : RegIdx) (b q r : Value) (c : StatusCode) (s : State) :
    (rd = rd2 ∧ finishDivide rd rd2 b q r c s = .next (raiseStatus .illegalCommand s)) ∨
    (rd ≠ rd2 ∧ uval b = 0 ∧ finishDivide rd rd2 b q r c s = .next (raiseStatus .divByZero s)) ∨
    (rd ≠ rd2 ∧ uval b ≠ 0 ∧ finishDivide rd rd2 b q r c s = .next (complete c ((s.setReg rd q).setReg rd2 r))) := by
  by_cases h : rd = rd2
  · exact .inl ⟨h, by simp [finishDivide, h]⟩
  · by_cases hb : uval b = 0
    · exact .inr (.inl ⟨h, hb, by simp [finishDivide, h, hb]⟩)
    · exact .inr (.inr ⟨h, hb, by simp [finishDivide, h, hb]⟩)

theorem finishDivide_keeps (rd rd2 : RegIdx) (b q r : Value) (c : StatusCode) (s : State) (hc : c.ofBlock = true) :
    ∃ t, finishDivide rd rd2 b q r c s = .next t ∧ KeepsControl s t := by
  rcases finishDivide_cases rd rd2 b q r c s with ⟨_, h⟩ | ⟨_, _, h⟩ | ⟨_, _, h⟩
  · exact ⟨_, h, rfl, rfl, rfl, rfl, rfl, rfl, rfl, rfl⟩
  · exact ⟨_, h, rfl, rfl, rfl, rfl, rfl, rfl, rfl, rfl⟩
  · exact ⟨_, h, rfl, rfl, rfl, rfl, rfl, rfl, rfl, hc⟩

/-- Every command completes: `exec` always answers a next state, and never touches the control state. -/
theorem exec_next (i : Instr) (s : State) : ∃ t, exec i s = .next t ∧ KeepsControl s t := by
  cases i with
  | addu rd rs1 rs2 => exact finishOne_keeps _ _ _ s (overflowIf_ofBlock _)
  | subu rd rs1 rs2 => exact finishOne_keeps _ _ _ s (underflowIf_ofBlock _)
  | mulu rd rs1 rs2 => exact finishOne_keeps _ _ _ s (overflowIf_ofBlock _)
  | divu rd rd2 rs1 rs2 => exact finishDivide_keeps _ _ _ _ _ _ s rfl
  | cmpu rs1 rs2 => exact ⟨_, rfl, rfl, rfl, rfl, rfl, rfl, rfl, rfl, rfl⟩
  | tstz rs1 => exact ⟨_, rfl, rfl, rfl, rfl, rfl, rfl, rfl, rfl, rfl⟩
  | adds rd rs1 rs2 => exact finishOne_keeps _ _ _ s (addSignedStatus_ofBlock _ _ _)
  | subs rd rs1 rs2 => exact finishOne_keeps _ _ _ s (subSignedStatus_ofBlock _ _ _)
  | muls rd rs1 rs2 => exact finishOne_keeps _ _ _ s (overflowIf_ofBlock _)
  | divs rd rd2 rs1 rs2 => exact finishDivide_keeps _ _ _ _ _ _ s (overflowIf_ofBlock _)
  | cmps rs1 rs2 => exact ⟨_, rfl, rfl, rfl, rfl, rfl, rfl, rfl, rfl, rfl⟩
  | tstn rs1 => exact ⟨_, rfl, rfl, rfl, rfl, rfl, rfl, rfl, rfl, rfl⟩
  | neg rd rs1 => exact finishOne_keeps _ _ _ s rfl
  | ldc rd k => exact finishOne_keeps _ _ _ s rfl
  | mov rd rs1 => exact finishOne_keeps _ _ _ s rfl

/-- What a next state of `exec` keeps. -/
theorem exec_keeps {i : Instr} {s t : State} (h : exec i s = .next t) : KeepsControl s t := by
  obtain ⟨u, hu, hk⟩ := exec_next i s
  rw [hu] at h
  cases h
  exact hk

/-- Running a decoded word always answers a next state too. -/
theorem runDecoded_next (d : Decoded) (s : State) : ∃ t, runDecoded d s = .next t ∧ KeepsControl s t := by
  cases d with
  | illegal why => exact ⟨_, rfl, rfl, rfl, rfl, rfl, rfl, rfl, rfl, rfl⟩
  | legal i => exact exec_next i s

/-- The completion step always answers a next state: the command's, with BUSY cleared. -/
theorem completePending_next (s : State) :
    ∃ u, runDecoded (decode s.latchedWord) s = .next u ∧ KeepsControl s u ∧ completePending s = .next (retire u) := by
  obtain ⟨u, hu, hk⟩ := runDecoded_next (decode s.latchedWord) s
  exact ⟨u, hu, hk, by simp [completePending, hu, retireOutcome]⟩

end Sys2Proof.Machine
end

