-- ==== Sys2Proof/Laws/PerInstr.lean ====
section
/-! SUPPORT. The per-instruction family `EncodeMatches`: the word of every command, with every operand, matches its row of the
opcode table (30_encoding.md R62: `c & mask == match`). -/

namespace Sys2Proof.Laws

/-- The bits of an assembled word: each field at its place, nothing elsewhere (R61, R71). -/
theorem assemble_and_mask (op : Opcode) (rd rd2 rs1 rs2 : RegIdx) (k : BitVec 3) (m : Command)
    (hop : (op.byte.setWidth 64 : Command) &&& m = op.matchWord)
    (h1 : (BitVec.ofNat 64 rd.val <<< 8) &&& m = 0) (h2 : (BitVec.ofNat 64 rd2.val <<< 11) &&& m = 0)
    (h3 : (BitVec.ofNat 64 rs1.val <<< 14) &&& m = 0) (h4 : (BitVec.ofNat 64 rs2.val <<< 17) &&& m = 0)
    (h5 : (k.setWidth 64 <<< 20) &&& m = 0) : assemble op rd rd2 rs1 rs2 k &&& m = op.matchWord := by
  have dist : ∀ x y : Command, (x ||| y) &&& m = (x &&& m) ||| (y &&& m) := fun x y => by
    apply BitVec.eq_of_getLsbD_eq; intro n hn; simp [Bool.and_or_distrib_right]
  simp only [assemble, dist, hop, h1, h2, h3, h4, h5]
  simp

/-- A command's word matches its row. -/
def EncodeMatches.Statement (i : Instr) : Prop := encode i &&& i.opcode.format.mask = i.opcode.matchWord

theorem EncodeMatches.addu (rd rs1 rs2 : RegIdx) : EncodeMatches.Statement (.addu rd rs1 rs2) :=
  assemble_and_mask _ _ _ _ _ _ Format.op3.mask (by decide) (by revert rd; decide) (by decide) (by revert rs1; decide) (by revert rs2; decide) (by decide)

theorem EncodeMatches.subu (rd rs1 rs2 : RegIdx) : EncodeMatches.Statement (.subu rd rs1 rs2) :=
  assemble_and_mask _ _ _ _ _ _ Format.op3.mask (by decide) (by revert rd; decide) (by decide) (by revert rs1; decide) (by revert rs2; decide) (by decide)

theorem EncodeMatches.mulu (rd rs1 rs2 : RegIdx) : EncodeMatches.Statement (.mulu rd rs1 rs2) :=
  assemble_and_mask _ _ _ _ _ _ Format.op3.mask (by decide) (by revert rd; decide) (by decide) (by revert rs1; decide) (by revert rs2; decide) (by decide)

theorem EncodeMatches.divu (rd rd2 rs1 rs2 : RegIdx) : EncodeMatches.Statement (.divu rd rd2 rs1 rs2) :=
  assemble_and_mask _ _ _ _ _ _ Format.div4.mask (by decide) (by revert rd; decide) (by revert rd2; decide) (by revert rs1; decide) (by revert rs2; decide) (by decide)

theorem EncodeMatches.cmpu (rs1 rs2 : RegIdx) : EncodeMatches.Statement (.cmpu rs1 rs2) :=
  assemble_and_mask _ _ _ _ _ _ Format.cmp2.mask (by decide) (by decide) (by decide) (by revert rs1; decide) (by revert rs2; decide) (by decide)

theorem EncodeMatches.tstz (rs1 : RegIdx) : EncodeMatches.Statement (.tstz rs1) :=
  assemble_and_mask _ _ _ _ _ _ Format.tst1.mask (by decide) (by decide) (by decide) (by revert rs1; decide) (by decide) (by decide)

theorem EncodeMatches.adds (rd rs1 rs2 : RegIdx) : EncodeMatches.Statement (.adds rd rs1 rs2) :=
  assemble_and_mask _ _ _ _ _ _ Format.op3.mask (by decide) (by revert rd; decide) (by decide) (by revert rs1; decide) (by revert rs2; decide) (by decide)

theorem EncodeMatches.subs (rd rs1 rs2 : RegIdx) : EncodeMatches.Statement (.subs rd rs1 rs2) :=
  assemble_and_mask _ _ _ _ _ _ Format.op3.mask (by decide) (by revert rd; decide) (by decide) (by revert rs1; decide) (by revert rs2; decide) (by decide)

theorem EncodeMatches.muls (rd rs1 rs2 : RegIdx) : EncodeMatches.Statement (.muls rd rs1 rs2) :=
  assemble_and_mask _ _ _ _ _ _ Format.op3.mask (by decide) (by revert rd; decide) (by decide) (by revert rs1; decide) (by revert rs2; decide) (by decide)

theorem EncodeMatches.divs (rd rd2 rs1 rs2 : RegIdx) : EncodeMatches.Statement (.divs rd rd2 rs1 rs2) :=
  assemble_and_mask _ _ _ _ _ _ Format.div4.mask (by decide) (by revert rd; decide) (by revert rd2; decide) (by revert rs1; decide) (by revert rs2; decide) (by decide)

theorem EncodeMatches.cmps (rs1 rs2 : RegIdx) : EncodeMatches.Statement (.cmps rs1 rs2) :=
  assemble_and_mask _ _ _ _ _ _ Format.cmp2.mask (by decide) (by decide) (by decide) (by revert rs1; decide) (by revert rs2; decide) (by decide)

theorem EncodeMatches.tstn (rs1 : RegIdx) : EncodeMatches.Statement (.tstn rs1) :=
  assemble_and_mask _ _ _ _ _ _ Format.tst1.mask (by decide) (by decide) (by decide) (by revert rs1; decide) (by decide) (by decide)

theorem EncodeMatches.neg (rd rs1 : RegIdx) : EncodeMatches.Statement (.neg rd rs1) :=
  assemble_and_mask _ _ _ _ _ _ Format.op2.mask (by decide) (by revert rd; decide) (by decide) (by revert rs1; decide) (by decide) (by decide)

theorem EncodeMatches.ldc (rd : RegIdx) (k : NamedConst) : EncodeMatches.Statement (.ldc rd k) :=
  assemble_and_mask _ _ _ _ _ _ Format.ldk.mask (by decide) (by revert rd; decide) (by decide) (by decide) (by decide) (by cases k <;> decide)

theorem EncodeMatches.mov (rd rs1 : RegIdx) : EncodeMatches.Statement (.mov rd rs1) :=
  assemble_and_mask _ _ _ _ _ _ Format.op2.mask (by decide) (by revert rd; decide) (by decide) (by revert rs1; decide) (by decide) (by decide)

end Sys2Proof.Laws
end

