-- ==== Sys2Proof/Laws/Window.lean ====
section
/-! SUPPORT. The window's addresses (20_memory.md R41, R44) and what a window write does to later reads. -/

namespace Sys2Proof.Machine

@[simp] theorem addrReg_regAddr : ∀ (i : RegIdx) (j : WordIdx), addrReg (regAddr i j) = i := by decide

@[simp] theorem addrWord_regAddr : ∀ (i : RegIdx) (j : WordIdx), addrWord (regAddr i j) = j := by decide

@[simp] theorem isRegAddr_regAddr : ∀ (i : RegIdx) (j : WordIdx), isRegAddr (regAddr i j) = true := by decide

/-- R44: a register address is `8*i + j` for the register and word it names. -/
theorem regAddr_of_isRegAddr : ∀ a : WAddr, isRegAddr a = true → regAddr (addrReg a) (addrWord a) = a := by decide

@[simp] theorem isRegAddr_cmdAddr : isRegAddr cmdAddr = false := by decide

@[simp] theorem isRegAddr_statusAddr : isRegAddr statusAddr = false := by decide

theorem statusAddr_ne_cmdAddr : statusAddr ≠ cmdAddr := by decide

@[simp] theorem memRead_regAddr (s : State) (i : RegIdx) (j : WordIdx) :
    memRead s (regAddr i j) = word (s.reg i) j := by simp [memRead]

@[simp] theorem memRead_cmdAddr (s : State) : memRead s cmdAddr = s.cmd := by simp [memRead]

@[simp] theorem memRead_statusAddr (s : State) : memRead s statusAddr = s.statusWord := by
  simp [memRead, statusAddr_ne_cmdAddr]

@[simp] theorem memWrite_regAddr (s : State) (i : RegIdx) (j : WordIdx) (v : Word) :
    memWrite s (regAddr i j) v = s.setReg i (setWord (s.reg i) j v) := by simp [memWrite]

@[simp] theorem memWrite_cmdAddr (s : State) (c : Word) : memWrite s cmdAddr c = issueCommand s c := by
  simp [memWrite]

/-- What a window write can be: a register word, CMD, or nothing. -/
theorem memWrite_cases (s : State) (a : WAddr) (v : Word) :
    (isRegAddr a = true ∧ memWrite s a v = s.setReg (addrReg a) (setWord (s.reg (addrReg a)) (addrWord a) v)) ∨
    (a = cmdAddr ∧ memWrite s a v = issueCommand s v) ∨
    (isRegAddr a = false ∧ a ≠ cmdAddr ∧ memWrite s a v = s) := by
  cases h : isRegAddr a
  · by_cases hc : a = cmdAddr
    · exact .inr (.inl ⟨hc, by simp [hc]⟩)
    · exact .inr (.inr ⟨rfl, hc, by simp [memWrite, h, hc]⟩)
  · exact .inl ⟨rfl, by simp [memWrite, h]⟩

end Sys2Proof.Machine
end

