-- ==== Sys2Proof/Laws/Step.lean ====
section
/-! SUPPORT. What one step can do: the inversion of `step`, one case per kind of event. -/

namespace Sys2Proof.Machine

/-- The state with the next event taken off its schedule. -/
def State.popped (s : State) : State := { s with schedule := s.schedule.tail }

/-- Whether the core moves next: its turn is scheduled, or nothing is. -/
def State.coreIsNext (s : State) : Bool :=
  match s.schedule with
  | [] => true
  | .core :: _ => true
  | _ => false

theorem popped_of_nil {s : State} (h : s.schedule = []) : s.popped = s := by
  obtain ⟨_, _, _, _, _, _, _, _, _, _, _, _⟩ := s
  simp only at h
  subst h
  rfl

theorem step_cons {s : State} {e : Event} {rest : List Event} (h : s.schedule = e :: rest) :
    step s = takeEvent e s.popped := by simp [step, State.popped, h]

theorem step_of_coreIsNext {s : State} (h : s.coreIsNext = true) : step s = coreTurn s.popped := by
  cases hs : s.schedule with
  | nil => simp [step, hs, popped_of_nil hs]
  | cons e rest =>
    cases e with
    | core => simp [step_cons hs, takeEvent]
    | read a => simp [State.coreIsNext, hs] at h
    | write a v => simp [State.coreIsNext, hs] at h
    | reset => simp [State.coreIsNext, hs] at h

/-- The core's turn with the event list spelled out: its turn is scheduled, or nothing is. -/
theorem step_core {s : State} {rest : List Event}
    (h : s.schedule = .core :: rest ∨ (s.schedule = [] ∧ rest = [])) :
    step s = coreTurn { s with schedule := rest } := by
  obtain ⟨_, _, _, _, _, _, _, _, _, _, _, _⟩ := s
  rcases h with h | ⟨h, h'⟩
  · simp only at h; subst h; rfl
  · simp only at h; subst h; subst h'; rfl

theorem coreTurn_of_busy {s : State} (h : s.busy = true) : coreTurn s = completePending s := by simp [coreTurn, h]

theorem coreTurn_of_idle {s : State} (h : s.busy = false) : coreTurn s = .next s := by simp [coreTurn, h]

theorem completePending_legal {s : State} {i : Instr} (h : decode s.latchedWord = .legal i) :
    completePending s = retireOutcome (exec i s) := by simp [completePending, h, runDecoded]

theorem completePending_illegal {s : State} {why : IllegalReason} (h : decode s.latchedWord = .illegal why) :
    completePending s = .next (retire (raiseStatus .illegalCommand s)) := by
  simp [completePending, h, runDecoded, retireOutcome]

/-- Everything a step can do when it answers a next state. -/
inductive StepCase (s t : State) : Prop where
  /-- the core's turn with nothing pending: nothing happens -/
  | idle (hc : s.coreIsNext = true) (hb : s.busy = false) (ht : t = s.popped)
  /-- the completion step -/
  | complete (hc : s.coreIsNext = true) (hb : s.busy = true) (u : State)
      (hu : runDecoded (decode s.latchedWord) s.popped = .next u) (hk : KeepsControl s.popped u) (ht : t = retire u)
  /-- a host read with BUSY = 0 -/
  | read (a : WAddr) (rest : List Event) (hs : s.schedule = .read a :: rest) (hb : s.busy = false)
      (ht : t = respond (memRead s.popped a) s.popped)
  /-- a STATUS read with BUSY = 1 -/
  | busyRead (rest : List Event) (hs : s.schedule = .read statusAddr :: rest) (hb : s.busy = true)
      (ht : t = respond (busyStatusWord (Config.busyStatusBits s.draws)) (countDraw s.popped))
  /-- a host write with BUSY = 0 -/
  | write (a : WAddr) (v : Word) (rest : List Event) (hs : s.schedule = .write a v :: rest) (hb : s.busy = false)
      (ht : t = memWrite s.popped a v)
  /-- the reset input -/
  | reset (rest : List Event) (hs : s.schedule = .reset :: rest) (ht : t = applyReset s.popped)

theorem coreTurn_cases {s t : State} (hc : s.coreIsNext = true) (h : coreTurn s.popped = .next t) : StepCase s t := by
  cases hb : s.busy
  · have hp : s.popped.busy = false := hb
    simp only [coreTurn, hp] at h
    cases h
    exact .idle hc hb rfl
  · have hp : s.popped.busy = true := hb
    obtain ⟨u, hu, hk, hn⟩ := completePending_next s.popped
    simp only [coreTurn, hp, if_true, hn] at h
    cases h
    exact .complete hc hb u hu hk rfl

theorem hostRead_cases {s t : State} {a : WAddr} {rest : List Event} (hs : s.schedule = .read a :: rest)
    (h : hostRead a s.popped = .next t) : StepCase s t := by
  cases hb : s.busy
  · have hp : s.popped.busy = false := hb
    simp only [hostRead, hp] at h
    cases h
    exact .read a rest hs hb rfl
  · have hp : s.popped.busy = true := hb
    by_cases ha : a = statusAddr
    · subst ha
      simp only [hostRead, hp, if_true] at h
      cases h
      exact .busyRead rest hs hb rfl
    · simp only [hostRead, hp, if_true, ha, if_false, violate] at h
      cases h

theorem hostWrite_cases {s t : State} {a : WAddr} {v : Word} {rest : List Event}
    (hs : s.schedule = .write a v :: rest) (h : hostWrite a v s.popped = .next t) : StepCase s t := by
  cases hb : s.busy
  · have hp : s.popped.busy = false := hb
    simp only [hostWrite, hp] at h
    cases h
    exact .write a v rest hs hb rfl
  · have hp : s.popped.busy = true := hb
    simp only [hostWrite, hp, if_true, violate] at h
    cases h

/-- The inversion of `step`. -/
theorem step_cases {s t : State} (h : step s = .next t) : StepCase s t := by
  cases hs : s.schedule with
  | nil =>
    have hc : s.coreIsNext = true := by simp [State.coreIsNext, hs]
    exact coreTurn_cases hc (step_of_coreIsNext hc ▸ h)
  | cons e rest =>
    rw [step_cons hs] at h
    cases e with
    | core => exact coreTurn_cases (by simp [State.coreIsNext, hs]) h
    | read a => exact hostRead_cases hs h
    | write a v => exact hostWrite_cases hs h
    | reset =>
      cases h
      exact .reset rest hs rfl

/-- A run of no events, and of one more (30_encoding.md R73). -/
@[simp] theorem runEvents_nil (s : State) : runEvents [] s = .next s := rfl

theorem runEvents_cons (e : Event) (es : List Event) (s : State) :
    runEvents (e :: es) s = andThen (takeEvent e s) (runEvents es) := rfl

theorem runEvents_append (es fs : List Event) (s : State) :
    runEvents (es ++ fs) s = andThen (runEvents es s) (runEvents fs) := by
  induction es generalizing s with
  | nil => rfl
  | cons e es ih =>
    simp only [List.cons_append, runEvents_cons]
    cases takeEvent e s with
    | next t => exact ih t
    | fault r => rfl
    | refused r => rfl

@[simp] theorem andThen_next {α β : Type} (a : α) (f : α → Host.Outcome β Fault Refusal) :
    andThen (.next a) f = f a := rfl

/-- From an outcome chained with a continuation back to its parts. -/
theorem andThen_eq_next {α β : Type} {o : Host.Outcome α Fault Refusal} {f : α → Host.Outcome β Fault Refusal} {b : β}
    (h : andThen o f = .next b) : ∃ a, o = .next a ∧ f a = .next b := by
  cases o with
  | next a => exact ⟨a, rfl, h⟩
  | fault r => cases h
  | refused r => cases h

end Sys2Proof.Machine
end

