-- ==== Sys2Proof/Tests/Slice0.lean ====
section
/-! SUPPORT. The model's own tests: ill-formed terms, decoding of words written out from the tables of 30_encoding.md, single
steps with the results of 95_test_vectors.md, and for each obligation with hypotheses a witness that meets them. -/

set_option Elab.async false

namespace Sys2Proof.Machine

/-! ## Well-formedness: the one check (R67), an ill-formed term for each command it covers -/

theorem test_wellFormed_refuses_divu_equal_destinations : (Instr.divu 2 2 0 1).wellFormed = false := by decide
theorem test_wellFormed_refuses_divs_equal_destinations : (Instr.divs 3 3 0 1).wellFormed = false := by decide
theorem test_wellFormed_accepts_aliased_sources : (Instr.divu 1 0 0 1).wellFormed = true := by decide

/-! ## Decoding, from the field layout of R61: k rs2 rs1 rd2 rd op, high bits first -/

theorem test_decode_addu : decode 0b000_110_011_000_101_00000001 = .legal (.addu 5 3 6) := by decide
theorem test_decode_subu : decode 0b000_110_011_000_101_00000010 = .legal (.subu 5 3 6) := by decide
theorem test_decode_mulu : decode 0b000_110_011_000_101_00000011 = .legal (.mulu 5 3 6) := by decide
theorem test_decode_divu : decode 0b000_110_011_001_101_00000100 = .legal (.divu 5 1 3 6) := by decide
theorem test_decode_cmpu : decode 0b000_110_011_000_000_00000101 = .legal (.cmpu 3 6) := by decide
theorem test_decode_tstz : decode 0b000_000_011_000_000_00000110 = .legal (.tstz 3) := by decide
theorem test_decode_adds : decode 0b000_110_011_000_101_00010001 = .legal (.adds 5 3 6) := by decide
theorem test_decode_subs : decode 0b000_110_011_000_101_00010010 = .legal (.subs 5 3 6) := by decide
theorem test_decode_muls : decode 0b000_110_011_000_101_00010011 = .legal (.muls 5 3 6) := by decide
theorem test_decode_divs : decode 0b000_110_011_001_101_00010100 = .legal (.divs 5 1 3 6) := by decide
theorem test_decode_cmps : decode 0b000_110_011_000_000_00010101 = .legal (.cmps 3 6) := by decide
theorem test_decode_tstn : decode 0b000_000_011_000_000_00010110 = .legal (.tstn 3) := by decide
theorem test_decode_neg : decode 0b000_000_011_000_101_00010111 = .legal (.neg 5 3) := by decide
theorem test_decode_ldc : decode 0b110_000_000_000_101_00100000 = .legal (.ldc 5 .smin) := by decide
theorem test_decode_mov : decode 0b000_000_011_000_101_00100001 = .legal (.mov 5 3) := by decide

/-- The examples of R71 and of the vectors of 95_test_vectors.md. -/
theorem test_decode_spec_examples :
    decode 0x00020201 = .legal (.addu 2 0 1) ∧ decode 0x00021A04 = .legal (.divu 2 3 0 1) ∧
    decode 0x00000117 = .legal (.neg 1 0) ∧ decode 0x00020005 = .legal (.cmpu 0 1) ∧
    decode 0x0000C006 = .legal (.tstz 3) ∧ decode 0x00200420 = .legal (.ldc 4 .umax) ∧
    decode 0x0000C521 = .legal (.mov 5 3) ∧ decode 0x00004114 = .legal (.divs 1 0 1 0) := by decide

/-- DEC-1 to DEC-6: reserved opcodes. -/
theorem test_decode_reserved_opcodes :
    [0x00, 0x07, 0xFF, 0x10, 0x18, 0x22].all (fun c => decode c == .illegal .reservedOpcode) = true := by decide +kernel

/-- DEC-8 to DEC-13, 19 to 22, 24, 25: a field that must be 0 is not. -/
theorem test_decode_nonzero_fields :
    [0x00020A01, 0x00120201, 0x00820201, 0x80020201, 0x100020201, 0x8000000000020201, 0x00604220, 0x00020217, 0x00004A21,
      0x00020205, 0x00020006, 0x00000116].all (fun c => decode c == .illegal .nonzeroMustBeZero) = true := by decide +kernel

/-- DEC-14, 15 and 17. -/
theorem test_decode_equal_destinations :
    decode 0x00021204 = .illegal .sameDivDestination ∧ decode 0x00021B14 = .illegal .sameDivDestination := by decide
theorem test_decode_reserved_constant : decode 0x00700220 = .illegal .reservedConstant := by decide
theorem test_decodeTableWord : decodeTableWord 64 0x00021A04 = some (.divu 2 3 0 1) ∧ decodeTableWord 64 0 = none := by
  decide

/-! ## The assembler (R71, R72) -/

/-- The examples of R71, LDC-8 of 95_test_vectors.md, a pseudo-instruction of R72, and lines outside the syntax. -/
theorem test_assembleText :
    assembleText "ADDU x2, x0, x1" = some 0x00020201 ∧ assembleText "DIVU x2, x3, x0, x1" = some 0x00021A04 ∧
    assembleText "NEG x1, x0" = some 0x00000117 ∧ assembleText "CMPU x0, x1" = some 0x00020005 ∧
    assembleText "TSTZ x3" = some 0x0000C006 ∧ assembleText "LDC x4, UMAX" = some 0x00200420 ∧
    assembleText "LDC x2, #7" = some 0x00700220 ∧ assembleText " CLR  x7 " = some 0x00000720 ∧
    assembleText "ADDU x2, x0" = none ∧ assembleText "TSTZ x3," = none ∧ assembleText "NOP" = none := by decide +kernel

theorem test_assemblyText : assemblyText (.addu 2 0 1) = "ADDU x2, x0, x1" := by decide

/-! ## One completion step each (95_test_vectors.md §2), from a state with a in x0, b in x1, 0x1111 in x2, 0x2222 in x3 -/

/-- A state after reset with two operands loaded. -/
def loaded (a b : Int) : State :=
  { State.reset with regs := { RegFile.zero with x0 := enc a, x1 := enc b, x2 := 0x1111, x3 := 0x2222 } }

/-- What the completion step of a command word leaves in one register, with the STATUS word. -/
def result (word : Nat) (a b : Int) (r : RegIdx) : Option (Value × Word) :=
  match step ((loaded a b).withFetchWord 64 word) with
  | .next t => some (t.reg r, t.statusWord)
  | _ => none

/-- 2^512 - 1, 2^511 - 1 and -2^511 as integers. -/
def umaxInt : Int := 2 ^ 512 - 1
def smaxInt : Int := 2 ^ 511 - 1
def sminInt : Int := -2 ^ 511

theorem test_addu_1 : result 0x00020201 1 2 2 = some (enc 3, 0x0000) := by decide +kernel
theorem test_addu_2 : result 0x00020201 umaxInt 1 2 = some (enc 0, 0x0010) := by decide +kernel
theorem test_subu_2 : result 0x00020202 0 1 2 = some (enc umaxInt, 0x0020) := by decide +kernel
theorem test_subu_6 : result 0x00020202 (2 ^ 64) 1 2 = some (enc 0xFFFFFFFFFFFFFFFF, 0x0000) := by decide +kernel
theorem test_mulu_4 : result 0x00020203 sminInt 2 2 = some (enc 0, 0x0010) := by decide +kernel
theorem test_mulu_10 : result 0x00020203 (2 ^ 448) 0x8000000000000000 2 = some (enc sminInt, 0x0000) := by decide +kernel
theorem test_divu_1_quotient : result 0x00021A04 100 30 2 = some (enc 3, 0x0000) := by decide +kernel
theorem test_divu_1_remainder : result 0x00021A04 100 30 3 = some (enc 10, 0x0000) := by decide +kernel
theorem test_divu_10 : result 0x00021A04 5 0 2 = some (enc 0x1111, 0x0030) := by decide +kernel
theorem test_alias_5 : result 0x00020104 100 30 0 = some (enc 10, 0x0000) := by decide +kernel
theorem test_cmpu_5 : result 0x00020005 (2 ^ 448) (2 ^ 448 + 1) 2 = some (enc 0x1111, 0x0C00) := by decide +kernel
theorem test_cmpu_6 : result 0x00020005 sminInt 1 2 = some (enc 0x1111, 0x0400) := by decide +kernel
theorem test_tstz_1 : result 0x00000006 0 0 2 = some (enc 0x1111, 0x0100) := by decide +kernel
theorem test_tstz_4 : result 0x00000006 (2 ^ 448) 0 2 = some (enc 0x1111, 0x0000) := by decide +kernel
theorem test_neg_4 : result 0x00000217 sminInt 0 2 = some (enc sminInt, 0x0000) := by decide +kernel
theorem test_neg_7 : result 0x00000217 (2 ^ 64) 0 2 = some (enc (-2 ^ 64), 0x0000) := by decide +kernel
theorem test_adds_2 : result 0x00020211 smaxInt 1 2 = some (enc sminInt, 0x0010) := by decide +kernel
theorem test_adds_3 : result 0x00020211 sminInt (-1) 2 = some (enc smaxInt, 0x0020) := by decide +kernel
theorem test_subs_2 : result 0x00020212 0 sminInt 2 = some (enc sminInt, 0x0010) := by decide +kernel
theorem test_subs_6 : result 0x00020212 sminInt smaxInt 2 = some (enc 1, 0x0020) := by decide +kernel
theorem test_muls_3 : result 0x00020213 sminInt (-1) 2 = some (enc sminInt, 0x0010) := by decide +kernel
theorem test_muls_5 : result 0x00020213 (2 ^ 255) (-2 ^ 256) 2 = some (enc sminInt, 0x0000) := by decide +kernel
theorem test_divs_2_remainder : result 0x00021A14 7 (-2) 3 = some (enc 1, 0x0000) := by decide +kernel
theorem test_divs_13_quotient : result 0x00021A14 (-12345) 100 2 = some (enc (-123), 0x0000) := by decide +kernel
theorem test_cmps_3 : result 0x00020015 (-1) 0 2 = some (enc 0x1111, 0x0C00) := by decide +kernel
theorem test_cmps_4 : result 0x00020015 (-1) (-2) 2 = some (enc 0x1111, 0x0400) := by decide +kernel
theorem test_tstn_1 : result 0x00000016 (-12345) 0 2 = some (enc 0x1111, 0x0200) := by decide +kernel
theorem test_tstn_4 : result 0x00000016 smaxInt 0 2 = some (enc 0x1111, 0x0000) := by decide +kernel
theorem test_ldc_6 : result 0x00500220 0 0 2 = some (enc smaxInt, 0x0000) := by decide +kernel
theorem test_ldc_7 : result 0x00600220 0 0 2 = some (enc sminInt, 0x0000) := by decide +kernel
theorem test_mov_1 : result 0x00000121 7 0 1 = some (enc 7, 0x0000) := by decide +kernel
theorem test_dec_1_illegal : result 0 5 3 2 = some (enc 0x1111, 0x0070) := by decide +kernel

/-! ## The window, the protocol and reset (95_test_vectors.md §2.7) -/

/-- The word a host read of `a` returns, if the step does not stop. -/
def readBack (s : State) (a : WAddr) : Option Word :=
  match hostRead a s with
  | .next t => some t.lastResponse
  | _ => none

/-- Whether the next step is a protocol violation. -/
def faults (s : State) : Bool :=
  match step s with
  | .fault _ => true
  | _ => false

/-- `ADDU x2, x0, x1` issued, then one host event. -/
def issuedThen (e : Event) : State := { issueCommand (loaded 4 5) 0x00020201 with schedule := [e] }

theorem test_win_1 : readBack (memWrite State.reset 0x1D 0xDEADBEEF) 0x1D = some 0xDEADBEEF ∧
    readBack (memWrite State.reset 0x1D 0xDEADBEEF) 0x1C = some 0 := by decide +kernel
theorem test_win_3 : readBack (memWrite State.reset 0x50 0x1234) 0x50 = some 0 := by decide +kernel
theorem test_win_4 : readBack (memWrite State.reset 0x41 0xFFFFFFFFFFFFFFFF) 0x41 = some 0 := by decide +kernel
theorem test_win_8_to_11 : faults (issuedThen (.read 0x00)) = true ∧ faults (issuedThen (.write 0x00 1)) = true ∧
    faults (issuedThen (.write 0x40 0x00020301)) = true ∧ faults (issuedThen (.read 0x42)) = true := by decide +kernel
theorem test_win_7 : faults (issuedThen (.read 0x41)) = false := rfl
theorem test_win_12 : step (issuedThen .reset) = .next State.reset := rfl
theorem test_win_14 : ∃ r, step (issuedThen (.read 0x00)) = .fault r ∧
    r.afterReset = { State.reset with faultMark := true } := ⟨_, rfl, rfl⟩

/-! ## The codec (95_test_vectors.md §2.8) -/

/-- COD-6, COD-5, COD-3, COD-13. -/
theorem test_to_string : toStringU 255 16 (some 3) [] = { status := .ok, text := [0x66, 0x66, 0] } ∧
    (toStringU 255 16 (some 2) []).status = .invalidString ∧
    toStringU 0 10 (some 2) [] = { status := .ok, text := [0x30, 0] } ∧
    toStringS (enc (-255)) 16 (some 4) [] = { status := .ok, text := [0x2D, 0x66, 0x66, 0] } := by decide +kernel

/-- COD-18, COD-21, COD-47, COD-30: "12G", "  +42", "- 5", "Z" in radix 35. -/
theorem test_from_string : (fromStringU (some [0x31, 0x32, 0x47]) 10 0).status = .invalidString ∧
    fromStringU (some [0x20, 0x20, 0x2B, 0x34, 0x32]) 10 0 = { status := .ok, value := 42 } ∧
    fromStringS (some [0x2D, 0x20, 0x35]) 10 0 = { status := .ok, value := enc (-5) } ∧
    (fromStringU (some [0x5A]) 35 0).status = .invalidString := by decide +kernel

/-! ## Witnesses: the hypotheses of each obligation can be met, clause by clause at the ends of its range -/

/-- The state right after the host wrote `ADDU x2, x0, x1` to CMD. -/
def busyState (schedule : List Event) : State := { issueCommand (loaded 4 5) 0x00020201 with schedule := schedule }

/-- An idle state with a schedule. -/
def idleState (schedule : List Event) : State := { loaded 4 5 with schedule := schedule }

/-- Every command completes (Laws/Exec.lean). -/
theorem completes (i : Instr) (s : State) : ∃ t, exec i s = .next t :=
  (exec_next i s).imp fun _ h => h.1

/-- A word issued on given operands and flags, the core's turn next. -/
def flagged (word : Nat) (z n : Bool) (cmp : CmpFlag) (es : List Event) : State :=
  { issueCommand { loaded 4 5 with z := z, n := n, cmp := cmp } (BitVec.ofNat 64 word) with schedule := es }

theorem witness_DecodeOfEncode :
    (Instr.divu 5 1 3 6).wellFormed = true ∧ (Instr.ldc 0 .umax).wellFormed = true := by decide
theorem witness_EncodeOfDecode :
    decode 0x00021A04 = .legal (.divu 2 3 0 1) := by decide
theorem witness_IllegalWordsWriteOnlyTheCode :
    ∃ s : State, s.busy = true ∧ decode s.latchedWord = .illegal .reservedOpcode ∧ s.schedule = .core :: [] := ⟨flagged 0 true true .less [.core], rfl, by decide, rfl⟩
theorem witness_IllegalWordsWriteOnlyTheCode_unscheduled :
    ∃ s : State, s.busy = true ∧ decode s.latchedWord = .illegal .reservedConstant ∧ s.schedule = [] := ⟨flagged 0x00700220 true true .less [], rfl, by decide, rfl⟩
theorem witness_EqualDivideDestinations :
    (0x00021204 : Command) &&& Opcode.divu.format.mask = Opcode.divu.matchWord ∧
    (0x00021204 : Command).extractLsb' 8 3 = (0x00021204 : Command).extractLsb' 11 3 ∧
    (0x00021B14 : Command) &&& Opcode.divs.format.mask = Opcode.divs.matchWord ∧
    (0x00021B14 : Command).extractLsb' 8 3 = (0x00021B14 : Command).extractLsb' 11 3 := by decide
theorem witness_SelectorSeven :
    (0x00700220 : Command) &&& Opcode.ldc.format.mask = Opcode.ldc.matchWord ∧
    (0x00700220 : Command).extractLsb' 20 3 = 7 := by decide
theorem witness_AssemblerReadsEveryCommand :
    lookupName mnemonicNames (mnemonicOf "NOP x1") = none ∧ mnemonicOf "NOP x1" ≠ "CLR" ∧
    mnemonicOf "NOP x1" ≠ "ONE" ∧ ("#7", (7 : BitVec 3)) ∈ numberedSelectors := by decide +kernel
theorem witness_StepRunsTheLatchedCommand :
    (busyState [.core]).busy = true ∧ decode (busyState [.core]).latchedWord = .legal (.addu 2 0 1) ∧
    (busyState [.core]).schedule = .core :: [] ∧ (busyState []).schedule = [] := by decide
theorem witness_IssuedCommandRuns :
    (Instr.addu 2 0 1).wellFormed = true ∧
    (idleState [.write 0x40 (encode (.addu 2 0 1)), .core]).busy = false ∧
    (idleState [.write 0x40 (encode (.addu 2 0 1)), .core]).schedule = .write 0x40 (encode (.addu 2 0 1)) :: .core :: [] := by decide
theorem witness_WaitEndsWithTheCommandDone :
    (Instr.divu 2 3 0 1).wellFormed = true ∧ State.reset.busy = false := by decide
theorem witness_BusyIsNeverSeenAfterCompletion :
    State.reset.busy = false := rfl
theorem witness_StepKeepsTheInvariant :
    ∃ s t : State, s.Inv ∧ s.busy = true ∧ step s = .next t := by
  refine ⟨busyState [], _, ⟨rfl, ?_, ?_, rfl⟩, rfl, rfl⟩ <;> intro p hp <;> cases hp <;> rfl
theorem witness_LatchedOperandsAreTheRegisters :
    ∃ s : State, s.Inv ∧ s.pending.isSome = true := by
  refine ⟨busyState [], ⟨rfl, ?_, ?_, rfl⟩, rfl⟩ <;> intro p hp <;> cases hp <;> rfl
theorem witness_ResetLeavesEverythingZero :
    ∃ s : State, s.busy = true ∧ s.schedule = .reset :: [] := ⟨busyState [.reset], rfl, rfl⟩

/-- The four ranges of the window at their ends: 0x00, 0x3F, 0x40, 0x41, 0x42, 0x7F. -/
theorem witness_WindowReadsFollowTheMap :
    (idleState [.read 0x3F]).busy = false ∧ (idleState [.read 0x3F]).schedule = .read 0x3F :: [] ∧
    (0x00 : WAddr).toNat = 8 * (0 : RegIdx).val + (0 : WordIdx).val ∧
    (0x3F : WAddr).toNat = 8 * (7 : RegIdx).val + (7 : WordIdx).val ∧ 0x42 ≤ (0x42 : WAddr).toNat ∧
    0x42 ≤ (0x7F : WAddr).toNat ∧ ¬ 0x42 ≤ (0x41 : WAddr).toNat := by decide
theorem witness_WindowWritesFollowTheMap :
    (idleState [.write 0x3F 1]).busy = false ∧ (idleState [.write 0x3F 1]).schedule = .write 0x3F 1 :: [] ∧
    (0x00 : WAddr).toNat = 8 * (0 : RegIdx).val + (0 : WordIdx).val ∧
    (0x3F : WAddr).toNat = 8 * (7 : RegIdx).val + (7 : WordIdx).val ∧ 0x41 ≤ (0x41 : WAddr).toNat ∧
    0x41 ≤ (0x7F : WAddr).toNat ∧ ¬ 0x41 ≤ (0x40 : WAddr).toNat := by decide
theorem witness_WordsLoadInAnyOrder :
    State.reset.busy = false ∧ List.Perm [7, 5, 3, 1, 0, 2, 4, 6] wordIndices := by decide
theorem witness_ReservedAddressesAreInert :
    0x42 ≤ (0x42 : WAddr).toNat ∧ 0x42 ≤ (0x7F : WAddr).toNat := by decide
theorem witness_FaultExactlyOnProtocolViolation :
    (busyState [.read 0x40]).busy = true ∧ (busyState [.read 0x40]).schedule = .read 0x40 :: [] ∧
    (0x40 : WAddr) ≠ 0x41 := by decide
theorem witness_StatusReadsWhileBusy :
    (busyState [.read 0x41]).schedule = .read 0x41 :: [] ∧ (busyState [.read 0x41]).busy = true := by decide
theorem witness_StatusReadsWhileBusy_zero :
    ∃ t, (idleState [.read 0x41]).schedule = .read 0x41 :: [] ∧ step (idleState [.read 0x41]) = .next t ∧
    t.lastResponse.getLsbD 0 = false := ⟨_, rfl, rfl, by decide +kernel⟩
theorem witness_FaultMarkIsNeverCleared :
    (∃ t, step (busyState []) = .next t) ∧ ∃ r, step (busyState [.write 0x41 0]) = .fault r := ⟨⟨_, rfl⟩, ⟨_, rfl⟩⟩
theorem witness_IdleBlockHoldsItsState :
    (idleState []).busy = false ∧ (idleState []).schedule = [] ∧
    (idleState [.core]).busy = false ∧ (idleState [.core]).schedule = .core :: [] := by decide

/-- Z, N and CMP each changed by a command and by reset: TSTZ x1, TSTN x2, CMPU x0 x1. -/
theorem witness_FlagsAreWrittenOnlyByTheirCommands :
    (∃ t, step (flagged 0x00004006 true true .greater []) = .next t ∧ t.z ≠ true) ∧
    (∃ t, step (flagged 0x00008016 true true .greater []) = .next t ∧ t.n ≠ true) ∧
    (∃ t, step (flagged 0x00020005 true true .greater []) = .next t ∧ t.cmp ≠ .greater) ∧
    ∃ t, step (flagged 0 true true .greater [.reset]) = .next t ∧ t.z ≠ true ∧ t.n ≠ true ∧ t.cmp ≠ .greater := ⟨⟨_, rfl, by decide +kernel⟩, ⟨_, rfl, by decide +kernel⟩, ⟨_, rfl, by decide +kernel⟩, ⟨_, rfl, by decide +kernel⟩⟩
theorem witness_RegistersAreWrittenOnlyByTheirWriters :
    (∃ t, step (idleState [.write 0x3F 1]) = .next t ∧ t.reg 7 ≠ (idleState [.write 0x3F 1]).reg 7) ∧
    (∃ t, step (idleState [.reset]) = .next t ∧ t.reg 0 ≠ (idleState [.reset]).reg 0) ∧
    ∃ t, step (busyState []) = .next t ∧ t.reg 2 ≠ (busyState []).reg 2 := ⟨⟨_, rfl, by decide +kernel⟩, ⟨_, rfl, by decide +kernel⟩, ⟨_, rfl, by decide +kernel⟩⟩
theorem witness_CmdAndBusyFollowTheProtocol :
    (∃ t, step (idleState [.write 0x40 1]) = .next t ∧ t.cmd ≠ (idleState [.write 0x40 1]).cmd ∧ t.busy = true) ∧
    (∃ t, step (busyState []) = .next t ∧ t.busy = false) ∧
    ∃ t, step (busyState [.reset]) = .next t ∧ t.cmd ≠ (busyState [.reset]).cmd ∧ t.busy = false := ⟨⟨_, rfl, by decide +kernel, rfl⟩, ⟨_, rfl, rfl⟩, ⟨_, rfl, by decide +kernel, rfl⟩⟩
theorem witness_CodesAreThoseOfTheCommand :
    (Instr.divu 2 3 0 1).wellFormed = true ∧ (∃ t, exec (.divu 2 3 0 1) (loaded 4 5) = .next t) ∧
    ∃ t, step (flagged 0 true true .less []) = .next t ∧ t.code ≠ .ok := ⟨by decide, completes _ _, ⟨_, rfl, by decide +kernel⟩⟩
theorem witness_LongDivisionIsExact :
    uval (enc 30) ≠ 0 ∧ uval (enc 30) ≤ uval (enc 100) := by decide +kernel

/-- The outcomes of the divides: rd = rd2, a zero divisor, SMIN / -1, and the rest. -/
theorem witness_DivuWritesQuotientAndRemainder :
    (2 : RegIdx) = 2 ∧ (2 : RegIdx) ≠ 3 ∧ uval ((loaded 5 0).operand 1) = 0 ∧ uval ((loaded 100 30).operand 1) ≠ 0 := by decide +kernel
theorem witness_DivsTruncates :
    (2 : RegIdx) = 2 ∧ (2 : RegIdx) ≠ 3 ∧ uval ((loaded (-7) 0).operand 1) = 0 ∧
    ((loaded sminInt (-1)).operand 0 = smin ∧ sval ((loaded sminInt (-1)).operand 1) = -1) ∧
    uval ((loaded (-7) 2).operand 1) ≠ 0 ∧
    ¬ ((loaded (-7) 2).operand 0 = smin ∧ sval ((loaded (-7) 2).operand 1) = -1) := by decide +kernel
theorem witness_FrameOfOneResultCommands :
    ∃ t, exec (.addu 2 0 1) (loaded 4 5) = .next t ∧ (3 : RegIdx) ≠ 2 ∧ (0x40 : WAddr) ≠ 0x41 ∧
    ∀ j, (0x40 : WAddr) ≠ regAddr 2 j := ⟨_, rfl, by decide, by decide, by decide⟩
theorem witness_FrameOfDivides :
    (∃ t, exec (.divu 2 3 0 1) (loaded 100 30) = .next t) ∧ (4 : RegIdx) ≠ 2 ∧ (4 : RegIdx) ≠ 3 ∧
    (∃ t, exec (.divs 2 3 0 1) (loaded 5 0) = .next t) ∧ uval ((loaded 5 0).operand 1) = 0 ∧
    ∀ j, (0x00 : WAddr) ≠ regAddr 2 j ∧ (0x00 : WAddr) ≠ regAddr 3 j := ⟨completes _ _, by decide, by decide, completes _ _, by decide +kernel, by decide⟩
theorem witness_FrameOfComparesAndTests :
    (∃ t, exec (.cmpu 0 1) (loaded 4 5) = .next t) ∧ ∃ t, exec (.tstn 0) (loaded 4 5) = .next t := ⟨completes _ _, completes _ _⟩
theorem witness_UnsignedLaws :
    ∃ t, exec (.addu 2 0 1) (loaded 4 5) = .next t ∧ t.code = .ok ∧ t.operand 2 = t.reg 2 ∧
    t.operand 1 = (loaded 4 5).operand 1 := ⟨_, rfl, by decide +kernel, by decide +kernel, by decide +kernel⟩
theorem witness_UnsignedLaws_results :
    (∃ t, exec (.addu 2 0 1) (loaded 4 5) = .next t) ∧ (∃ u, exec (.subu 2 0 1) (loaded 4 5) = .next u) ∧
    ∃ v, exec (.mulu 2 0 1) (loaded 4 5) = .next v := ⟨completes _ _, completes _ _, completes _ _⟩
theorem witness_UnsignedDivisionLaw :
    (2 : RegIdx) ≠ 3 ∧ uval ((loaded 100 30).operand 1) ≠ 0 ∧ uval ((loaded 5 0).operand 1) = 0 := by decide +kernel
theorem witness_SignedLaws :
    (2 : RegIdx) ≠ 3 ∧ uval ((loaded (-7) 2).operand 1) ≠ 0 ∧
    ¬ ((loaded (-7) 2).operand 0 = smin ∧ sval ((loaded (-7) 2).operand 1) = -1) ∧
    (loaded smaxInt 1).operand 0 = romValue .smax ∧ (loaded smaxInt 1).operand 1 = romValue .sone := by decide +kernel

/-- Radices at the ends of the two ranges: 1 and 37 outside, 2 and 36 inside. -/
theorem witness_ProceduresCheckTheirArgumentsFirst :
    ((1 : Int) < 2 ∨ 36 < (1 : Int)) ∧ ((37 : Int) < 2 ∨ 36 < (37 : Int)) ∧ (2 ≤ (2 : Int) ∧ (2 : Int) ≤ 36) ∧
    (2 ≤ (36 : Int) ∧ (36 : Int) ≤ 36) := by decide
theorem witness_DigitCountIsLeast :
    2 ≤ 2 ∧ 2 ≤ 36 ∧ uval (enc 255) ≠ 0 ∧ 0 < (digitsText (enc 255) 2).length ∧ 513 ≤ 513 ∧ 514 ≤ 514 := by decide +kernel
theorem witness_TextRoundTrip :
    (toStringU (enc 255) 16 (some 3) []).status = .ok ∧ (toStringS (enc (-255)) 16 (some 4) []).status = .ok := by decide +kernel
theorem witness_CodecOnBlock :
    (CodecRegs.mk 0 1 2).distinct = true ∧ State.reset.busy = false := by decide

/-- The four on-block statements share these hypotheses, and their OK clause is met too: "ff" in radix 16. -/
theorem witness_CodecOnBlock_ok :
    (toStringU (enc 255) 16 (some 3) []).status = .ok ∧ (toStringS (enc (-1)) 10 (some 3) []).status = .ok ∧
    (fromStringU (some [0x66, 0x66]) 16 0).status = .ok ∧ (fromStringS (some [0x2D, 0x31]) 10 0).status = .ok := by
  decide +kernel
theorem witness_WideningKeepsTheValue :
    8 ∈ [8, 16, 32, 64] ∧ 64 ∈ [8, 16, 32, 64] ∧ 128 ∈ [8, 16, 32, 64, 128] ∧ (1 : WordIdx) ≠ 0 ∧
    (2 : WordIdx) ≠ 0 ∧ (2 : WordIdx) ≠ 1 := by decide

end Sys2Proof.Machine
end

section
/-! PROOFS. The state with its next event taken off, and what a step's core turn is made of: the facts the whole-machine
statements share. -/

namespace Sys2Proof.Machine

/-! ## The state with its next event taken off -/

@[simp] theorem popped_regs (s : State) : s.popped.regs = s.regs := rfl
@[simp] theorem popped_cmd (s : State) : s.popped.cmd = s.cmd := rfl
@[simp] theorem popped_busy (s : State) : s.popped.busy = s.busy := rfl
@[simp] theorem popped_code (s : State) : s.popped.code = s.code := rfl
@[simp] theorem popped_z (s : State) : s.popped.z = s.z := rfl
@[simp] theorem popped_n (s : State) : s.popped.n = s.n := rfl
@[simp] theorem popped_cmp (s : State) : s.popped.cmp = s.cmp := rfl
@[simp] theorem popped_pending (s : State) : s.popped.pending = s.pending := rfl
@[simp] theorem popped_faultMark (s : State) : s.popped.faultMark = s.faultMark := rfl
@[simp] theorem popped_draws (s : State) : s.popped.draws = s.draws := rfl
@[simp] theorem popped_schedule (s : State) : s.popped.schedule = s.schedule.tail := rfl
@[simp] theorem popped_responses (s : State) : s.popped.responses = s.responses := rfl
@[simp] theorem popped_reg (s : State) (i : RegIdx) : s.popped.reg i = s.reg i := rfl
@[simp] theorem popped_operand (s : State) (i : RegIdx) : s.popped.operand i = s.operand i := rfl
@[simp] theorem popped_latchedWord (s : State) : s.popped.latchedWord = s.latchedWord := rfl

/-- The core moves next iff its turn heads the schedule or nothing is scheduled (log 1). -/
theorem coreIsNext_iff (s : State) :
    s.coreIsNext = true ↔ s.schedule = [] ∨ s.schedule.head? = some .core := by
  cases hs : s.schedule with
  | nil => simp [State.coreIsNext, hs]
  | cons e rest => cases e <;> simp [State.coreIsNext, hs]

/-! ## Window accesses -/

@[simp] theorem memWrite_statusAddr (s : State) (v : Word) : memWrite s statusAddr v = s := by
  simp [memWrite, statusAddr_ne_cmdAddr]

/-- A window write reaches the registers, CMD, BUSY and the pending command at most (20_memory.md R43). -/
theorem memWrite_writes (s : State) (a : WAddr) (v : Word) :
    ∃ f c b p, memWrite s a v = { s with regs := f, cmd := c, busy := b, pending := p } := by
  rcases memWrite_cases s a v with ⟨_, h⟩ | ⟨_, h⟩ | ⟨_, _, h⟩ <;> exact ⟨_, _, _, _, h⟩

@[simp] theorem memWrite_faultMark (s : State) (a : WAddr) (v : Word) : (memWrite s a v).faultMark = s.faultMark := by
  obtain ⟨_, _, _, _, h⟩ := memWrite_writes s a v
  rw [h]

@[simp] theorem memWrite_z (s : State) (a : WAddr) (v : Word) : (memWrite s a v).z = s.z := by
  obtain ⟨_, _, _, _, h⟩ := memWrite_writes s a v
  rw [h]

@[simp] theorem memWrite_n (s : State) (a : WAddr) (v : Word) : (memWrite s a v).n = s.n := by
  obtain ⟨_, _, _, _, h⟩ := memWrite_writes s a v
  rw [h]

@[simp] theorem memWrite_cmp (s : State) (a : WAddr) (v : Word) : (memWrite s a v).cmp = s.cmp := by
  obtain ⟨_, _, _, _, h⟩ := memWrite_writes s a v
  rw [h]

/-- A window read other than of STATUS sees only CMD and the register its address names. -/
theorem memRead_congr {s t : State} {a : WAddr} (ha : a ≠ statusAddr) (hcmd : t.cmd = s.cmd)
    (hreg : isRegAddr a = true → t.reg (addrReg a) = s.reg (addrReg a)) : memRead t a = memRead s a := by
  cases h : isRegAddr a
  · simp [memRead, h, ha, hcmd]
  · simp [memRead, h, hreg h]

/-- An address that is none of a register's words names another register (20_memory.md R44). -/
theorem addrReg_ne_of_ne_regAddr {a : WAddr} {i : RegIdx} (h : isRegAddr a = true) (hi : ∀ j, a ≠ regAddr i j) :
    addrReg a ≠ i := by
  rintro rfl
  exact hi (addrWord a) (regAddr_of_isRegAddr a h).symm

/-! ## The inversion of `exec` -/

/-- A command with one destination writes a value there and a code. -/
theorem exec_of_destinations_eq {i : Instr} {rd : RegIdx} (hd : destinations i = [rd]) (s : State) :
    ∃ v c, exec i s = .next (complete c (s.setReg rd v)) := by
  cases i with
  | addu | subu | mulu | adds | subs | muls | neg | ldc | mov => cases hd; exact ⟨_, _, rfl⟩
  | divu | divs | cmpu | cmps | tstz | tstn => simp [destinations] at hd

/-- Everything a command's rule can write: its destinations, or its one flag, and CODE. -/
inductive ExecCase (i : Instr) (s t : State) : Prop where
  /-- one result register -/
  | result (rd : RegIdx) (v : Value) (c : StatusCode) (hd : destinations i = [rd]) (ht : t = complete c (s.setReg rd v))
  /-- a divide with a quotient and a remainder -/
  | quotient (rd rd2 : RegIdx) (q r : Value) (c : StatusCode) (hd : destinations i = [rd, rd2])
      (ht : t = complete c ((s.setReg rd q).setReg rd2 r))
  /-- a divide that writes its code alone -/
  | raised (c : StatusCode) (ht : t = raiseStatus c s)
  | cmpu (r1 r2 : RegIdx) (hi : i = .cmpu r1 r2)
      (ht : t = complete .ok { s with cmp := compareUnsigned (s.operand r1) (s.operand r2) })
  | cmps (r1 r2 : RegIdx) (hi : i = .cmps r1 r2)
      (ht : t = complete .ok { s with cmp := compareSigned (s.operand r1) (s.operand r2) })
  | tstz (r : RegIdx) (hi : i = .tstz r) (ht : t = complete .ok { s with z := isZero (s.operand r) })
  | tstn (r : RegIdx) (hi : i = .tstn r) (ht : t = complete .ok { s with n := sign (s.operand r) })

theorem ExecCase.of_one {i : Instr} {rd : RegIdx} {s t : State} (hd : destinations i = [rd]) (h : exec i s = .next t) :
    ExecCase i s t := by
  obtain ⟨v, c, hx⟩ := exec_of_destinations_eq hd s
  rw [hx] at h
  cases h
  exact .result rd v c hd rfl

theorem ExecCase.of_finishDivide {i : Instr} {rd rd2 : RegIdx} {b q r : Value} {c : StatusCode} {s t : State}
    (hd : destinations i = [rd, rd2]) (h : finishDivide rd rd2 b q r c s = .next t) : ExecCase i s t := by
  rcases finishDivide_cases rd rd2 b q r c s with ⟨_, hx⟩ | ⟨_, _, hx⟩ | ⟨_, _, hx⟩ <;> rw [hx] at h <;> cases h
  · exact .raised _ rfl
  · exact .raised _ rfl
  · exact .quotient rd rd2 q r c hd rfl

/-- The inversion of `exec`. -/
theorem exec_cases {i : Instr} {s t : State} (h : exec i s = .next t) : ExecCase i s t := by
  cases i with
  | addu | subu | mulu | adds | subs | muls | neg | ldc | mov => exact .of_one rfl h
  | divu | divs => exact .of_finishDivide rfl h
  | cmpu r1 r2 => cases h; exact .cmpu r1 r2 rfl rfl
  | cmps r1 r2 => cases h; exact .cmps r1 r2 rfl rfl
  | tstz r => cases h; exact .tstz r rfl rfl
  | tstn r => cases h; exact .tstn r rfl rfl

/-- A register that is no destination keeps its value (10_state.md §1). -/
theorem exec_reg_of_not_mem {i : Instr} {s t : State} {j : RegIdx} (h : exec i s = .next t) (hj : j ∉ destinations i) :
    t.reg j = s.reg j := by
  cases exec_cases h with
  | result rd v c hd ht =>
    have hne : j ≠ rd := by simpa [hd] using hj
    simp [ht, State.reg_setReg, hne]
  | quotient rd rd2 q r c hd ht =>
    have hne : j ≠ rd ∧ j ≠ rd2 := by simpa [hd] using hj
    simp [ht, State.reg_setReg, hne]
  | raised c ht => simp [ht]
  | cmpu _ _ _ ht | cmps _ _ _ ht | tstz _ _ ht | tstn _ _ ht => rw [ht]; rfl

/-- Z is TSTZ's alone (R29). -/
theorem exec_z {i : Instr} {s t : State} (h : exec i s = .next t) :
    t.z = s.z ∨ ∃ r, i = .tstz r ∧ t.z = isZero (s.operand r) := by
  cases exec_cases h with
  | tstz r hi ht => exact .inr ⟨r, hi, by rw [ht]; rfl⟩
  | result _ _ _ _ ht | quotient _ _ _ _ _ _ ht | raised _ ht | cmpu _ _ _ ht | cmps _ _ _ ht | tstn _ _ ht =>
    exact .inl (by rw [ht]; rfl)

/-- N is TSTN's alone (R30). -/
theorem exec_n {i : Instr} {s t : State} (h : exec i s = .next t) :
    t.n = s.n ∨ ∃ r, i = .tstn r ∧ t.n = sign (s.operand r) := by
  cases exec_cases h with
  | tstn r hi ht => exact .inr ⟨r, hi, by rw [ht]; rfl⟩
  | result _ _ _ _ ht | quotient _ _ _ _ _ _ ht | raised _ ht | cmpu _ _ _ ht | cmps _ _ _ ht | tstz _ _ ht =>
    exact .inl (by rw [ht]; rfl)

/-- CMP is CMPU's and CMPS's alone (R31). -/
theorem exec_cmp {i : Instr} {s t : State} (h : exec i s = .next t) :
    t.cmp = s.cmp ∨ ∃ r1 r2,
      (i = .cmpu r1 r2 ∧ t.cmp = compareUnsigned (s.operand r1) (s.operand r2)) ∨
      (i = .cmps r1 r2 ∧ t.cmp = compareSigned (s.operand r1) (s.operand r2)) := by
  cases exec_cases h with
  | cmpu r1 r2 hi ht => exact .inr ⟨r1, r2, .inl ⟨hi, by rw [ht]; rfl⟩⟩
  | cmps r1 r2 hi ht => exact .inr ⟨r1, r2, .inr ⟨hi, by rw [ht]; rfl⟩⟩
  | result _ _ _ _ ht | quotient _ _ _ _ _ _ ht | raised _ ht | tstz _ _ ht | tstn _ _ ht =>
    exact .inl (by rw [ht]; rfl)

/-- What the completion step runs: nothing but the illegal code, or the decoded command's rule (30_encoding.md R66). -/
theorem runDecoded_cases {d : Decoded} {s u : State} (h : runDecoded d s = .next u) :
    u = raiseStatus .illegalCommand s ∨ ∃ i, d = .legal i ∧ exec i s = .next u := by
  cases d with
  | illegal why => cases h; exact .inl rfl
  | legal i => exact .inr ⟨i, rfl, h⟩

end Sys2Proof.Machine
end

section
/-! PROOFS. The invariant (10_state.md R23, R27, R35; 60_exceptions.md R200). -/

namespace Sys2Proof.Machine

/-- With nothing pending the invariant asks only that BUSY is 0 and CODE is the block's. -/
theorem State.Inv.of_not_pending {s : State} (hb : s.busy = false) (hp : s.pending = none)
    (hc : s.code.ofBlock = true) : s.Inv :=
  ⟨by simp [hb, hp], by simp [hp], by simp [hp], hc⟩

/-- With BUSY = 0 nothing is pending. -/
theorem State.Inv.pending_of_idle {s : State} (h : s.Inv) (hb : s.busy = false) : s.pending = none := by
  simpa [hb] using h.busy_pending

/-- The invariant speaks of the block alone: not of the fault mark, the draws, the schedule or the responses. -/
theorem State.Inv.congr {s t : State} (h : s.Inv) (hregs : t.regs = s.regs) (hcmd : t.cmd = s.cmd)
    (hbusy : t.busy = s.busy) (hpending : t.pending = s.pending) (hcode : t.code = s.code) : t.Inv := by
  constructor
  · rw [hbusy, hpending]; exact h.busy_pending
  · rw [hcmd, hpending]; exact h.latched_word
  · rw [hregs, hpending]; exact h.latched_regs
  · rw [hcode]; exact h.block_code

/-- A CMD write latches CMD and the registers as they are (R23). -/
theorem State.Inv.issueCommand {s : State} (h : s.Inv) (c : Command) : (issueCommand s c).Inv :=
  ⟨rfl, by simp, by simp, h.block_code⟩

/-- A window write with BUSY = 0 keeps the invariant. -/
theorem State.Inv.memWrite {s : State} (h : s.Inv) (hb : s.busy = false) (a : WAddr) (v : Word) :
    (memWrite s a v).Inv := by
  rcases memWrite_cases s a v with ⟨_, hw⟩ | ⟨_, hw⟩ | ⟨_, _, hw⟩ <;> rw [hw]
  · exact .of_not_pending hb (h.pending_of_idle hb) h.block_code
  · exact h.issueCommand v
  · exact h

/-- Settles O12: by the inversion of `step`; a completion and a reset leave nothing pending, a CMD write latches what it
finds, and every other step leaves the block's control state alone. -/
theorem stepKeepsTheInvariant : Obligations.StepKeepsTheInvariant := by
  intro s t hs h
  have hpop : s.popped.Inv := hs.congr rfl rfl rfl rfl rfl
  cases step_cases h with
  | idle _ _ ht => exact ht ▸ hpop
  | complete _ _ u _ hk ht => exact ht ▸ .of_not_pending rfl rfl hk.code
  | read _ _ _ _ ht => exact ht ▸ hpop.congr rfl rfl rfl rfl rfl
  | busyRead _ _ _ ht => exact ht ▸ hpop.congr rfl rfl rfl rfl rfl
  | write a v _ _ hb ht => exact ht ▸ hpop.memWrite hb a v
  | reset _ _ ht => exact ht ▸ .of_not_pending rfl rfl rfl

/-- Settles O13: the latched register file and word are those of the invariant; with nothing pending the reading falls back
on the registers and CMD (log 6). -/
theorem latchedOperandsAreTheRegisters : Obligations.LatchedOperandsAreTheRegisters := by
  intro s hs
  cases hp : s.pending with
  | none => exact ⟨fun i => by simp [State.operand, State.reg, hp], by simp [State.latchedWord, hp]⟩
  | some p =>
    have hregs := hs.latched_regs p hp
    have hword := hs.latched_word p hp
    exact ⟨fun i => by simp [State.operand, State.reg, hp, hregs], by simp [State.latchedWord, hp, hword]⟩

end Sys2Proof.Machine
end

section
/-! PROOFS. The fault mark (10_state.md R36; 70_reset_and_hazards.md R230). -/

namespace Sys2Proof.Machine

/-- The core's turn never stops (60_exceptions.md R203). -/
theorem coreTurn_next (s : State) : ∃ t, coreTurn s = .next t := by
  cases hb : s.busy
  · exact ⟨s, coreTurn_of_idle hb⟩
  · obtain ⟨u, _, _, hn⟩ := completePending_next s
    exact ⟨retire u, by rw [coreTurn_of_busy hb, hn]⟩

theorem hostRead_fault {s : State} {a : WAddr} {r : Fault} (h : hostRead a s = .fault r) :
    s.busy = true ∧ r = .protocolViolation (.read a) { s with faultMark := true } := by
  simp only [hostRead, violate] at h
  split at h
  next hb =>
    split at h <;> cases h
    exact ⟨hb, rfl⟩
  next => cases h

theorem hostWrite_fault {s : State} {a : WAddr} {v : Word} {r : Fault} (h : hostWrite a v s = .fault r) :
    s.busy = true ∧ r = .protocolViolation (.write a v) { s with faultMark := true } := by
  simp only [hostWrite, violate] at h
  split at h <;> cases h
  next hb => exact ⟨hb, rfl⟩

/-- The inversion of a faulting step: a host access with BUSY = 1, and the state with the mark set. -/
theorem step_fault_cases {s : State} {r : Fault} (h : step s = .fault r) :
    s.busy = true ∧ ∃ e rest, s.schedule = e :: rest ∧
      r = .protocolViolation e { s.popped with faultMark := true } := by
  have hcore : coreTurn s.popped ≠ .fault r := by
    obtain ⟨t, ht⟩ := coreTurn_next s.popped
    simp [ht]
  cases hs : s.schedule with
  | nil => exact absurd (step_of_coreIsNext ((coreIsNext_iff s).2 (.inl hs)) ▸ h) hcore
  | cons e rest =>
    rw [step_cons hs] at h
    cases e with
    | read a => exact (hostRead_fault h).imp_right fun hr => ⟨.read a, rest, rfl, hr⟩
    | write a v => exact (hostWrite_fault h).imp_right fun hr => ⟨.write a v, rest, rfl, hr⟩
    | reset => cases h
    | core => exact absurd h hcore

/-- Settles O23: no next step writes the mark, and a fault carries the state with it set, which a reset keeps. -/
theorem faultMarkIsNeverCleared : Obligations.FaultMarkIsNeverCleared := by
  refine fun s => ⟨fun t h => ?_, fun r h => ?_⟩
  · cases step_cases h with
    | idle _ _ ht => rw [ht]; rfl
    | complete _ _ u _ hk ht => rw [ht, retire_faultMark, hk.faultMark, popped_faultMark]
    | read _ _ _ _ ht => rw [ht]; rfl
    | busyRead _ _ _ ht => rw [ht]; rfl
    | write _ _ _ _ _ ht => rw [ht, memWrite_faultMark, popped_faultMark]
    | reset _ _ ht => rw [ht]; rfl
  · obtain ⟨_, e, rest, _, rfl⟩ := step_fault_cases h
    rfl

end Sys2Proof.Machine
end

section
/-! PROOFS. Who writes what, in whole-machine terms (10_state.md §1). -/

set_option exponentiation.threshold 600

namespace Sys2Proof.Machine

/-! ## The orders CMPU and CMPS leave (40_unsigned.md R108, 41_signed.md R126) -/

/-- The order of two numbers as a compare result. -/
def orderFlag (m n : Int) : CmpFlag := if m > n then .greater else if m = n then .equal else .less

theorem orderFlag_congr {m n m' n' : Int} (hgt : m > n ↔ m' > n') (heq : m = n ↔ m' = n') :
    orderFlag m n = orderFlag m' n' := by simp only [orderFlag, hgt, heq]

theorem orderFlag_of_gt {m n : Int} (h : n < m) : orderFlag m n = .greater := by simp [orderFlag, h]

theorem orderFlag_of_lt {m n : Int} (h : m < n) : orderFlag m n = .less := by
  simp [orderFlag, h.ne, h.not_gt]

theorem orderFlag_natCast (m n : Nat) :
    orderFlag m n = if m > n then .greater else if m = n then .equal else .less := by simp [orderFlag]

/-- A higher word decides the order unless it is the same in both values. -/
theorem compareWords_cons {a b : Value} {i : WordIdx} {rest : List WordIdx}
    (h : compareWords a b rest = orderFlag (uval a % 2 ^ (64 * i.val) : Nat) (uval b % 2 ^ (64 * i.val) : Nat)) :
    compareWords a b (i :: rest)
      = orderFlag (uval a % 2 ^ (64 * (i.val + 1)) : Nat) (uval b % 2 ^ (64 * (i.val + 1)) : Nat) := by
  rw [pow_word_succ, uval_mod_succ, uval_mod_succ]
  have hx := Nat.mod_lt (uval a) (Nat.two_pow_pos (64 * i.val))
  have hy := Nat.mod_lt (uval b) (Nat.two_pow_pos (64 * i.val))
  rcases lt_trichotomy (word a i).toNat (word b i).toNat with hlt | heq | hgt
  · have hne : word a i ≠ word b i := fun e => by simp [e] at hlt
    have hmul := Nat.mul_le_mul_right (2 ^ (64 * i.val)) (Nat.succ_le_of_lt hlt)
    rw [Nat.succ_mul] at hmul
    rw [orderFlag_of_lt (by omega)]
    simp [compareWords, hne, hlt.not_gt]
  · rw [heq]
    simp only [compareWords, BitVec.eq_of_toNat_eq heq, ne_eq, not_true_eq_false, if_false, h]
    exact orderFlag_congr (by omega) (by omega)
  · have hne : word a i ≠ word b i := fun e => by simp [e] at hgt
    have hmul := Nat.mul_le_mul_right (2 ^ (64 * i.val)) (Nat.succ_le_of_lt hgt)
    rw [Nat.succ_mul] at hmul
    rw [orderFlag_of_gt (by omega)]
    simp [compareWords, hne, hgt]

/-- R108: the unsigned compare is the order of the unsigned readings. -/
theorem compareUnsigned_eq_orderFlag (a b : Value) : compareUnsigned a b = orderFlag (uval a) (uval b) := by
  have h0 : compareWords a b [] = orderFlag (uval a % 2 ^ 0 : Nat) (uval b % 2 ^ 0 : Nat) := by
    simp [compareWords, orderFlag, Nat.mod_one]
  have h4 : compareWords a b [3, 2, 1, 0] = orderFlag (uval a % 2 ^ 256 : Nat) (uval b % 2 ^ 256 : Nat) :=
    compareWords_cons (i := 3) (compareWords_cons (i := 2) (compareWords_cons (i := 1) (compareWords_cons (i := 0) h0)))
  have h8 : compareUnsigned a b = orderFlag (uval a % 2 ^ 512 : Nat) (uval b % 2 ^ 512 : Nat) :=
    compareWords_cons (i := 7) (compareWords_cons (i := 6) (compareWords_cons (i := 5) (compareWords_cons (i := 4) h4)))
  rwa [Nat.mod_eq_of_lt (uval_lt a), Nat.mod_eq_of_lt (uval_lt b)] at h8

/-- R126: the signed compare is the order of the signed readings. -/
theorem compareSigned_eq_orderFlag (a b : Value) : compareSigned a b = orderFlag (sval a) (sval b) := by
  have hua := uval_lt a
  have hub := uval_lt b
  rcases sval_cases a with ⟨ha, _, hva⟩ | ⟨ha, _, hva⟩ <;> rcases sval_cases b with ⟨hb, _, hvb⟩ | ⟨hb, _, hvb⟩
  · simp [compareSigned, ha, hb, hva, hvb, compareUnsigned_eq_orderFlag]
  · rw [orderFlag_of_gt (by omega)]
    simp [compareSigned, ha, hb]
  · rw [orderFlag_of_lt (by omega)]
    simp [compareSigned, ha, hb]
  · simp only [compareSigned, ha, hb, compareUnsigned_eq_orderFlag]
    exact orderFlag_congr (by omega) (by omega)

/-- R109: the zero test asks every word. -/
theorem isZero_iff (a : Value) : isZero a = true ↔ ∀ j, word a j = 0 := by
  simp only [isZero, List.all_eq_true, beq_iff_eq]
  exact ⟨fun h j => h j (by revert j; decide), fun h j _ => h j⟩

/-! ## The three whole-machine rules -/

/-- The completion step as the statements spell it: BUSY = 1 and the core moves. -/
def State.completesNext (s : State) : Prop := s.busy = true ∧ (s.schedule = [] ∨ s.schedule.head? = some .core)

/-- The flags are written by a reset, or by the rule of the command that completes (R29 to R31, R222). -/
theorem step_flags_cases {s t : State} (h : step s = .next t) :
    (t.z = s.z ∧ t.n = s.n ∧ t.cmp = s.cmp) ∨
    (s.schedule.head? = some .reset ∧ t.z = false ∧ t.n = false ∧ t.cmp = .equal) ∨
    (s.completesNext ∧ ∃ i u, decode s.latchedWord = .legal i ∧ exec i s.popped = .next u ∧ t = retire u) := by
  cases step_cases h with
  | idle _ _ ht => exact .inl (by simp [ht])
  | complete hc hb u hu _ ht =>
    rcases runDecoded_cases hu with rfl | ⟨i, hi, hx⟩
    · exact .inl (by simp [ht])
    · exact .inr (.inr ⟨⟨hb, (coreIsNext_iff s).1 hc⟩, i, u, hi, hx, ht⟩)
  | read _ _ _ _ ht => exact .inl (by simp [ht])
  | busyRead _ _ _ ht => exact .inl (by simp [ht])
  | write _ _ _ _ _ ht => exact .inl (by simp [ht])
  | reset _ hs ht => exact .inr (.inl (by simp [hs, ht]))

/-- Settles O25: what the flags can be written by, and for a completing command which flag is its own. -/
theorem flagsAreWrittenOnlyByTheirCommands : Obligations.FlagsAreWrittenOnlyByTheirCommands := by
  intro s t h
  rcases step_flags_cases h with ⟨hz, hn, hcmp⟩ | ⟨hr, hz, hn, hcmp⟩ | ⟨⟨hb, hc⟩, i, u, hi, hx, rfl⟩
  · exact ⟨absurd hz, absurd hn, absurd hcmp⟩
  · exact ⟨fun _ => .inl ⟨hr, hz⟩, fun _ => .inl ⟨hr, hn⟩, fun _ => .inl ⟨hr, hcmp⟩⟩
  · refine ⟨fun hne => .inr ⟨hb, hc, ?_⟩, fun hne => .inr ⟨hb, hc, ?_⟩, fun hne => .inr ⟨hb, hc, ?_⟩⟩
    · obtain ⟨r, rfl, hz⟩ := (exec_z hx).resolve_left hne
      exact ⟨r, hi, by rw [retire_z, hz, isZero_iff]; rfl⟩
    · obtain ⟨r, rfl, hn⟩ := (exec_n hx).resolve_left hne
      exact ⟨r, hi, hn⟩
    · obtain ⟨r1, r2, ⟨rfl, hcmp⟩ | ⟨rfl, hcmp⟩⟩ := (exec_cmp hx).resolve_left hne
      · exact ⟨r1, r2, .inl ⟨hi, by rw [retire_cmp, hcmp, compareUnsigned_eq_orderFlag, orderFlag_natCast]; rfl⟩⟩
      · exact ⟨r1, r2, .inr ⟨hi, by rw [retire_cmp, hcmp, compareSigned_eq_orderFlag]; rfl⟩⟩

/-- Settles O26: of the steps, only a register word's write, a reset and a command's completion reach a value register. -/
theorem registersAreWrittenOnlyByTheirWriters : Obligations.RegistersAreWrittenOnlyByTheirWriters := by
  intro s t j h hne
  cases step_cases h with
  | idle _ _ ht => exact absurd (by simp [ht]) hne
  | complete hc hb u hu _ ht =>
    rcases runDecoded_cases hu with rfl | ⟨i, hi, hx⟩
    · exact absurd (by simp [ht]) hne
    · refine .inr (.inr ⟨hb, (coreIsNext_iff s).1 hc, i, hi, ?_⟩)
      by_contra hj
      exact hne (by rw [ht, retire_reg, exec_reg_of_not_mem hx hj, popped_reg])
  | read _ _ _ _ ht => exact absurd (by simp [ht]) hne
  | busyRead _ _ _ ht => exact absurd (by simp [ht]) hne
  | write a v _ hs hb ht =>
    rcases memWrite_cases s.popped a v with ⟨ha, hw⟩ | ⟨_, hw⟩ | ⟨_, _, hw⟩
    · have hj : j = addrReg a := by
        by_contra hj
        exact hne (by simp [ht, hw, State.reg_setReg, hj])
      subst hj
      exact .inl ⟨hb, addrWord a, v, by rw [hs, regAddr_of_isRegAddr a ha]; rfl, by simp [ht, hw]⟩
    · exact absurd (by simp [ht, hw]) hne
    · exact absurd (by simp [ht, hw]) hne
  | reset _ hs ht => exact .inr (.inl (by simp [hs, ht]))

/-- A window write with BUSY = 0 changes CMD and BUSY only as the CMD write. -/
theorem memWrite_cmd_busy (s : State) (a : WAddr) (v : Word) :
    ((memWrite s a v).cmd = s.cmd ∧ (memWrite s a v).busy = s.busy) ∨
    (a = cmdAddr ∧ (memWrite s a v).cmd = v ∧ (memWrite s a v).busy = true) := by
  rcases memWrite_cases s a v with ⟨_, h⟩ | ⟨ha, h⟩ | ⟨_, _, h⟩
  · exact .inl (by simp [h])
  · exact .inr ⟨ha, by simp [h]⟩
  · exact .inl (by simp [h])

/-- What a step does to CMD and BUSY (R23, R27, R204). -/
inductive ProtocolCase (s t : State) : Prop where
  /-- neither changes, and the core's turn, if it is next, finds BUSY = 0 -/
  | held (hcmd : t.cmd = s.cmd) (hbusy : t.busy = s.busy)
      (hcore : s.schedule = [] ∨ s.schedule.head? = some .core → s.busy = false)
  /-- the host writes CMD -/
  | issued (hb : s.busy = false) (hs : s.schedule.head? = some (.write cmdAddr t.cmd))
  /-- the core completes -/
  | completed (hc : s.completesNext) (hcmd : t.cmd = s.cmd) (hbusy : t.busy = false)
  | reset (hs : s.schedule.head? = some .reset) (hcmd : t.cmd = 0) (hbusy : t.busy = false)

theorem step_protocol_cases {s t : State} (h : step s = .next t) : ProtocolCase s t := by
  cases step_cases h with
  | idle _ hb ht => exact .held (by simp [ht]) (by simp [ht]) fun _ => hb
  | complete hc hb u _ hk ht =>
    exact .completed ⟨hb, (coreIsNext_iff s).1 hc⟩ (by simp [ht, hk.cmd]) (by simp [ht])
  | read _ _ _ hb ht => exact .held (by simp [ht]) (by simp [ht]) fun _ => hb
  | busyRead _ hs _ ht => exact .held (by simp [ht]) (by simp [ht]) (by simp [hs])
  | write a v _ hs hb ht =>
    rcases memWrite_cmd_busy s.popped a v with ⟨hcmd, hbusy⟩ | ⟨rfl, hcmd, _⟩
    · exact .held (by rw [ht, hcmd]; rfl) (by rw [ht, hbusy]; rfl) fun _ => hb
    · exact .issued hb (by rw [hs, ht, hcmd]; rfl)
  | reset _ hs ht => exact .reset (by simp [hs]) (by simp [ht]) (by simp [ht])

/-- Settles O27: the four clauses are read off the four things a step does to CMD and BUSY. -/
theorem cmdAndBusyFollowTheProtocol : Obligations.CmdAndBusyFollowTheProtocol := by
  intro s t h
  cases step_protocol_cases h with
  | held hcmd hbusy hcore =>
    exact ⟨absurd hcmd, by simp +contextual [hbusy], by simp +contextual [hbusy], fun _ hc => hbusy.trans (hcore hc)⟩
  | issued hb hs => exact ⟨fun _ => .inl ⟨hb, hs⟩, fun _ _ => hs, by simp [hb], by simp [hb]⟩
  | completed hc hcmd hbusy =>
    exact ⟨absurd hcmd, by simp [hbusy], fun _ _ => hc.2.imp_right .inl, fun _ _ => hbusy⟩
  | reset hs hcmd hbusy =>
    exact ⟨fun _ => .inr ⟨hs, hcmd⟩, by simp [hbusy], fun _ _ => .inr (.inr hs), fun _ _ => hbusy⟩

/-! ## The frame of the commands with one result -/

/-- Settles O46: a command with one destination writes that register and CODE and no more, and the window shows no other
change. -/
theorem frameOfOneResultCommands : Obligations.FrameOfOneResultCommands := by
  intro rd rs1 rs2 k s t i hmem h
  have hd : destinations i = [rd] := by
    simp only [List.mem_cons, List.not_mem_nil, or_false] at hmem
    rcases hmem with rfl | rfl | rfl | rfl | rfl | rfl | rfl | rfl | rfl <;> rfl
  obtain ⟨v, c, hx⟩ := exec_of_destinations_eq hd s
  rw [hx] at h
  cases h
  have hreg : ∀ j, j ≠ rd → (complete c (s.setReg rd v)).reg j = s.reg j := fun j hj => by
    simp [State.reg_setReg, hj]
  refine ⟨hreg, rfl, rfl, rfl, rfl, rfl, rfl, rfl, rfl, rfl, rfl, fun a ha hne => ?_⟩
  exact memRead_congr ha rfl fun hra => hreg _ (addrReg_ne_of_ne_regAddr hra hne)

end Sys2Proof.Machine
end

section
/-! PROOFS. The fields of an assembled word and the decoder on it (30_encoding.md R61, R66, R71). -/

namespace Sys2Proof

open Machine

/-- A field put above everything below it adds its number at its place. -/
theorem toNat_or_shiftLeft (x y : Command) (k : Nat) (hx : x.toNat < 2 ^ k) (hy : y.toNat * 2 ^ k < 2 ^ 64) :
    (x ||| y <<< k).toNat = x.toNat + y.toNat * 2 ^ k := by
  rw [BitVec.toNat_or, BitVec.toNat_shiftLeft, Nat.shiftLeft_eq, Nat.mod_eq_of_lt hy, Nat.or_comm, Nat.mul_comm,
    ← Nat.two_pow_add_eq_or_of_lt hx, Nat.add_comm]

/-- R71: the assembled word as a number, each field at the weight of its lowest bit. -/
theorem toNat_assemble (op : Opcode) (rd rd2 rs1 rs2 : RegIdx) (k : BitVec 3) :
    (assemble op rd rd2 rs1 rs2 k).toNat = op.byte.toNat + rd.val * 2 ^ 8 + rd2.val * 2 ^ 11 + rs1.val * 2 ^ 14
      + rs2.val * 2 ^ 17 + k.toNat * 2 ^ 20 := by
  have hop : op.byte.toNat < 2 ^ 8 := op.byte.isLt
  have hk : k.toNat < 2 ^ 3 := k.isLt
  have hreg : ∀ r : RegIdx, (BitVec.ofNat 64 r.val).toNat = r.val := by decide
  have hopw : (op.byte.setWidth 64 : Command).toNat = op.byte.toNat := BitVec.toNat_setWidth_of_le (by decide)
  have hkw : (k.setWidth 64 : Command).toNat = k.toNat := BitVec.toNat_setWidth_of_le (by decide)
  have h1 := toNat_or_shiftLeft (op.byte.setWidth 64) (.ofNat 64 rd.val) 8 (by omega) (by rw [hreg]; omega)
  have h2 := toNat_or_shiftLeft _ (.ofNat 64 rd2.val) 11 (by rw [h1, hopw, hreg]; omega) (by rw [hreg]; omega)
  have h3 := toNat_or_shiftLeft _ (.ofNat 64 rs1.val) 14 (by rw [h2, h1, hopw, hreg, hreg]; omega) (by rw [hreg]; omega)
  have h4 := toNat_or_shiftLeft _ (.ofNat 64 rs2.val) 17 (by rw [h3, h2, h1, hopw, hreg, hreg, hreg]; omega)
    (by rw [hreg]; omega)
  have h5 := toNat_or_shiftLeft _ (k.setWidth 64) 20 (by rw [h4, h3, h2, h1, hopw, hreg, hreg, hreg, hreg]; omega)
    (by rw [hkw]; omega)
  rw [assemble, h5, h4, h3, h2, h1, hopw, hkw, hreg, hreg, hreg, hreg]

/-! ## The fields of an assembled word (R61) -/

section
variable (op : Opcode) (rd rd2 rs1 rs2 : RegIdx) (k : BitVec 3)

/-- A bit field of an assembled word as a number. -/
theorem toNat_extract_assemble (lo len : Nat) :
    ((assemble op rd rd2 rs1 rs2 k).extractLsb' lo len).toNat
      = (op.byte.toNat + rd.val * 2 ^ 8 + rd2.val * 2 ^ 11 + rs1.val * 2 ^ 14 + rs2.val * 2 ^ 17 + k.toNat * 2 ^ 20)
        / 2 ^ lo % 2 ^ len := by
  rw [BitVec.extractLsb'_toNat, toNat_assemble, Nat.shiftRight_eq_div_pow]

@[simp] theorem opcodeByte_assemble : (assemble op rd rd2 rs1 rs2 k).extractLsb' 0 8 = op.byte := by
  apply BitVec.eq_of_toNat_eq
  have := op.byte.isLt
  rw [toNat_extract_assemble]
  omega

@[simp] theorem rdField_assemble : rdField (assemble op rd rd2 rs1 rs2 k) = rd := by
  apply Fin.ext
  have := op.byte.isLt
  simp only [rdField, regField, toNat_extract_assemble]
  omega

@[simp] theorem rd2Field_assemble : rd2Field (assemble op rd rd2 rs1 rs2 k) = rd2 := by
  apply Fin.ext
  have := op.byte.isLt
  simp only [rd2Field, regField, toNat_extract_assemble]
  omega

@[simp] theorem rs1Field_assemble : rs1Field (assemble op rd rd2 rs1 rs2 k) = rs1 := by
  apply Fin.ext
  have := op.byte.isLt
  simp only [rs1Field, regField, toNat_extract_assemble]
  omega

@[simp] theorem rs2Field_assemble : rs2Field (assemble op rd rd2 rs1 rs2 k) = rs2 := by
  apply Fin.ext
  have := op.byte.isLt
  simp only [rs2Field, regField, toNat_extract_assemble]
  omega

@[simp] theorem kField_assemble : kField (assemble op rd rd2 rs1 rs2 k) = k := by
  apply BitVec.eq_of_toNat_eq
  have := op.byte.isLt
  have := k.isLt
  simp only [kField, toNat_extract_assemble]
  omega

end

/-! ## Decoding what was encoded -/

@[simp] theorem opcodeOfByte_byte (op : Opcode) : opcodeOfByte op.byte = some op := by cases op <;> rfl

@[simp] theorem namedConstOfSelector_selector (k : NamedConst) : namedConstOfSelector k.selector = some k := by
  cases k <;> rfl

/-- The low byte of a command's word is its opcode (R65, R71). -/
theorem opcodeByte_encode (i : Instr) : (encode i).extractLsb' 0 8 = i.opcode.byte := by
  cases i <;> exact opcodeByte_assemble _ _ _ _ _ _

/-- Every command's word matches its row (R62), whichever the command. -/
theorem encode_and_mask (i : Instr) : encode i &&& i.opcode.format.mask = i.opcode.matchWord := by
  cases i with
  | addu rd rs1 rs2 => exact Laws.EncodeMatches.addu rd rs1 rs2
  | subu rd rs1 rs2 => exact Laws.EncodeMatches.subu rd rs1 rs2
  | mulu rd rs1 rs2 => exact Laws.EncodeMatches.mulu rd rs1 rs2
  | divu rd rd2 rs1 rs2 => exact Laws.EncodeMatches.divu rd rd2 rs1 rs2
  | cmpu rs1 rs2 => exact Laws.EncodeMatches.cmpu rs1 rs2
  | tstz rs1 => exact Laws.EncodeMatches.tstz rs1
  | adds rd rs1 rs2 => exact Laws.EncodeMatches.adds rd rs1 rs2
  | subs rd rs1 rs2 => exact Laws.EncodeMatches.subs rd rs1 rs2
  | muls rd rs1 rs2 => exact Laws.EncodeMatches.muls rd rs1 rs2
  | divs rd rd2 rs1 rs2 => exact Laws.EncodeMatches.divs rd rd2 rs1 rs2
  | cmps rs1 rs2 => exact Laws.EncodeMatches.cmps rs1 rs2
  | tstn rs1 => exact Laws.EncodeMatches.tstn rs1
  | neg rd rs1 => exact Laws.EncodeMatches.neg rd rs1
  | ldc rd k => exact Laws.EncodeMatches.ldc rd k
  | mov rd rs1 => exact Laws.EncodeMatches.mov rd rs1

/-- The fields of a command's word give the command back, R67's check aside. -/
theorem decodeFields_encode (i : Instr) (h : i.wellFormed = true) : decodeFields i.opcode (encode i) = .legal i := by
  cases i with
  | divu rd rd2 rs1 rs2 | divs rd rd2 rs1 rs2 =>
    have hne : rd ≠ rd2 := by simpa [Instr.wellFormed] using h
    simp [Instr.opcode, encode, decodeFields, decodeDivide, hne]
  | ldc rd k => simp [Instr.opcode, encode, decodeFields, decodeLoadConstant]
  | addu | subu | mulu | adds | subs | muls | cmpu | cmps | tstz | tstn | neg | mov =>
    simp [Instr.opcode, encode, decodeFields]

/-- Decoding the word of a well-formed command gives the command back (R66, R71). -/
theorem decode_encode (i : Instr) (h : i.wellFormed = true) : decode (encode i) = .legal i := by
  simp [decode, opcodeByte_encode, encode_and_mask, decodeFields_encode i h]

end Sys2Proof
end

section
/-! PROOFS. A command's issue and completion (10_state.md R23; 60_exceptions.md R204), and the STATUS word (10_state.md R25). -/

namespace Sys2Proof.Machine

/-- A host write with BUSY = 0 is the window write (20_memory.md R43). -/
theorem step_write {s : State} {a : WAddr} {v : Word} {rest : List Event} (hs : s.schedule = .write a v :: rest)
    (hb : s.busy = false) : step s = .next (memWrite { s with schedule := rest } a v) := by
  simp [step, hs, takeEvent, hostWrite, hb]

/-- The core's scheduled turn with a legal command latched is that command's rule, ended by the completion step (R204). -/
theorem step_core_legal {s : State} {i : Instr} {rest : List Event} (hs : s.schedule = .core :: rest)
    (hb : s.busy = true) (hi : decode s.latchedWord = .legal i) :
    step s = retireOutcome (exec i { s with schedule := rest }) :=
  calc step s = coreTurn { s with schedule := rest } := step_core (.inl hs)
    _ = completePending { s with schedule := rest } := coreTurn_of_busy hb
    _ = retireOutcome (exec i { s with schedule := rest }) := completePending_legal hi

/-- A run goes on from the state its first step answers. -/
theorem run_succ_of_next {s t : State} (h : step s = .next t) (k : Nat) :
    Host.Core.run Sys2Proof.core (k + 1) s = Host.Core.run Sys2Proof.core k t := by
  have hc : Sys2Proof.core.step s = .next t := h
  simp only [Host.Core.run, hc]

theorem run_one (s : State) : Host.Core.run Sys2Proof.core 1 s = step s := by
  change Host.Core.run Sys2Proof.core 1 s = Sys2Proof.core.step s
  simp only [Host.Core.run]
  cases Sys2Proof.core.step s <;> rfl

/-- Settles O8: the write issues the command, and the completion step decodes the word it latched. -/
theorem issuedCommandRuns : Obligations.IssuedCommandRuns := by
  intro s i rest hwf hb hs
  have hissue : step s = .next (issueCommand { s with schedule := .core :: rest } (encode i)) :=
    (step_write hs hb).trans (congrArg _ (memWrite_cmdAddr _ _))
  rw [run_succ_of_next hissue, run_one]
  exact step_core_legal rfl rfl (decode_encode i hwf)

/-! ## The fields of the STATUS word (R25): what lies below a field is cut off, then the field is the low part -/

theorem statusWord_bit_busy (s : State) : s.statusWord.getLsbD 0 = s.busy := by
  simp only [State.statusWord, BitVec.getLsbD_append]
  simp

theorem statusWord_bit_z (s : State) : s.statusWord.getLsbD 8 = s.z := by
  simp only [State.statusWord, BitVec.getLsbD_append]
  simp

theorem statusWord_bit_n (s : State) : s.statusWord.getLsbD 9 = s.n := by
  simp only [State.statusWord, BitVec.getLsbD_append]
  simp

/-- Bits 3:1 are reserved (R32). -/
theorem statusWord_reserved_low (s : State) : s.statusWord.extractLsb' 1 3 = 0 := by
  rw [State.statusWord, BitVec.extractLsb'_append_eq_of_le (by omega)]
  exact BitVec.extractLsb'_append_eq_right

theorem statusWord_code (s : State) : s.statusWord.extractLsb' 4 4 = s.code.bits := by
  rw [State.statusWord]
  iterate 2 rw [BitVec.extractLsb'_append_eq_of_le (by omega)]
  exact BitVec.extractLsb'_append_eq_right

theorem statusWord_cmp (s : State) : s.statusWord.extractLsb' 10 2 = s.cmp.bits := by
  rw [State.statusWord]
  iterate 5 rw [BitVec.extractLsb'_append_eq_of_le (by omega)]
  exact BitVec.extractLsb'_append_eq_right

/-- Bits 63:12 are reserved (R32). -/
theorem statusWord_reserved_high (s : State) : s.statusWord.extractLsb' 12 52 = 0 := by
  rw [State.statusWord]
  iterate 6 rw [BitVec.extractLsb'_append_eq_of_le (by omega)]
  exact BitVec.extractLsb'_eq_self

/-- Codes 8..15 are never written (R28). -/
theorem statusCode_bits_le (c : StatusCode) : c.bits.toNat ≤ 7 := by cases c <;> decide

/-- The pattern 10 is never written (R31). -/
theorem cmpFlag_bits_ne (c : CmpFlag) : c.bits ≠ 0b10 := by cases c <;> decide

/-- Settles O19: each field is cut out of the concatenation R25 gives, and a write to STATUS is none of the window's writes. -/
theorem statusRegisterLayout : Obligations.StatusRegisterLayout := fun s =>
  ⟨statusWord_bit_busy s, statusWord_reserved_low s, statusWord_code s, statusWord_bit_z s, statusWord_bit_n s,
    statusWord_cmp s, statusWord_reserved_high s, statusCode_bits_le s.code, cmpFlag_bits_ne s.cmp, memWrite_statusAddr s⟩

end Sys2Proof.Machine
end

section
/-! PROOFS. The host window with BUSY = 0 (20_memory.md R42 to R45). -/

namespace Sys2Proof.Machine

/-! ## The four ranges of the window's addresses (R41, R44) -/

theorem toNat_regAddr : ∀ (i : RegIdx) (j : WordIdx), (regAddr i j).toNat = 8 * i.val + j.val := by decide

theorem eq_regAddr_of_toNat {a : WAddr} {i : RegIdx} {j : WordIdx} (h : a.toNat = 8 * i.val + j.val) :
    a = regAddr i j := BitVec.eq_of_toNat_eq (h.trans (toNat_regAddr i j).symm)

theorem regAddr_inj {i i' : RegIdx} {j j' : WordIdx} : regAddr i j = regAddr i' j' ↔ i = i' ∧ j = j' := by
  refine ⟨fun h => ⟨?_, ?_⟩, fun ⟨hi, hj⟩ => by rw [hi, hj]⟩
  · simpa using congrArg addrReg h
  · simpa using congrArg addrWord h

theorem isRegAddr_of_le {a : WAddr} (h : 0x40 ≤ a.toNat) : isRegAddr a = false := by
  simpa [isRegAddr] using h

/-- STATUS and the reserved addresses ignore writes (R43, R45). -/
theorem memWrite_of_le {a : WAddr} (h : 0x41 ≤ a.toNat) (s : State) (v : Word) : memWrite s a v = s := by
  have hcmd : a ≠ cmdAddr := by rintro rfl; exact absurd h (by decide)
  simp [memWrite, isRegAddr_of_le (show 0x40 ≤ a.toNat by omega), hcmd]

/-- The reserved addresses read as 0 (R42, R45). -/
theorem memRead_of_le {a : WAddr} (h : 0x42 ≤ a.toNat) (s : State) : memRead s a = 0 := by
  have hcmd : a ≠ cmdAddr := by rintro rfl; exact absurd h (by decide)
  have hstatus : a ≠ statusAddr := by rintro rfl; exact absurd h (by decide)
  simp [memRead, isRegAddr_of_le (show 0x40 ≤ a.toNat by omega), hcmd, hstatus]

/-- Settles O20: above STATUS the window has neither a word to read nor one to write. -/
theorem reservedAddressesAreInert : Obligations.ReservedAddressesAreInert := fun s _ ha =>
  ⟨memRead_of_le ha s, memWrite_of_le (by omega) s⟩

/-! ## Host accesses with BUSY = 0 -/

/-- A host read with BUSY = 0 is the window read, and only the host keeps what it returned (R42, log 5). -/
theorem step_read {s : State} {a : WAddr} {rest : List Event} (hs : s.schedule = .read a :: rest)
    (hb : s.busy = false) : step s = .next (respond (memRead s a) { s with schedule := rest }) :=
  calc step s = hostRead a s.popped := step_cons hs
    _ = .next (respond (memRead s a) s.popped) := by simp only [hostRead, popped_busy, hb]; rfl
    _ = .next (respond (memRead s a) { s with schedule := rest }) := by simp only [State.popped, hs, List.tail_cons]

/-- Settles O15: the word a host read returns is the window read's, range by range. -/
theorem windowReadsFollowTheMap : Obligations.WindowReadsFollowTheMap := by
  intro s a rest hb hs
  refine ⟨memRead s a, step_read hs hb, fun i j ha => ?_, ?_, ?_, fun ha => memRead_of_le ha s⟩
  · rw [eq_regAddr_of_toNat ha, memRead_regAddr]
  · rintro rfl; exact memRead_cmdAddr s
  · rintro rfl; exact memRead_statusAddr s

/-- Settles O16: the state after a host write is the window write's, range by range; in the written register the written
word alone changes. -/
theorem windowWritesFollowTheMap : Obligations.WindowWritesFollowTheMap := by
  intro s a v rest hb hs
  rw [step_write hs hb]
  refine ⟨fun i j ha => ?_, ?_, fun ha => congrArg _ (memWrite_of_le ha _ v)⟩
  · refine ⟨s.regs.set i (setWord (s.reg i) j v), ?_, ?_, fun j' hj => ?_, fun i' hi => ?_⟩
    · rw [eq_regAddr_of_toNat ha, memWrite_regAddr]; rfl
    · rw [RegFile.get_set_same, word_setWord_same]
    · rw [RegFile.get_set_same, word_setWord_ne _ _ _ _ hj]
    · exact RegFile.get_set_ne _ _ _ _ hi
  · rintro rfl; exact congrArg _ (memWrite_cmdAddr _ v)

/-! ## Register words (R44) -/

/-- Settles O17: of the window reads only those of register words see a register, and of these only the written one sees
the written word. -/
theorem registerWordsReadBack : Obligations.RegisterWordsReadBack := by
  intro s i j v a
  cases ha : isRegAddr a
  case true =>
    obtain ⟨i', j', rfl⟩ : ∃ i' j', a = regAddr i' j' := ⟨_, _, (regAddr_of_isRegAddr a ha).symm⟩
    simp only [memWrite_regAddr, memRead_regAddr, regAddr_inj, State.reg_setReg]
    by_cases hi : i' = i
    · subst hi
      simp [word_setWord]
    · simp [hi]
  case false =>
    have hne : a ≠ regAddr i j := by rintro rfl; simp at ha
    rw [if_neg hne, memWrite_regAddr]
    by_cases hst : a = statusAddr
    · subst hst
      simp only [memRead_statusAddr]
      rfl
    · exact memRead_congr hst rfl (by simp [ha])

theorem setReg_setReg_same (s : State) (i : RegIdx) (u v : Value) : (s.setReg i u).setReg i v = s.setReg i v := by
  simp [State.setReg, RegFile.set_set_same]

@[simp] theorem setReg_reg (s : State) (i : RegIdx) : s.setReg i (s.reg i) = s := by simp [State.setReg, State.reg]

/-- `u` once the words of `v` with the numbers in `js` are written over its own, one after the other. -/
def overwriteWords (v : Value) (js : List WordIdx) (u : Value) : Value :=
  js.foldl (fun acc j => setWord acc j (word v j)) u

/-- A word of the result is `v`'s if it was written, however often and whenever, and else what it was. -/
theorem word_overwriteWords (v u : Value) (js : List WordIdx) (k : WordIdx) :
    word (overwriteWords v js u) k = if k ∈ js then word v k else word u k := by
  induction js generalizing u with
  | nil => simp [overwriteWords]
  | cons j js ih =>
    have hstep : overwriteWords v (j :: js) u = overwriteWords v js (setWord u j (word v j)) := rfl
    rw [hstep, ih, word_setWord]
    by_cases hk : k = j <;> simp [hk]

/-- One word write with BUSY = 0, whatever else is scheduled (R43). -/
theorem takeEvent_write_regAddr {s : State} (hb : s.busy = false) (i : RegIdx) (j : WordIdx) (w : Word) :
    takeEvent (.write (regAddr i j) w) s = .next (s.setReg i (setWord (s.reg i) j w)) := by
  simp [takeEvent, hostWrite, hb]

/-- A run of word writes of `v` to one register overwrites those words of it and does nothing else. -/
theorem runEvents_wordWrites {s : State} (hb : s.busy = false) (i : RegIdx) (v : Value) (js : List WordIdx) :
    runEvents (js.map fun j => .write (regAddr i j) (word v j)) s
      = .next (s.setReg i (overwriteWords v js (s.reg i))) := by
  induction js generalizing s with
  | nil => simp [overwriteWords]
  | cons j js ih =>
    rw [List.map_cons, runEvents_cons, takeEvent_write_regAddr hb, andThen_next, ih (by simpa using hb),
      setReg_setReg_same, State.reg_setReg_same]
    rfl

/-- Settles O18: the order is a permutation of the word numbers, so every word of the register ends as the value's. -/
theorem wordsLoadInAnyOrder : Obligations.WordsLoadInAnyOrder := by
  intro s i v order hb hperm
  have hmem : ∀ k : WordIdx, k ∈ order := fun k => hperm.mem_iff.2 (by revert k; decide)
  have hload : overwriteWords v order (s.reg i) = v :=
    Value_ext_word _ _ fun k => by simp [word_overwriteWords, hmem k]
  rw [runEvents_wordWrites hb, hload]

end Sys2Proof.Machine
end

section
/-! PROOFS. Which words are legal, and that a legal word is its command's own (30_encoding.md R62, R66 to R69, R71). -/

namespace Sys2Proof

open Machine

/-! ## What a row's match says of the fields (R62) -/

theorem mask_opcodeByte (f : Format) : f.mask.extractLsb' 0 8 = BitVec.allOnes 8 := by cases f <;> rfl

theorem matchWord_opcodeByte (op : Opcode) : op.matchWord.extractLsb' 0 8 = op.byte := by cases op <;> rfl

section
variable {op : Opcode} {c : Command}

/-- Where a row's mask checks every bit of a field, a matching word has the row's own bits there. -/
theorem extract_of_match (h : c &&& op.format.mask = op.matchWord) {lo len : Nat}
    (hm : op.format.mask.extractLsb' lo len = BitVec.allOnes len) :
    c.extractLsb' lo len = op.matchWord.extractLsb' lo len := by
  rw [← h, BitVec.extractLsb'_and, hm, BitVec.and_allOnes]

theorem opcodeByte_of_match (h : c &&& op.format.mask = op.matchWord) : c.extractLsb' 0 8 = op.byte :=
  (extract_of_match h (mask_opcodeByte op.format)).trans (matchWord_opcodeByte op)

/-- A register field that the row's format does not use is 0 in a matching word. -/
theorem regField_of_match (h : c &&& op.format.mask = op.matchWord) {lo : Nat}
    (hm : op.format.mask.extractLsb' lo 3 = BitVec.allOnes 3) (hz : op.matchWord.extractLsb' lo 3 = 0) :
    regField c lo = 0 := by
  apply Fin.ext
  simp only [regField, extract_of_match h hm, hz]
  rfl

/-- The constant field is 0 in a matching word of a row other than LDC's. -/
theorem kField_of_match (h : c &&& op.format.mask = op.matchWord)
    (hm : op.format.mask.extractLsb' 20 3 = BitVec.allOnes 3) (hz : op.matchWord.extractLsb' 20 3 = 0) :
    kField c = 0 := (extract_of_match h hm).trans hz

/-- Bits 63:23 (`hi`) are 0 in a matching word, whatever the row. -/
theorem toNat_lt_of_match (h : c &&& op.format.mask = op.matchWord) : c.toNat < 2 ^ 23 := by
  have hm : op.format.mask.extractLsb' 23 41 = BitVec.allOnes 41 := by cases op <;> rfl
  have hz : op.matchWord.extractLsb' 23 41 = 0 := by cases op <;> rfl
  have hhi := congrArg BitVec.toNat ((extract_of_match h hm).trans hz)
  rw [BitVec.extractLsb'_toNat, Nat.shiftRight_eq_div_pow] at hhi
  have hc := c.isLt
  have hzero : (0 : BitVec 41).toNat = 0 := rfl
  omega

/-- A matching word is assembled from its own fields: none of its bits is dropped (R62, R71). -/
theorem assemble_of_match (h : c &&& op.format.mask = op.matchWord) {rd rd2 rs1 rs2 : RegIdx} {k : BitVec 3}
    (hrd : rdField c = rd) (hrd2 : rd2Field c = rd2) (hrs1 : rs1Field c = rs1) (hrs2 : rs2Field c = rs2)
    (hk : kField c = k) : assemble op rd rd2 rs1 rs2 k = c := by
  subst hrd hrd2 hrs1 hrs2 hk
  apply BitVec.eq_of_toNat_eq
  have hhi := toNat_lt_of_match h
  rw [toNat_assemble, ← opcodeByte_of_match h]
  simp only [rdField, rd2Field, rs1Field, rs2Field, regField, kField, BitVec.extractLsb'_toNat,
    Nat.shiftRight_eq_div_pow]
  omega

/-! ## The decoder by rows (R66) -/

/-- A word that matches a row is decoded by that row. -/
theorem decode_of_match (h : c &&& op.format.mask = op.matchWord) : decode c = decodeFields op c := by
  simp [decode, opcodeByte_of_match h, h]

/-- The inversion of `decode` on a legal word: its row matched, and the row's fields gave the command. -/
theorem match_of_decode_legal {i : Instr} (h : decode c = .legal i) :
    ∃ op : Opcode, c &&& op.format.mask = op.matchWord ∧ decodeFields op c = .legal i := by
  unfold decode at h
  split at h
  · cases h
  next op _ =>
    split at h
    next hm => exact ⟨op, hm, h⟩
    · cases h

end

/-! ## The checks on fields (R67, R68) -/

theorem regField_eq_iff (c : Command) (lo lo' : Nat) :
    regField c lo = regField c lo' ↔ c.extractLsb' lo 3 = c.extractLsb' lo' 3 := by
  simp only [regField, Fin.mk.injEq, BitVec.toNat_inj]

theorem namedConstOfSelector_eq_some {k : BitVec 3} {n : NamedConst} (h : namedConstOfSelector k = some n) :
    n.selector = k := by
  simpa using List.find?_some h

/-- Selector 7 alone names no constant (R68). -/
theorem namedConstOfSelector_eq_none : ∀ k : BitVec 3, namedConstOfSelector k = none ↔ k = 7 := by decide

theorem decodeDivide_eq_legal {rd rd2 : RegIdx} {i j : Instr} (h : decodeDivide rd rd2 i = .legal j) :
    rd ≠ rd2 ∧ i = j := by
  unfold decodeDivide at h
  split at h <;> cases h
  next hne => exact ⟨hne, rfl⟩

theorem decodeLoadConstant_eq_legal {rd : RegIdx} {k : Option NamedConst} {j : Instr}
    (h : decodeLoadConstant rd k = .legal j) : ∃ n, k = some n ∧ j = .ldc rd n := by
  cases k with
  | none => cases h
  | some n => cases h; exact ⟨n, rfl, rfl⟩

theorem decodeDivide_legal_iff (rd rd2 : RegIdx) (i : Instr) :
    (∃ j, decodeDivide rd rd2 i = .legal j) ↔ rd ≠ rd2 := by
  by_cases h : rd = rd2 <;> simp [decodeDivide, h]

theorem decodeLoadConstant_legal_iff (rd : RegIdx) (k : BitVec 3) :
    (∃ j, decodeLoadConstant rd (namedConstOfSelector k) = .legal j) ↔ k ≠ 7 := by
  rw [Ne, ← namedConstOfSelector_eq_none]
  cases namedConstOfSelector k <;> simp [decodeLoadConstant]

/-- A row that matched gives a command exactly when the row's own check on its fields passes. -/
theorem decodeFields_legal_iff (op : Opcode) (c : Command) :
    (∃ i, decodeFields op c = .legal i) ↔
      (op.format = .div4 → c.extractLsb' 8 3 ≠ c.extractLsb' 11 3) ∧ (op.format = .ldk → c.extractLsb' 20 3 ≠ 7) := by
  cases op with
  | divu | divs =>
    simp [decodeFields, Opcode.format, decodeDivide_legal_iff, rdField, rd2Field, regField_eq_iff]
  | ldc => simp [decodeFields, Opcode.format, decodeLoadConstant_legal_iff, kField]
  | addu | subu | mulu | adds | subs | muls | cmpu | cmps | tstz | tstn | neg | mov =>
    simp [decodeFields, Opcode.format]

/-! ## Encoding what was decoded -/

/-- The command a matching word's fields give is well formed, and its word is that word: the fields its format uses are the
word's, and the others are 0 in both. -/
theorem encode_of_decodeFields {op : Opcode} {c : Command} {i : Instr} (h : c &&& op.format.mask = op.matchWord)
    (hi : decodeFields op c = .legal i) : encode i = c ∧ i.wellFormed = true := by
  cases op with
  | addu | subu | mulu | adds | subs | muls =>
    cases hi
    exact ⟨assemble_of_match h rfl (regField_of_match h rfl rfl) rfl rfl (kField_of_match h rfl rfl), rfl⟩
  | divu | divs =>
    obtain ⟨hne, rfl⟩ := decodeDivide_eq_legal hi
    exact ⟨assemble_of_match h rfl rfl rfl rfl (kField_of_match h rfl rfl), by simpa [Instr.wellFormed] using hne⟩
  | cmpu | cmps =>
    cases hi
    exact ⟨assemble_of_match h (regField_of_match h rfl rfl) (regField_of_match h rfl rfl) rfl rfl
      (kField_of_match h rfl rfl), rfl⟩
  | tstz | tstn =>
    cases hi
    exact ⟨assemble_of_match h (regField_of_match h rfl rfl) (regField_of_match h rfl rfl) rfl
      (regField_of_match h rfl rfl) (kField_of_match h rfl rfl), rfl⟩
  | neg | mov =>
    cases hi
    exact ⟨assemble_of_match h rfl (regField_of_match h rfl rfl) rfl (regField_of_match h rfl rfl)
      (kField_of_match h rfl rfl), rfl⟩
  | ldc =>
    obtain ⟨n, hn, rfl⟩ := decodeLoadConstant_eq_legal hi
    exact ⟨assemble_of_match h rfl (regField_of_match h rfl rfl) (regField_of_match h rfl rfl)
      (regField_of_match h rfl rfl) (namedConstOfSelector_eq_some hn).symm, rfl⟩

/-- A legal word is the word of its command, and R67's check has passed. -/
theorem encode_of_decode {c : Command} {i : Instr} (h : decode c = .legal i) : encode i = c ∧ i.wellFormed = true := by
  obtain ⟨op, hm, hi⟩ := match_of_decode_legal h
  exact encode_of_decodeFields hm hi

/-- R66's checks, in the decoder's order. -/
theorem decode_legal_iff (c : Command) : (∃ i, decode c = .legal i) ↔
    ∃ op : Opcode, c.extractLsb' 0 8 = op.byte ∧ c &&& op.format.mask = op.matchWord
      ∧ (op.format = .div4 → c.extractLsb' 8 3 ≠ c.extractLsb' 11 3)
      ∧ (op.format = .ldk → c.extractLsb' 20 3 ≠ 7) := by
  constructor
  · rintro ⟨i, h⟩
    obtain ⟨op, hm, hi⟩ := match_of_decode_legal h
    exact ⟨op, opcodeByte_of_match hm, hm, (decodeFields_legal_iff op c).1 ⟨i, hi⟩⟩
  · rintro ⟨op, _, hm, hchecks⟩
    rw [decode_of_match hm]
    exact (decodeFields_legal_iff op c).2 hchecks

/-! ## The statements -/

/-- Settles O1: the low byte finds the row, the word matches it, and each field is read where it was put. -/
theorem decodeOfEncode : Obligations.DecodeOfEncode := decode_encode

/-- Settles O2: the row's mask fixes every bit outside the fields its format uses, so assembling those fields again gives
the word. -/
theorem encodeOfDecode : Obligations.EncodeOfDecode := fun _ _ => encode_of_decode

/-- Settles O3: the decoder's checks are R66's, the command of a legal word encodes to it, and the completion step of an
illegal word raises the code and retires. -/
theorem illegalWordsWriteOnlyTheCode : Obligations.IllegalWordsWriteOnlyTheCode := by
  refine ⟨decode_legal_iff, fun c i h => ?_, fun s rest why hb hd hs => ?_⟩
  · obtain ⟨rfl, -⟩ := encode_of_decode h
    exact ⟨opcodeByte_encode i, rfl⟩
  · calc step s = coreTurn { s with schedule := rest } := step_core hs
      _ = completePending { s with schedule := rest } := coreTurn_of_busy hb
      _ = .next (retire (raiseStatus .illegalCommand { s with schedule := rest })) := completePending_illegal hd

/-- A divide's row rejects rd = rd2 (R67). -/
theorem decode_sameDivDestination {op : Opcode} {c : Command} (hop : op = .divu ∨ op = .divs)
    (hm : c &&& op.format.mask = op.matchWord) (heq : c.extractLsb' 8 3 = c.extractLsb' 11 3) :
    decode c = .illegal .sameDivDestination := by
  have hreg : rdField c = rd2Field c := (regField_eq_iff c 8 11).2 heq
  rw [decode_of_match hm]
  rcases hop with rfl | rfl <;> simp [decodeFields, decodeDivide, hreg]

/-- LDC's row rejects k = 7 (R68). -/
theorem decode_reservedConstant {c : Command} (hm : c &&& Opcode.ldc.format.mask = Opcode.ldc.matchWord)
    (hk : c.extractLsb' 20 3 = 7) : decode c = .illegal .reservedConstant := by
  have hnone : namedConstOfSelector (kField c) = none := (namedConstOfSelector_eq_none _).2 hk
  rw [decode_of_match hm]
  simp [decodeFields, hnone, decodeLoadConstant]

theorem finishDivide_same (rd : RegIdx) (b q r : Value) (code : StatusCode) (s : State) :
    finishDivide rd rd b q r code s = .next (raiseStatus .illegalCommand s) := by simp [finishDivide]

/-- Settles O4: by the rows of the divides and of LDC, and by the check a divide's meaning makes first (log 8). -/
theorem equalDivideDestinationsAndSelectorSevenAreIllegal :
    Obligations.EqualDivideDestinationsAndSelectorSevenAreIllegal :=
  ⟨fun _ _ hop hm heq => decode_sameDivDestination hop hm heq, fun _ hm hk => decode_reservedConstant hm hk,
    fun rd _ _ s => ⟨finishDivide_same rd _ _ _ _ s, finishDivide_same rd _ _ _ _ s⟩⟩

/-- Settles O5: the decoder evaluated on the seven words. -/
theorem sampleWordsDecode : Obligations.SampleWordsDecode := by
  unfold Obligations.SampleWordsDecode
  decide

end Sys2Proof
end

section
/-! PROOFS. `ISSUE <command>; WAIT` (30_encoding.md R73; 20_memory.md R50; 70_reset_and_hazards.md R231, R232, R235). -/

namespace Sys2Proof.Machine

/-- `s` once the host has read the words `ws` besides, newest first, and `draws` stands at `d` (log 4, 5). -/
def State.withReads (s : State) (d : Nat) (ws : List Word) : State :=
  { s with draws := d, responses := ws ++ s.responses }

@[simp] theorem State.withReads_responses (s : State) (d : Nat) (ws : List Word) :
    (s.withReads d ws).responses = ws ++ s.responses := rfl

/-- The end of a divide writes registers and CODE alone. -/
theorem finishDivide_withReads {rd rd2 : RegIdx} {b q r : Value} {c : StatusCode} {s u : State}
    (h : finishDivide rd rd2 b q r c s = .next u) (d : Nat) (ws : List Word) :
    finishDivide rd rd2 b q r c (s.withReads d ws) = .next (u.withReads d ws) := by
  unfold finishDivide at h ⊢
  split_ifs at h ⊢ <;> cases h <;> rfl

/-- A command's rule sees neither what the host has read nor how many free values were drawn. -/
theorem exec_withReads {i : Instr} {s u : State} (h : exec i s = .next u) (d : Nat) (ws : List Word) :
    exec i (s.withReads d ws) = .next (u.withReads d ws) := by
  cases i with
  | addu | subu | mulu | adds | subs | muls | cmpu | cmps | tstz | tstn | neg | ldc | mov => cases h; rfl
  | divu | divs => exact finishDivide_withReads h d ws

/-- One poll while the core has not moved: BUSY = 1 in bit 0 and a draw above it (R231). -/
theorem takeEvent_poll_busy {s : State} (hb : s.busy = true) : takeEvent (.read statusAddr) s
    = .next (s.withReads (s.draws + 1) [busyStatusWord (Config.busyStatusBits s.draws)]) := by
  simp only [takeEvent, hostRead, hb, if_true]
  rfl

/-- Polling while BUSY = 1 gives the host one word each time and does nothing else. -/
theorem runEvents_polls (polls : Nat) {s : State} (hb : s.busy = true) :
    ∃ d ws, ws.length = polls ∧
      runEvents (List.replicate polls (.read statusAddr)) s = .next (s.withReads d ws) := by
  induction polls generalizing s with
  | zero => exact ⟨s.draws, [], rfl, rfl⟩
  | succ polls ih =>
    obtain ⟨d, ws, hlen, hrun⟩ := ih (s := s.withReads (s.draws + 1) [busyStatusWord (Config.busyStatusBits s.draws)]) hb
    refine ⟨d, ws ++ [busyStatusWord (Config.busyStatusBits s.draws)], by simp [hlen], ?_⟩
    rw [List.replicate_succ, runEvents_cons, takeEvent_poll_busy hb, andThen_next, hrun]
    simp [State.withReads]

/-- The core's turn with a legal command latched, whose rule answers `u`. -/
theorem takeEvent_core_legal {s u : State} {i : Instr} (hb : s.busy = true) (hi : decode s.latchedWord = .legal i)
    (hx : exec i s = .next u) : takeEvent .core s = .next (retire u) :=
  calc takeEvent .core s = completePending s := coreTurn_of_busy hb
    _ = retireOutcome (exec i s) := completePending_legal hi
    _ = .next (retire u) := by rw [hx]; rfl

/-- The poll that finds BUSY = 0 reads the defined STATUS (R42, R232). -/
theorem takeEvent_poll_idle {s : State} (hb : s.busy = false) :
    takeEvent (.read statusAddr) s = .next (respond s.statusWord s) := by
  simp [takeEvent, hostRead, hb]

/-- The CMD write with BUSY = 0 issues the command (R23, R43). -/
theorem takeEvent_issue {s : State} (hb : s.busy = false) (c : Command) :
    takeEvent (.write cmdAddr c) s = .next (issueCommand s c) := by
  simp [takeEvent, hostWrite, hb]

/-- The run of ISSUE and WAIT: what the command's rule makes of the issued state, retired, after `polls` words read in vain
and one that shows the defined STATUS. -/
theorem runEvents_command {s u : State} {i : Instr} (hwf : i.wellFormed = true) (hb : s.busy = false)
    (hx : exec i (issueCommand s (encode i)) = .next u) (polls : Nat) :
    ∃ d ws, ws.length = polls ∧ runEvents (commandEvents i polls) s
      = .next (respond (retire (u.withReads d ws)).statusWord (retire (u.withReads d ws))) := by
  obtain ⟨d, ws, hlen, hpolls⟩ := runEvents_polls polls (issueCommand_busy s (encode i))
  have hcore : takeEvent .core ((issueCommand s (encode i)).withReads d ws) = .next (retire (u.withReads d ws)) :=
    takeEvent_core_legal rfl (decode_encode i hwf) (exec_withReads hx d ws)
  refine ⟨d, ws, hlen, ?_⟩
  rw [commandEvents, waitEvents, runEvents_cons, takeEvent_issue hb, andThen_next, runEvents_append, hpolls,
    andThen_next, runEvents_cons, hcore, andThen_next, runEvents_cons, takeEvent_poll_idle (retire_busy _),
    andThen_next, runEvents_nil]

/-- Settles O9: the run ends in the command's own result, retired, and a command's rule leaves CMD, the schedule, the fault
mark and the host's words alone. -/
theorem waitEndsWithTheCommandDone : Obligations.WaitEndsWithTheCommandDone := by
  intro s i polls hwf hb
  obtain ⟨u, hx, hk⟩ := exec_next i (issueCommand s (encode i))
  obtain ⟨d, ws, hlen, hrun⟩ := runEvents_command hwf hb hx polls
  have hreads : u.responses = s.responses := hk.responses
  refine ⟨u, _, hx, hrun, rfl, rfl, rfl, rfl, rfl, hk.cmd, rfl, rfl, rfl, ?_, ?_, hk.schedule, hk.faultMark⟩
  · exact statusWord_bit_busy (retire (u.withReads d ws))
  · simp only [respond_responses, retire_responses, State.withReads_responses, List.length_cons, List.length_append, hlen,
      hreads]
    omega

end Sys2Proof.Machine
end

section
/-! PROOFS. The assembler reads a command's line back (30_encoding.md R71, R72). -/

namespace Sys2Proof.Machine

/-! ## Blanks (log 25) -/

/-- Neither the first nor the last character is a blank. -/
structure Unpadded (cs : List Char) : Prop where
  head : ∀ c ∈ cs.head?, isBlank c = false
  last : ∀ c ∈ cs.getLast?, isBlank c = false

theorem dropWhile_isBlank {cs : List Char} (h : ∀ c ∈ cs.head?, isBlank c = false) : cs.dropWhile isBlank = cs := by
  cases cs with
  | nil => rfl
  | cons c cs => simp [h c rfl]

theorem trimBlanks_of_unpadded {cs : List Char} (h : Unpadded cs) : trimBlanks cs = cs := by
  have hlast : ∀ c ∈ cs.reverse.head?, isBlank c = false := by simpa using h.last
  rw [trimBlanks, dropWhile_isBlank h.head, dropWhile_isBlank hlast, List.reverse_reverse]

/-- A space in front is trimmed with the rest. -/
@[simp] theorem trimBlanks_space (cs : List Char) : trimBlanks (' ' :: cs) = trimBlanks cs := rfl

theorem Unpadded.append {as bs : List Char} (ha : Unpadded as) (hb : Unpadded bs) (hane : as ≠ []) (hbne : bs ≠ [])
    (sep : List Char) : Unpadded (as ++ sep ++ bs) :=
  ⟨by simpa [List.head?_append_of_ne_nil _ hane] using ha.head,
    by simpa [List.getLast?_append_of_ne_nil _ hbne, hbne] using hb.last⟩

/-! ## Names -/

/-- A name as the tables hold them: some characters, of which none is a blank or a comma. -/
def IsName (name : String) : Prop := name.toList ≠ [] ∧ ∀ c ∈ name.toList, isBlank c = false ∧ c ≠ ','

namespace IsName
variable {name : String}

theorem of_all (h : (!name.toList.isEmpty && name.toList.all fun c => !isBlank c && c != ',') = true) : IsName name := by
  simpa [IsName] using h

theorem ne_nil (h : IsName name) : name.toList ≠ [] := h.1

theorem not_blank (h : IsName name) : ∀ c ∈ name.toList, isBlank c = false := fun c hc => (h.2 c hc).1

theorem ne_comma (h : IsName name) : ∀ c ∈ name.toList, c ≠ ',' := fun c hc => (h.2 c hc).2

theorem unpadded (h : IsName name) : Unpadded name.toList :=
  ⟨fun c hc => h.not_blank c (List.mem_of_mem_head? hc), fun c hc => h.not_blank c (List.mem_of_mem_getLast? hc)⟩

end IsName

theorem isName_registerName : ∀ i : RegIdx, IsName (registerName i) := fun i => .of_all (by revert i; decide)

theorem isName_constantName (k : NamedConst) : IsName (constantName k) := .of_all (by cases k <;> decide)

theorem isName_opcodeName (op : Opcode) : IsName (opcodeName op) := .of_all (by cases op <;> decide)

theorem isName_numbered : ∀ e ∈ numberedSelectors, IsName e.1 := fun e he => .of_all (by revert e; decide)

/-! ## Operands between commas -/

theorem cutAtCommas_ne_nil (cs : List Char) : cutAtCommas cs ≠ [] := by
  cases cs with
  | nil => simp [cutAtCommas]
  | cons c cs =>
    unfold cutAtCommas
    split
    · simp
    · split <;> simp

theorem cutAtCommas_comma (cs : List Char) : cutAtCommas (',' :: cs) = [] :: cutAtCommas cs := by
  cases h : cutAtCommas cs with
  | nil => exact absurd h (cutAtCommas_ne_nil cs)
  | cons piece pieces => simp [cutAtCommas, h]

/-- A character other than a comma joins the piece that follows. -/
theorem cutAtCommas_cons {c : Char} (hc : c ≠ ',') {cs piece : List Char} {pieces : List (List Char)}
    (h : cutAtCommas cs = piece :: pieces) : cutAtCommas (c :: cs) = (c :: piece) :: pieces := by
  simp [cutAtCommas, h, hc]

/-- Characters with no comma among them join the piece that follows. -/
theorem cutAtCommas_append {as : List Char} (ha : ∀ c ∈ as, c ≠ ',') {cs piece : List Char}
    {pieces : List (List Char)} (h : cutAtCommas cs = piece :: pieces) :
    cutAtCommas (as ++ cs) = (as ++ piece) :: pieces := by
  induction as with
  | nil => exact h
  | cons a as ih =>
    rw [List.forall_mem_cons] at ha
    exact cutAtCommas_cons ha.1 (ih ha.2)

/-- A space in front of the pieces is trimmed off the first of them. -/
theorem trimmed_cutAtCommas_space (cs : List Char) :
    (cutAtCommas (' ' :: cs)).map trimBlanks = (cutAtCommas cs).map trimBlanks := by
  obtain ⟨piece, pieces, h⟩ := List.exists_cons_of_ne_nil (cutAtCommas_ne_nil cs)
  rw [cutAtCommas_cons (by decide) h, h]
  simp

/-- The characters of a list of operands, separated by a comma and a space. -/
def operandChars (names : List String) : List Char := [',', ' '].intercalate (names.map String.toList)

theorem operandChars_singleton (name : String) : operandChars [name] = name.toList := List.intercalate_singleton

theorem operandChars_cons {name : String} {names : List String} (h : names ≠ []) :
    operandChars (name :: names) = name.toList ++ [',', ' '] ++ operandChars names :=
  List.intercalate_cons_of_ne_nil (by simpa using h)

theorem operandChars_ne_nil {name : String} {names : List String} (h : IsName name) :
    operandChars (name :: names) ≠ [] := by
  cases names with
  | nil => simpa [operandChars_singleton] using h.ne_nil
  | cons => simp [operandChars_cons]

theorem operandChars_unpadded {names : List String} (h : ∀ n ∈ names, IsName n) :
    Unpadded (operandChars names) := by
  induction names with
  | nil => exact ⟨by simp [operandChars], by simp [operandChars]⟩
  | cons name names ih =>
    rw [List.forall_mem_cons] at h
    obtain ⟨hname, hnames⟩ := h
    cases names with
    | nil => rw [operandChars_singleton]; exact hname.unpadded
    | cons name' names =>
      rw [operandChars_cons (by simp)]
      exact hname.unpadded.append (ih hnames) hname.ne_nil (operandChars_ne_nil (hnames name' (by simp))) _

/-- Cutting at the commas and trimming gives the operands back. -/
theorem trimmed_cutAtCommas_operandChars {names : List String} (hne : names ≠ []) (h : ∀ n ∈ names, IsName n) :
    (cutAtCommas (operandChars names)).map trimBlanks = names.map String.toList := by
  induction names with
  | nil => exact absurd rfl hne
  | cons name names ih =>
    rw [List.forall_mem_cons] at h
    obtain ⟨hname, hnames⟩ := h
    have htrim : trimBlanks name.toList = name.toList := trimBlanks_of_unpadded hname.unpadded
    cases names with
    | nil =>
      have hcut := cutAtCommas_append hname.ne_comma (cs := []) rfl
      rw [List.append_nil] at hcut
      simp [operandChars_singleton, hcut, htrim]
    | cons name' names =>
      have hcut := cutAtCommas_append hname.ne_comma (cutAtCommas_comma (' ' :: operandChars (name' :: names)))
      rw [List.append_nil] at hcut
      rw [operandChars_cons (by simp), List.append_assoc, List.cons_append, List.cons_append, List.nil_append, hcut,
        List.map_cons, trimmed_cutAtCommas_space, ih (by simp) hnames, htrim]
      rfl

/-! ## Lines -/

/-- A line as R71 has it: the mnemonic, a space, and the operands. -/
structure IsLine (text mnemonic : String) (names : List String) : Prop where
  chars : text.toList = mnemonic.toList ++ [' '] ++ operandChars names
  mnemonic_name : IsName mnemonic
  some_names : names ≠ []
  operand_names : ∀ n ∈ names, IsName n

namespace IsLine
variable {text mnemonic : String} {names : List String}

theorem operandChars_ne (h : IsLine text mnemonic names) : operandChars names ≠ [] := by
  obtain ⟨name, rest, rfl⟩ := List.exists_cons_of_ne_nil h.some_names
  exact operandChars_ne_nil (h.operand_names name (by simp))

/-- No blank stands at either end of a line. -/
theorem trimBlanks_text (h : IsLine text mnemonic names) :
    trimBlanks text.toList = mnemonic.toList ++ ' ' :: operandChars names := by
  have hpad := h.mnemonic_name.unpadded.append (operandChars_unpadded h.operand_names) h.mnemonic_name.ne_nil
    h.operandChars_ne [' ']
  rw [h.chars, trimBlanks_of_unpadded hpad, List.append_assoc]
  rfl

/-- The characters of the mnemonic are those before the first blank. -/
theorem mnemonicOf_eq (h : IsLine text mnemonic names) : mnemonicOf text = mnemonic := by
  have hblank : ∀ c ∈ mnemonic.toList, (!isBlank c) = true := by simpa using h.mnemonic_name.not_blank
  have hspace : isBlank ' ' = true := rfl
  simp [mnemonicOf, h.trimBlanks_text, List.takeWhile_append_of_pos hblank, hspace]

/-- What stands after the mnemonic is the operands behind a space. -/
theorem operandsOf_eq (h : IsLine text mnemonic names) : operandsOf text = names := by
  have hblank : ∀ c ∈ mnemonic.toList, (!isBlank c) = true := by simpa using h.mnemonic_name.not_blank
  have hspace : isBlank ' ' = true := rfl
  have hrest : trimBlanks ((trimBlanks text.toList).dropWhile fun c => !isBlank c) = operandChars names := by
    rw [h.trimBlanks_text, List.dropWhile_append_of_pos hblank]
    simpa [hspace] using trimBlanks_of_unpadded (operandChars_unpadded h.operand_names)
  have hnames : ((cutAtCommas (operandChars names)).map trimBlanks).map String.ofList = names := by
    rw [trimmed_cutAtCommas_operandChars h.some_names h.operand_names]
    simp
  unfold operandsOf
  rw [hrest]
  split
  next hnil => exact absurd hnil h.operandChars_ne
  next c cs hcons =>
    rw [← hcons]
    simpa [Function.comp_def] using hnames

/-- A line assembles as its mnemonic and operands do. -/
theorem assembleText_eq (h : IsLine text mnemonic names) : assembleText text = assembleLine mnemonic names := by
  rw [assembleText, h.mnemonicOf_eq, h.operandsOf_eq]

end IsLine

/-! ## A command's mnemonic and operand names -/

/-- An opcode other than LDC takes registers alone. -/
theorem assembleLine_registers {op : Opcode} (hop : op ≠ .ldc) (rs : List RegIdx) :
    assembleLine (opcodeName op) (rs.map registerName) = assembleRegisters op rs := by
  cases op with
  | ldc => exact absurd rfl hop
  | addu | subu | mulu | divu | cmpu | tstz | adds | subs | muls | divs | cmps | tstn | neg | mov =>
    simp [assembleLine]

theorem assembleLine_ldc {rd : RegIdx} {k : String} {c : BitVec 3} (h : lookupName constantNames k = some c) :
    assembleLine (opcodeName .ldc) [registerName rd, k] = some (assemble .ldc rd 0 0 0 c) := by
  simp [assembleLine, assembleLoadConstant, h]

/-- The operands of a command other than LDC are registers, and the row's format takes them as they stand (R71). -/
theorem operandNames_registers {i : Instr} (h : i.opcode ≠ .ldc) :
    ∃ rs : List RegIdx, operandNames i = rs.map registerName ∧ assembleRegisters i.opcode rs = some (encode i) := by
  cases i with
  | addu rd rs1 rs2 | subu rd rs1 rs2 | mulu rd rs1 rs2 | adds rd rs1 rs2 | subs rd rs1 rs2 | muls rd rs1 rs2 =>
    exact ⟨[rd, rs1, rs2], rfl, rfl⟩
  | divu rd rd2 rs1 rs2 | divs rd rd2 rs1 rs2 => exact ⟨[rd, rd2, rs1, rs2], rfl, rfl⟩
  | cmpu rs1 rs2 | cmps rs1 rs2 => exact ⟨[rs1, rs2], rfl, rfl⟩
  | tstz rs1 | tstn rs1 => exact ⟨[rs1], rfl, rfl⟩
  | neg rd rs1 | mov rd rs1 => exact ⟨[rd, rs1], rfl, rfl⟩
  | ldc rd k => exact absurd rfl h

theorem assembleLine_encode (i : Instr) : assembleLine (opcodeName i.opcode) (operandNames i) = some (encode i) := by
  by_cases h : i.opcode = .ldc
  · cases i <;> cases h
    next rd k => exact assembleLine_ldc (lookup_constantName k)
  · obtain ⟨rs, hnames, hword⟩ := operandNames_registers h
    rw [hnames, assembleLine_registers h, hword]

theorem operandNames_ne_nil (i : Instr) : operandNames i ≠ [] := by cases i <;> simp [operandNames]

theorem isName_operandNames (i : Instr) : ∀ n ∈ operandNames i, IsName n := by
  by_cases h : i.opcode = .ldc
  · cases i <;> cases h
    next rd k => simp [operandNames, isName_registerName, isName_constantName]
  · obtain ⟨rs, hnames, -⟩ := operandNames_registers h
    simp [hnames, isName_registerName]

theorem isLine_assemblyText (i : Instr) : IsLine (assemblyText i) (opcodeName i.opcode) (operandNames i) where
  chars := by simp [assemblyText, operandChars, String.toList_append, String.toList_intercalate]
  mnemonic_name := isName_opcodeName i.opcode
  some_names := operandNames_ne_nil i
  operand_names := isName_operandNames i

/-! ## `LDC rd, #k` and the pseudo-instructions -/

theorem isLine_numbered (rd : RegIdx) {e : String × BitVec 3} (he : e ∈ numberedSelectors) :
    IsLine ("LDC " ++ registerName rd ++ ", " ++ e.1) (opcodeName .ldc) [registerName rd, e.1] where
  chars := by simp [opcodeName, operandChars, String.toList_append]
  mnemonic_name := isName_opcodeName .ldc
  some_names := by simp
  operand_names := by simp [isName_registerName, isName_numbered e he]

theorem isLine_clr (rd : RegIdx) : IsLine ("CLR " ++ registerName rd) "CLR" [registerName rd] where
  chars := by simp [operandChars, String.toList_append]
  mnemonic_name := .of_all (by decide)
  some_names := by simp
  operand_names := by simp [isName_registerName]

theorem isLine_one (rd : RegIdx) : IsLine ("ONE " ++ registerName rd) "ONE" [registerName rd] where
  chars := by simp [operandChars, String.toList_append]
  mnemonic_name := .of_all (by decide)
  some_names := by simp
  operand_names := by simp [isName_registerName]

/-- A mnemonic that R65 does not list is at most a pseudo-instruction (R72). -/
theorem assembleLine_of_unlisted {mnemonic : String} (h : lookupName mnemonicNames mnemonic = none)
    (names : List String) : assembleLine mnemonic names = assemblePseudo mnemonic names := by
  simp [assembleLine, h]

theorem assembleLine_clr (rd : RegIdx) :
    assembleLine "CLR" [registerName rd] = some (encode (.ldc rd .uzero)) := by
  rw [assembleLine_of_unlisted (by decide)]
  simp [assemblePseudo, registersOfNames]

theorem assembleLine_one (rd : RegIdx) :
    assembleLine "ONE" [registerName rd] = some (encode (.ldc rd .uone)) := by
  rw [assembleLine_of_unlisted (by decide)]
  simp [assemblePseudo, registersOfNames]

theorem assemblePseudo_eq_none {mnemonic : String} (hclr : mnemonic ≠ "CLR") (hone : mnemonic ≠ "ONE")
    (names : List String) : assemblePseudo mnemonic names = none := by
  unfold assemblePseudo
  split
  · simp [hclr, hone]
  · rfl

/-- Settles O6: the line of a command is its mnemonic, a space and its operands, which the cuts give back name by name, and
each name's table gives back what it stands for. -/
theorem assemblerReadsEveryCommand : Obligations.AssemblerReadsEveryCommand := by
  refine ⟨fun i => ⟨?_, assembleLine_encode i⟩, fun rd e he => ?_, fun rd => ⟨?_, ?_⟩, fun text h hclr hone => ?_⟩
  · exact (isLine_assemblyText i).assembleText_eq.trans (assembleLine_encode i)
  · exact (isLine_numbered rd he).assembleText_eq.trans (assembleLine_ldc (lookup_numbered e he))
  · exact (isLine_clr rd).assembleText_eq.trans (assembleLine_clr rd)
  · exact (isLine_one rd).assembleText_eq.trans (assembleLine_one rd)
  · rw [assembleText, assembleLine_of_unlisted h, assemblePseudo_eq_none hclr hone]

end Sys2Proof.Machine
end

section
/-! PROOFS. The schoolbook multiply and the long division as arithmetic (40_unsigned.md R104, R106, R107). -/

set_option exponentiation.threshold 600

namespace Sys2Proof.Machine

/-! ## Schoolbook multiply (R104) -/

/-- The multiply's invariant before row k: the stored words, and what does not fit in them, are the product with the words
of b below k; exactly a nonzero rest is flagged. -/
def MulRowsInv (a b : Value) (k : Nat) (acc : Value × Bool) : Prop :=
  ∃ spill : Nat, uval acc.1 + spill * 2 ^ 512 = uval a * (uval b % 2 ^ (64 * k)) ∧ acc.2 = decide (spill ≠ 0)

theorem MulRowsInv.step {a b : Value} {acc : Value × Bool} (i : WordIdx) (h : MulRowsInv a b i.val acc) :
    MulRowsInv a b (i.val + 1) (mulRow a b acc i) := by
  obtain ⟨spill, htotal, hflag⟩ := h
  obtain ⟨more, hrow, hovf⟩ := mulRow_spec a b acc i
  refine ⟨spill + more, ?_, ?_⟩
  · rw [pow_word_succ, uval_mod_succ]
    linarith
  · rw [hovf, hflag, ← Bool.decide_or, decide_eq_decide]
    omega

/-- R104: the product split at 2^512, its high part nonzero iff flagged. -/
theorem mulWords_spec (a b : Value) :
    ∃ spill : Nat, uval (mulWords a b).1 + spill * 2 ^ 512 = uval a * uval b
      ∧ (mulWords a b).2 = decide (spill ≠ 0) := by
  have h0 : MulRowsInv a b 0 (0, false) := ⟨0, by simp [uval, Nat.mod_one], rfl⟩
  have h8 : MulRowsInv a b 8 (mulWords a b) :=
    ((((((((h0.step 0).step 1).step 2).step 3).step 4).step 5).step 6).step 7)
  rwa [MulRowsInv, Nat.mod_eq_of_lt (uval_lt b)] at h8

/-- R104: the product modulo 2^512. -/
theorem mulWords_fst (a b : Value) : (mulWords a b).1 = enc ((uval a * uval b : Nat) : Int) := by
  obtain ⟨spill, hsum, _⟩ := mulWords_spec a b
  apply eq_enc_of_uval_nat
  have hl := uval_lt (mulWords a b).1
  omega

/-- R104: `ovf = 1` iff `uval(a) * uval(b) >= 2^512`. -/
theorem mulWords_snd (a b : Value) : (mulWords a b).2 = true ↔ 2 ^ 512 ≤ uval a * uval b := by
  obtain ⟨spill, hsum, hflag⟩ := mulWords_spec a b
  have hl := uval_lt (mulWords a b).1
  rw [hflag, decide_eq_true_iff]
  omega

/-- Settles O29: the rows add up to the product, and each flags exactly what it drops. -/
theorem schoolbookMultiplyIsExact : Obligations.SchoolbookMultiplyIsExact := fun a b =>
  ⟨mulWords_fst a b, mulWords_snd a b⟩

/-! ## Long division (R106) -/

/-- The long division's invariant before the rounds of bits k-1 down to 0: the bits of a from k up are divided. -/
structure DivInv (a b : Value) (k : Nat) (acc : Value × Value) : Prop where
  quotient : uval acc.1 = uval a / 2 ^ k / uval b * 2 ^ k
  remainder : uval acc.2 = uval a / 2 ^ k % uval b

/-- Dividing one more bit of the dividend: the next quotient bit is 1 iff the divisor fits in the shifted remainder. -/
theorem div_mod_two_mul_add (n b c : Nat) (hb : 0 < b) (hc : c < 2) :
    if b ≤ 2 * (n % b) + c then
      (2 * n + c) / b = 2 * (n / b) + 1 ∧ (2 * n + c) % b = 2 * (n % b) + c - b
    else (2 * n + c) / b = 2 * (n / b) ∧ (2 * n + c) % b = 2 * (n % b) + c := by
  have hn := Nat.mod_add_div n b
  have hr := Nat.mod_lt n hb
  split
  · refine (Nat.div_mod_unique hb).2 ⟨?_, by omega⟩
    rw [Nat.mul_add, Nat.mul_left_comm]
    omega
  · refine (Nat.div_mod_unique hb).2 ⟨?_, by omega⟩
    rw [Nat.mul_left_comm]
    omega

/-- The bits of a value from k up are those from k+1 up and bit k. -/
theorem uval_div_two_pow (a : Value) (k : Nat) :
    uval a / 2 ^ k = 2 * (uval a / 2 ^ (k + 1)) + (a.getLsbD k).toNat := by
  rw [toNat_getLsbD, pow_succ, ← Nat.div_div_eq_div_mul]
  exact (Nat.div_add_mod _ 2).symm

/-- Without its lowest bits a value leaves room for a shift. -/
theorem uval_div_two_pow_succ_lt (a : Value) (k : Nat) : uval a / 2 ^ (k + 1) < 2 ^ 511 := by
  have hle : uval a / 2 ^ (k + 1) ≤ uval a / 2 ^ 1 :=
    Nat.div_le_div_left (Nat.pow_le_pow_right (by norm_num) (by omega)) (by norm_num)
  have hlt := uval_lt a
  omega

theorem DivInv.step {a b : Value} {k : Nat} {acc : Value × Value} (hb : 0 < uval b) (hk : k < 512)
    (h : DivInv a b (k + 1) acc) : DivInv a b k (divStep a b k acc) := by
  obtain ⟨hq, hr⟩ := h
  have hbit := Bool.toNat_lt (a.getLsbD k)
  have hroom : uval acc.2 < 2 ^ 511 := lt_of_le_of_lt (hr ▸ Nat.mod_le _ _) (uval_div_two_pow_succ_lt a k)
  have hdiv := div_mod_two_mul_add (uval a / 2 ^ (k + 1)) (uval b) (a.getLsbD k).toNat hb hbit
  rw [← uval_div_two_pow, ← hr] at hdiv
  have hshift : uval acc.1 = 2 * (uval a / 2 ^ (k + 1) / uval b) * 2 ^ k := by rw [hq, pow_succ]; ring
  rw [divStep_spec a b k acc hroom]
  split at hdiv
  next hfits =>
    rw [if_pos hfits]
    constructor
    · have hclear : uval acc.1 % 2 ^ (k + 1) = 0 := by rw [hq, Nat.mul_mod_left]
      rw [uval_or_bit acc.1 k hk hclear, hdiv.1, hshift]
      ring
    · rw [← Nat.cast_sub hfits, uval_enc_of_lt _ (by omega), hdiv.2]
  next hfits =>
    rw [if_neg hfits]
    constructor
    · rw [hdiv.1, hshift]
    · rw [uval_enc_of_lt _ (by omega), hdiv.2]

theorem DivInv.loop {a b : Value} (hb : 0 < uval b) :
    ∀ {k : Nat} {acc : Value × Value}, k ≤ 512 → DivInv a b k acc → DivInv a b 0 (divLoop a b k acc)
  | 0, _, _, h => h
  | k + 1, _, hk, h => DivInv.loop hb (k := k) (by omega) (h.step hb hk)

/-- Above its most-significant bit a value has nothing to divide. -/
theorem DivInv.start (a b : Value) : DivInv a b (msbIndex a + 1) (0, 0) := by
  have h : uval a / 2 ^ (msbIndex a + 1) = 0 := Nat.div_eq_of_lt Nat.lt_log2_self
  exact ⟨by rw [h, Nat.zero_div, Nat.zero_mul]; rfl, by rw [h, Nat.zero_mod]; rfl⟩

theorem msbIndex_lt (a : Value) : msbIndex a < 512 := by
  by_cases h : uval a = 0
  · simp [msbIndex, h]
  · exact (Nat.log2_lt h).2 (uval_lt a)

/-- R106: quotient and remainder of the long division, for every nonzero divisor. -/
theorem uval_divBits (a b : Value) (hb : uval b ≠ 0) :
    uval (divBits a b).1 = uval a / uval b ∧ uval (divBits a b).2 = uval a % uval b := by
  obtain ⟨hq, hr⟩ := (DivInv.start a b).loop (Nat.pos_of_ne_zero hb) (msbIndex_lt a)
  simpa [divBits] using And.intro hq hr

/-- R107: quotient and remainder of the unsigned divide, its fast path for a < b included. -/
theorem uval_divUnsigned (a b : Value) (hb : uval b ≠ 0) :
    uval (divUnsigned a b).1 = uval a / uval b ∧ uval (divUnsigned a b).2 = uval a % uval b := by
  by_cases hlt : uval a < uval b
  · rw [divUnsigned, if_pos hlt, Nat.div_eq_of_lt hlt, Nat.mod_eq_of_lt hlt]
    exact ⟨rfl, rfl⟩
  · rw [divUnsigned, if_neg hlt]
    exact uval_divBits a b hb

/-- Settles O30: bit by bit, the part of the dividend shifted in is divided exactly. -/
theorem longDivisionIsExact : Obligations.LongDivisionIsExact := by
  intro a b hb _
  obtain ⟨hq, hr⟩ := uval_divBits a b hb
  refine ⟨by rw [← hq, enc_uval], by rw [← hr, enc_uval], ?_, ?_⟩
  · rw [hq, hr, Nat.div_add_mod]
  · exact hr ▸ Nat.mod_lt _ (Nat.pos_of_ne_zero hb)

end Sys2Proof.Machine
end

section
/-! PROOFS. What each unsigned command writes (40_unsigned.md R101 to R109). -/

set_option exponentiation.threshold 600

namespace Sys2Proof.Machine

/-! ## Commands with one result (R101, R103, R105) -/

/-- OVERFLOW is reported under any condition that says when the datapath's flag is set. -/
theorem overflowIf_eq_ite {c : Bool} {p : Prop} [Decidable p] (h : c = true ↔ p) :
    overflowIf c = if p then .overflow else .ok := by simp only [overflowIf, h]

theorem underflowIf_eq_ite {c : Bool} {p : Prop} [Decidable p] (h : c = true ↔ p) :
    underflowIf c = if p then .underflow else .ok := by simp only [underflowIf, h]

/-- R101: ADDU on the unsigned readings. -/
theorem exec_addu (rd rs1 rs2 : RegIdx) (s : State) :
    exec (.addu rd rs1 rs2) s = .next (complete
      (if 2 ^ 512 ≤ uval (s.operand rs1) + uval (s.operand rs2) then .overflow else .ok)
      (s.setReg rd (enc ((uval (s.operand rs1) : Int) + uval (s.operand rs2))))) := by
  have hcarry : ((addWords (s.operand rs1) (s.operand rs2) 0).2 == 1) = true ↔
      2 ^ 512 ≤ uval (s.operand rs1) + uval (s.operand rs2) := by simpa using addWords_snd _ _ 0
  have hsum : (addWords (s.operand rs1) (s.operand rs2) 0).1
      = enc ((uval (s.operand rs1) : Int) + uval (s.operand rs2)) := by simpa using addWords_fst _ _ 0
  simp only [exec, execAddu, finishOne_next, overflowIf_eq_ite hcarry, hsum]

/-- R103: SUBU on the unsigned readings. -/
theorem exec_subu (rd rs1 rs2 : RegIdx) (s : State) :
    exec (.subu rd rs1 rs2) s = .next (complete
      (if uval (s.operand rs1) < uval (s.operand rs2) then .underflow else .ok)
      (s.setReg rd (enc ((uval (s.operand rs1) : Int) - uval (s.operand rs2))))) := by
  have hborrow : ((subWords (s.operand rs1) (s.operand rs2) 0).2 == 1) = true ↔
      uval (s.operand rs1) < uval (s.operand rs2) := by simpa using subWords_snd _ _ 0
  have hdiff : (subWords (s.operand rs1) (s.operand rs2) 0).1
      = enc ((uval (s.operand rs1) : Int) - uval (s.operand rs2)) := by simpa using subWords_fst _ _ 0
  simp only [exec, execSubu, finishOne_next, underflowIf_eq_ite hborrow, hdiff]

/-- R105: MULU on the unsigned readings. -/
theorem exec_mulu (rd rs1 rs2 : RegIdx) (s : State) :
    exec (.mulu rd rs1 rs2) s = .next (complete
      (if 2 ^ 512 ≤ uval (s.operand rs1) * uval (s.operand rs2) then .overflow else .ok)
      (s.setReg rd (enc ((uval (s.operand rs1) : Int) * uval (s.operand rs2))))) := by
  simp only [exec, execMulu, finishOne_next, overflowIf_eq_ite (mulWords_snd _ _), mulWords_fst, Nat.cast_mul]

/-- Settles O31: the carry chain's sum and carry out. -/
theorem adduWritesTheSum : Obligations.AdduWritesTheSum := ⟨exec_addu, rfl, rfl⟩

/-- Settles O32: the borrow chain's difference and borrow out. -/
theorem subuWritesTheDifference : Obligations.SubuWritesTheDifference := ⟨exec_subu, rfl, rfl⟩

/-- Settles O33: the schoolbook multiply's product and overflow flag. -/
theorem muluWritesTheProduct : Obligations.MuluWritesTheProduct := ⟨exec_mulu, rfl, rfl⟩

/-! ## DIVU (R107) -/

theorem finishDivide_of_zero {rd rd2 : RegIdx} (hne : rd ≠ rd2) {b : Value} (hb : uval b = 0) (q r : Value)
    (c : StatusCode) (s : State) : finishDivide rd rd2 b q r c s = .next (raiseStatus .divByZero s) := by
  simp [finishDivide, hne, hb]

theorem finishDivide_of_ne_zero {rd rd2 : RegIdx} (hne : rd ≠ rd2) {b : Value} (hb : uval b ≠ 0) (q r : Value)
    (c : StatusCode) (s : State) :
    finishDivide rd rd2 b q r c s = .next (complete c ((s.setReg rd q).setReg rd2 r)) := by
  simp [finishDivide, hne, hb]

/-- R107: DIVU with different destinations and a nonzero divisor. -/
theorem exec_divu_of_ne_zero {rd rd2 : RegIdx} (hne : rd ≠ rd2) (rs1 rs2 : RegIdx) (s : State)
    (hb : uval (s.operand rs2) ≠ 0) :
    ∃ q r, exec (.divu rd rd2 rs1 rs2) s = .next (complete .ok ((s.setReg rd q).setReg rd2 r)) ∧
      uval q = uval (s.operand rs1) / uval (s.operand rs2) ∧ uval r = uval (s.operand rs1) % uval (s.operand rs2) :=
  ⟨_, _, finishDivide_of_ne_zero hne hb _ _ _ s, uval_divUnsigned _ _ hb⟩

/-- Settles O34: the three ways a divide ends, and the long division where it divides. -/
theorem divuWritesQuotientAndRemainder : Obligations.DivuWritesQuotientAndRemainder := by
  refine ⟨fun rd rd2 rs1 rs2 s => ⟨?_, fun hne hb => finishDivide_of_zero hne hb _ _ _ s, fun hne hb => ?_⟩, rfl, rfl⟩
  · rintro rfl
    exact finishDivide_same rd _ _ _ _ s
  · obtain ⟨q, r, hx, hq, hr⟩ := exec_divu_of_ne_zero hne rs1 rs2 s hb
    refine ⟨q, r, hx, hq, hr, by rw [hq, hr, Nat.div_add_mod], ?_⟩
    exact hr ▸ Nat.mod_lt _ (Nat.pos_of_ne_zero hb)

/-! ## Compare and test (R108, R109) -/

/-- Settles O35: the word-by-word compare is the order of the readings. -/
theorem cmpuComparesUnsigned : Obligations.CmpuComparesUnsigned := by
  refine ⟨fun rs1 rs2 s => ?_, rfl, rfl⟩
  simp only [exec, execCmpu, compareUnsigned_eq_orderFlag, orderFlag_natCast]

/-- A value reads 0 iff every word of it is 0. -/
theorem uval_eq_zero_iff (a : Value) : uval a = 0 ↔ ∀ j, word a j = 0 := by
  constructor
  · exact fun h j => word_eq_zero_of_lt a j (h ▸ Nat.two_pow_pos _)
  · exact fun h => by simp [uval_eq_sum, h]

/-- Settles O36: the zero test asks every word, and together they are the reading. -/
theorem tstzTestsEveryWord : Obligations.TstzTestsEveryWord :=
  ⟨fun rs1 s => ⟨isZero (s.operand rs1), rfl, isZero_iff _, (isZero_iff _).trans (uval_eq_zero_iff _).symm⟩, rfl, rfl⟩

end Sys2Proof.Machine
end

section
/-! PROOFS. The frames of the divides, compares and tests (40_unsigned.md R107 to R109, 41_signed.md R125 to R127,
60_exceptions.md R202). -/

namespace Sys2Proof.Machine

/-- The window shows no change outside STATUS and the words of a command's destinations. -/
theorem memRead_of_exec {i : Instr} {s t : State} {a : WAddr} (h : exec i s = .next t) (ha : a ≠ statusAddr)
    (hne : ∀ rd ∈ destinations i, ∀ j, a ≠ regAddr rd j) : memRead t a = memRead s a :=
  memRead_congr ha (exec_keeps h).cmd fun hra =>
    exec_reg_of_not_mem h fun hmem => addrReg_ne_of_ne_regAddr hra (hne _ hmem) rfl

/-- A command without a destination writes no register. -/
theorem exec_regs_of_destinations_nil {i : Instr} {s t : State} (h : exec i s = .next t) (hd : destinations i = []) :
    t.regs = s.regs :=
  RegFile.ext_get _ _ fun j => exec_reg_of_not_mem h (by simp [hd])

/-- A divide that is illegal or has a zero divisor writes no register (R67, R205). -/
theorem finishDivide_regs {rd rd2 : RegIdx} {b q r : Value} {c : StatusCode} {s t : State}
    (hno : rd = rd2 ∨ uval b = 0) (h : finishDivide rd rd2 b q r c s = .next t) : t.regs = s.regs := by
  rcases finishDivide_cases rd rd2 b q r c s with ⟨_, hx⟩ | ⟨_, _, hx⟩ | ⟨hne, hb, _⟩
  · rw [hx] at h; cases h; rfl
  · rw [hx] at h; cases h; rfl
  · exact absurd hno (not_or.2 ⟨hne, hb⟩)

/-- Settles O47: a divide's destinations are rd and rd2 and no flag is its own; without a division not even they change. -/
theorem frameOfDivides : Obligations.FrameOfDivides := by
  intro rd rd2 rs1 rs2 s t i hi h
  simp only [List.mem_cons, List.not_mem_nil, or_false] at hi
  obtain ⟨hcmd, hbusy, hpending, hmark, hdraws, hschedule, hresponses, _⟩ := exec_keeps h
  have hd : destinations i = [rd, rd2] := by rcases hi with rfl | rfl <;> rfl
  have hz : t.z = s.z := (exec_z h).resolve_right (by rcases hi with rfl | rfl <;> simp)
  have hn : t.n = s.n := (exec_n h).resolve_right (by rcases hi with rfl | rfl <;> simp)
  have hcmp : t.cmp = s.cmp := (exec_cmp h).resolve_right (by rcases hi with rfl | rfl <;> simp)
  refine ⟨fun j h1 h2 => exec_reg_of_not_mem h (by simp [hd, h1, h2]), hz, hn, hcmp, hcmd, hbusy, hpending, hmark,
    hdraws, hschedule, hresponses, fun a ha hne => memRead_of_exec h ha ?_, fun hno => ?_⟩
  · simp only [hd, List.forall_mem_cons, List.not_mem_nil, IsEmpty.forall_iff, implies_true, and_true]
    exact forall_and.1 hne
  · rcases hi with rfl | rfl <;> exact finishDivide_regs hno h

/-- Settles O48: these commands have no destination, and each flag is its own commands'. -/
theorem frameOfComparesAndTests : Obligations.FrameOfComparesAndTests := by
  intro rs1 rs2 s t i hi h
  simp only [List.mem_cons, List.not_mem_nil, or_false] at hi
  obtain ⟨hcmd, hbusy, hpending, hmark, hdraws, hschedule, hresponses, _⟩ := exec_keeps h
  have hd : destinations i = [] := by rcases hi with rfl | rfl | rfl | rfl <;> rfl
  refine ⟨exec_regs_of_destinations_nil h hd, hcmd, hbusy, hpending, hmark, hdraws, hschedule, hresponses,
    fun hne => (exec_z h).resolve_right ?_, fun hne => (exec_n h).resolve_right ?_,
    fun htest => (exec_cmp h).resolve_right ?_, fun a ha => memRead_of_exec h ha (by simp [hd])⟩
  · rintro ⟨r, rfl, _⟩
    exact hne (by simpa using hi)
  · rintro ⟨r, rfl, _⟩
    exact hne (by simpa using hi)
  · rcases htest with rfl | rfl <;> simp

end Sys2Proof.Machine
end

section
/-! PROOFS. The laws of the unsigned commands (40_unsigned.md R110, R111). -/

set_option exponentiation.threshold 600

namespace Sys2Proof.Machine

/-- SUBU of a sum below 2^512 and its second summand: no borrow, and the first summand again. -/
theorem exec_subu_of_sum {s : State} {ra rb : RegIdx} {a : Value} (rd : RegIdx)
    (hsum : uval (s.operand ra) = uval a + uval (s.operand rb)) :
    exec (.subu rd ra rb) s = .next (complete .ok (s.setReg rd a)) := by
  have hle : ¬ uval (s.operand ra) < uval (s.operand rb) := by omega
  rw [exec_subu, if_neg hle, hsum, Nat.cast_add, add_sub_cancel_right, enc_uval]

/-- Settles O49: an ADDU with OK has not wrapped, so SUBU takes the sum back; the closed forms are symmetric in the sources
and are read modulo 2^512. -/
theorem unsignedLaws : Obligations.UnsignedLaws := by
  refine ⟨?_, fun s rd ra rb => ⟨?_, ?_⟩, ?_⟩
  · intro s t s' rc ra rb rd ra' rb' h hok hsum hb
    rw [exec_addu] at h
    cases h
    have hfit : uval (s.operand ra) + uval (s.operand rb) < 2 ^ 512 := by simpa using hok
    rw [complete_reg, State.reg_setReg_same] at hsum
    refine ⟨_, exec_subu_of_sum (a := s.operand ra) rd ?_, State.reg_setReg_same _ _ _, rfl⟩
    rw [hsum, hb, ← Nat.cast_add, uval_enc_of_lt _ hfit]
  · simp only [exec_addu, add_comm]
  · simp only [exec_mulu, mul_comm]
  · intro s t u w rd ra rb ht hu hw
    rw [exec_addu] at ht
    rw [exec_subu] at hu
    rw [exec_mulu] at hw
    cases ht
    cases hu
    cases hw
    simp only [complete_reg, State.reg_setReg_same, uval_enc, and_self]

/-- Settles O50: the identity of the quotient and remainder that DIVU leaves in its two registers. -/
theorem unsignedDivisionLaw : Obligations.UnsignedDivisionLaw := by
  intro s rd rd2 ra rb hne
  by_cases hb : uval (s.operand rb) = 0
  · exact ⟨_, finishDivide_of_zero hne hb _ _ _ s, fun h => absurd hb h, fun _ => rfl⟩
  · obtain ⟨q, r, hx, hq, hr⟩ := exec_divu_of_ne_zero hne ra rb s hb
    refine ⟨_, hx, fun _ => ⟨rfl, ?_⟩, fun h => absurd h hb⟩
    simp only [complete_reg, State.reg_setReg, hne, if_true, if_false, hq, hr]
    exact ⟨(Nat.div_add_mod _ _).symm, Nat.mod_lt _ (Nat.pos_of_ne_zero hb)⟩

end Sys2Proof.Machine
end

section
/-! PROOFS. Signed readings as a sign and a magnitude, and the wrapped result of a signed computation (41_signed.md R120). -/

set_option exponentiation.threshold 600

namespace Sys2Proof.Machine

/-! ## The sign bit and the signed range -/

/-- R120: the sign bit is set iff the signed reading is negative. -/
theorem sign_iff_sval_neg (v : Value) : sign v = true ↔ sval v < 0 := by
  have hlt := uval_lt v
  rcases sval_cases v with ⟨hs, _, hv⟩ | ⟨hs, _, hv⟩
  · simp [hs, hv]
  · simp only [hs, true_iff]
    omega

theorem sign_eq_sign_iff (a b : Value) : sign a = sign b ↔ (sval a < 0 ↔ sval b < 0) := by
  rw [Bool.eq_iff_iff, sign_iff_sval_neg, sign_iff_sval_neg]

theorem sval_eq_zero_iff (v : Value) : sval v = 0 ↔ uval v = 0 := by
  have hlt := uval_lt v
  have hcases := sval_cases v
  omega

theorem sval_smin : sval smin = signedMin := by decide

/-- A result in the signed range keeps its sign when it is stored. -/
theorem sign_enc_of_range {n : Int} (h : signedMin ≤ n ∧ n ≤ signedMax) : sign (enc n) = decide (n < 0) := by
  rw [Bool.eq_iff_iff, sign_iff_sval_neg, sval_enc_of_range n h.1 h.2, decide_eq_true_iff]

/-- A result less than 2^512 that is above the signed range reads negative. -/
theorem sign_enc_of_above {n : Int} (h : signedMax < n) (hn : n < 2 ^ 512) : sign (enc n) = true := by
  have hu := uval_enc n
  rw [signedMax] at h
  rw [sign_true_iff]
  omega

/-- A result from -2^512 on that is below the signed range reads non-negative. -/
theorem sign_enc_of_below {n : Int} (h : n < signedMin) (hn : -2 ^ 512 ≤ n) : sign (enc n) = false := by
  have hu := uval_enc n
  rw [signedMin] at h
  rw [sign_false_iff]
  omega

/-! ## The two readings modulo 2^512 (R16, R128) -/

theorem enc_congr {m n : Int} (h : m ≡ n [ZMOD 2 ^ 512]) : enc m = enc n := (enc_eq_enc_iff m n).2 h

theorem sval_modEq_uval (v : Value) : sval v ≡ uval v [ZMOD 2 ^ 512] := by
  rw [Int.ModEq, sval_emod, Int.emod_eq_of_lt (Int.natCast_nonneg _) (by exact_mod_cast uval_lt v)]

theorem enc_sval_add (a b : Value) : enc (sval a + sval b) = enc ((uval a : Int) + uval b) :=
  enc_congr ((sval_modEq_uval a).add (sval_modEq_uval b))

theorem enc_sval_sub (a b : Value) : enc (sval a - sval b) = enc ((uval a : Int) - uval b) :=
  enc_congr ((sval_modEq_uval a).sub (sval_modEq_uval b))

theorem enc_sval_mul (a b : Value) : enc (sval a * sval b) = enc ((uval a : Int) * uval b) :=
  enc_congr ((sval_modEq_uval a).mul (sval_modEq_uval b))

/-! ## Sign and magnitude (R120) -/

/-- The number of sign `c` (set for negative) and magnitude `n`. -/
def withSign (c : Bool) (n : Int) : Int := if c then -n else n

theorem withSign_mul (c d : Bool) (m n : Int) : withSign c m * withSign d n = withSign (c != d) (m * n) := by
  cases c <;> cases d <;> simp [withSign]

theorem withSign_tdiv (c d : Bool) (m n : Int) :
    (withSign c m).tdiv (withSign d n) = withSign (c != d) (m.tdiv n) := by
  cases c <;> cases d <;> simp [withSign]

/-- A remainder takes the dividend's sign. -/
theorem withSign_tmod (c d : Bool) (m n : Int) : (withSign c m).tmod (withSign d n) = withSign c (m.tmod n) := by
  cases c <;> cases d <;> simp [withSign]

/-- A value's signed reading has its sign bit and the reading of its magnitude. -/
theorem sval_eq_withSign (v : Value) : sval v = withSign (sign v) (uval (mag v)) := by
  have hneg := sign_iff_sval_neg v
  rw [uval_mag]
  cases hs : sign v
  · simp only [hs, Bool.false_eq_true, false_iff] at hneg
    simp only [withSign, Bool.false_eq_true, if_false]
    omega
  · simp only [hs, true_iff] at hneg
    simp only [withSign, if_true]
    omega

theorem neg_enc (n : Int) : neg (enc n) = enc (-n) := by
  have hread : sval (enc n) ≡ n [ZMOD 2 ^ 512] := (enc_eq_enc_iff _ _).1 (enc_sval _)
  rw [neg_eq_enc]
  exact enc_congr hread.neg

theorem negateIf_enc (c : Bool) (n : Int) : negateIf c (enc n) = enc (withSign c n) := by
  cases c
  · rfl
  · exact neg_enc n

end Sys2Proof.Machine
end

section
/-! PROOFS. What each signed command writes (41_signed.md R121 to R127). -/

set_option exponentiation.threshold 600

namespace Sys2Proof.Machine

/-! ## NEG (R121) -/

/-- The one nonzero value whose sign bit negation keeps is SMIN. -/
theorem sign_neg_eq_sign_iff {v : Value} (hv : uval v ≠ 0) : sign (neg v) = sign v ↔ v = smin := by
  have hlt := uval_lt v
  have hneg : uval (neg v) = 2 ^ 512 - uval v := by
    rw [uval_neg, Nat.mod_eq_of_lt (by omega)]
  have hsmin : v = smin ↔ uval v = 2 ^ 511 := ⟨by rintro rfl; decide, fun h => uval_inj (h.trans (by decide))⟩
  rw [hsmin, sign_eq_decide, sign_eq_decide, hneg, decide_eq_decide]
  omega

/-- Settles O37: negation modulo 2^512, of which SMIN is the fixed point. -/
theorem negNegates : Obligations.NegNegates := by
  refine ⟨fun rd rs1 s => ?_, by decide, fun v hv => ?_, rfl, rfl⟩
  · simp only [exec, execNeg, finishOne_next, neg_eq_enc]
  · rw [← neg_eq_enc]
    exact sign_neg_eq_sign_iff hv

/-! ## ADDS and SUBS (R122, R123) -/

/-- The code that classifies a sum or difference against the signed range. -/
def rangeStatus (n : Int) : StatusCode := if signedMax < n then .overflow else if n < signedMin then .underflow else .ok

/-- The sign test of R122 and R123 on the stored result of `n`: where the operands' signs let `n` leave the signed range
(`p`), it can do so only on the side of the first operand's sign, by less than 2^512, and then the stored sign is wrong. -/
theorem signTest_eq_rangeStatus {p : Prop} [Decidable p] {a : Value} {n : Int}
    (hin : ¬ p → signedMin ≤ n ∧ n ≤ signedMax)
    (hneg : p → sval a < 0 → -2 ^ 512 ≤ n ∧ n < 0) (hpos : p → ¬ sval a < 0 → 0 ≤ n ∧ n < 2 ^ 512) :
    (if p ∧ sign (enc n) ≠ sign a then (if sign a then .underflow else .overflow) else .ok) = rangeStatus n := by
  by_cases hp : p
  · by_cases ha : sval a < 0
    · obtain ⟨hlow, hn⟩ := hneg hp ha
      have hsign : sign a = true := (sign_iff_sval_neg a).2 ha
      have habove : n ≤ signedMax := by rw [signedMax]; omega
      by_cases hbelow : n < signedMin
      · simp [rangeStatus, hp, hsign, habove.not_gt, hbelow, sign_enc_of_below hbelow hlow]
      · simp [rangeStatus, hp, hsign, habove.not_gt, hbelow, sign_enc_of_range ⟨not_lt.1 hbelow, habove⟩, hn]
    · obtain ⟨hn, hhigh⟩ := hpos hp ha
      have hsign : sign a = false := by simpa using mt (sign_iff_sval_neg a).1 ha
      have hbelow : signedMin ≤ n := by rw [signedMin]; omega
      by_cases habove : signedMax < n
      · simp [rangeStatus, hp, hsign, habove, sign_enc_of_above habove hhigh]
      · simp [rangeStatus, hp, hsign, habove, hbelow.not_gt, sign_enc_of_range ⟨hbelow, not_lt.1 habove⟩, hn]
  · obtain ⟨hmin, hmax⟩ := hin hp
    simp [rangeStatus, hp, hmin.not_gt, hmax.not_gt]

/-- Only a sum of two operands of one sign can leave the signed range. -/
theorem addSignedStatus_eq_rangeStatus (a b : Value) :
    addSignedStatus a b (enc (sval a + sval b)) = rangeStatus (sval a + sval b) := by
  have ha := sval_range a
  have hb := sval_range b
  refine signTest_eq_rangeStatus (fun h => ?_) (fun h _ => ?_) (fun h _ => ?_) <;>
  · rw [sign_eq_sign_iff] at h
    simp only [signedMin, signedMax] at ha hb ⊢
    omega

/-- Only a difference of two operands of different signs can leave the signed range. -/
theorem subSignedStatus_eq_rangeStatus (a b : Value) :
    subSignedStatus a b (enc (sval a - sval b)) = rangeStatus (sval a - sval b) := by
  have ha := sval_range a
  have hb := sval_range b
  refine signTest_eq_rangeStatus (fun h => ?_) (fun h _ => ?_) (fun h _ => ?_) <;>
  · rw [ne_eq, sign_eq_sign_iff] at h
    simp only [signedMin, signedMax] at ha hb ⊢
    omega

/-- R122: ADDS on the signed readings. -/
theorem exec_adds (rd rs1 rs2 : RegIdx) (s : State) :
    exec (.adds rd rs1 rs2) s = .next (complete (rangeStatus (sval (s.operand rs1) + sval (s.operand rs2)))
      (s.setReg rd (enc (sval (s.operand rs1) + sval (s.operand rs2))))) := by
  have hsum : (addWords (s.operand rs1) (s.operand rs2) 0).1 = enc (sval (s.operand rs1) + sval (s.operand rs2)) := by
    simp [addWords_fst, enc_sval_add]
  simp only [exec, execAdds, finishOne_next, hsum, addSignedStatus_eq_rangeStatus]

/-- R123: SUBS on the signed readings. -/
theorem exec_subs (rd rs1 rs2 : RegIdx) (s : State) :
    exec (.subs rd rs1 rs2) s = .next (complete (rangeStatus (sval (s.operand rs1) - sval (s.operand rs2)))
      (s.setReg rd (enc (sval (s.operand rs1) - sval (s.operand rs2))))) := by
  have hdiff : (subWords (s.operand rs1) (s.operand rs2) 0).1 = enc (sval (s.operand rs1) - sval (s.operand rs2)) := by
    simp [subWords_fst, enc_sval_sub]
  simp only [exec, execSubs, finishOne_next, hdiff, subSignedStatus_eq_rangeStatus]

/-- Settles O38: the stored sum's sign is wrong exactly where the sum leaves the signed range. -/
theorem addsClassifiesTheSignedSum : Obligations.AddsClassifiesTheSignedSum := ⟨exec_adds, rfl, rfl⟩

/-- Settles O39: the stored difference's sign is wrong exactly where the difference leaves the signed range. -/
theorem subsClassifiesTheSignedDifference : Obligations.SubsClassifiesTheSignedDifference := ⟨exec_subs, rfl, rfl⟩

/-! ## MULS (R124) -/

/-- R124: the product of the magnitudes, with the sign the operands' signs ask for, is the product. -/
theorem negateIf_mulWords (a b : Value) :
    negateIf (sign a != sign b) (mulWords (mag a) (mag b)).1 = enc (sval a * sval b) := by
  rw [mulWords_fst, negateIf_enc, Nat.cast_mul, ← withSign_mul, ← sval_eq_withSign, ← sval_eq_withSign]

/-- R124: the magnitudes' product overflows or its sign lands wrong iff the product is outside the signed range. -/
theorem mulOverflow_iff (a b : Value) :
    ((mulWords (mag a) (mag b)).2 || badProductSign a b (enc (sval a * sval b))) = true ↔
      ¬ (signedMin ≤ sval a * sval b ∧ sval a * sval b ≤ signedMax) := by
  have hovf := mulWords_snd (mag a) (mag b)
  have hprod : sval a * sval b = withSign (sign a != sign b) (uval (mag a) * uval (mag b) : Nat) := by
    rw [sval_eq_withSign a, sval_eq_withSign b, withSign_mul, Nat.cast_mul]
  have hu := uval_enc (sval a * sval b)
  simp only [Bool.or_eq_true, hovf, signedMin, signedMax, badProductSign, Bool.and_eq_true, beq_iff_eq, bne_iff_ne,
    Bool.not_eq_true', sign_true_iff, sign_false_iff]
  by_cases hab : sign a = sign b
  · have hpos : sval a * sval b = (uval (mag a) * uval (mag b) : Nat) := by simpa [withSign, hab] using hprod
    simp only [hab, true_and, ne_eq, not_true_eq_false, false_and, or_false]
    omega
  · have hneg : sval a * sval b = -(uval (mag a) * uval (mag b) : Nat) := by simpa [withSign, hab] using hprod
    simp only [hab, false_and, ne_eq, not_false_eq_true, true_and, false_or]
    omega

/-- R124: MULS on the signed readings. -/
theorem exec_muls (rd rs1 rs2 : RegIdx) (s : State) :
    exec (.muls rd rs1 rs2) s = .next (complete
      (if signedMin ≤ sval (s.operand rs1) * sval (s.operand rs2) ∧
          sval (s.operand rs1) * sval (s.operand rs2) ≤ signedMax then .ok else .overflow)
      (s.setReg rd (enc (sval (s.operand rs1) * sval (s.operand rs2))))) := by
  simp only [exec, execMuls, finishOne_next, negateIf_mulWords, mulSignedStatus, overflowIf_eq_ite (mulOverflow_iff _ _),
    ite_not]

/-- Settles O40: sign and magnitude give the product, and what the datapath and its sign test flag is what does not fit. -/
theorem mulsClassifiesTheSignedProduct : Obligations.MulsClassifiesTheSignedProduct := ⟨exec_muls, rfl, rfl⟩

/-! ## DIVS (R125) -/

/-- R125: quotient and remainder of the magnitudes, each with the sign it takes, are those of truncating division. -/
theorem negateIf_divUnsigned (a : Value) {b : Value} (hb : uval b ≠ 0) :
    negateIf (sign a != sign b) (divUnsigned (mag a) (mag b)).1 = enc ((sval a).tdiv (sval b)) ∧
      negateIf (sign a) (divUnsigned (mag a) (mag b)).2 = enc ((sval a).tmod (sval b)) := by
  have hmag : uval (mag b) ≠ 0 := by rwa [uval_mag, Int.natAbs_ne_zero, ne_eq, sval_eq_zero_iff]
  obtain ⟨hq, hr⟩ := uval_divUnsigned (mag a) (mag b) hmag
  constructor
  · rw [← enc_uval (divUnsigned _ _).1, hq, negateIf_enc, Int.ofNat_tdiv, ← withSign_tdiv, ← sval_eq_withSign,
      ← sval_eq_withSign]
  · rw [← enc_uval (divUnsigned _ _).2, hr, negateIf_enc, Int.ofNat_tmod, ← withSign_tmod _ (sign b),
      ← sval_eq_withSign, ← sval_eq_withSign]

/-- R125: DIVS with different destinations and a nonzero divisor. -/
theorem exec_divs_of_ne_zero {rd rd2 : RegIdx} (hne : rd ≠ rd2) (rs1 rs2 : RegIdx) (s : State)
    (hb : uval (s.operand rs2) ≠ 0) :
    exec (.divs rd rd2 rs1 rs2) s = .next (complete
      (divSignedStatus (s.operand rs1) (s.operand rs2) (enc ((sval (s.operand rs1)).tdiv (sval (s.operand rs2)))))
      ((s.setReg rd (enc ((sval (s.operand rs1)).tdiv (sval (s.operand rs2))))).setReg rd2
        (enc ((sval (s.operand rs1)).tmod (sval (s.operand rs2)))))) := by
  obtain ⟨hq, hr⟩ := negateIf_divUnsigned (s.operand rs1) hb
  simp only [exec, execDivs, finishDivide_of_ne_zero hne hb, hq, hr]

/-- The truncated quotient leaves the signed range only for SMIN / -1. -/
theorem tdiv_range {a b : Value} (h : ¬ (a = smin ∧ sval b = -1)) :
    signedMin ≤ (sval a).tdiv (sval b) ∧ (sval a).tdiv (sval b) ≤ signedMax := by
  have hmin : a ≠ BitVec.intMin 512 ∨ b ≠ -1#512 := by
    by_contra hc
    simp only [not_or, not_not] at hc
    exact h ⟨hc.1.trans (by decide), by rw [hc.2]; decide⟩
  rw [sval_eq_toInt a, sval_eq_toInt b, ← BitVec.toInt_sdiv_of_ne_or_ne a b hmin, ← sval_eq_toInt]
  exact sval_range _

theorem tmod_range (a b : Value) :
    signedMin ≤ (sval a).tmod (sval b) ∧ (sval a).tmod (sval b) ≤ signedMax := by
  rw [sval_eq_toInt a, sval_eq_toInt b, ← BitVec.toInt_srem a b, ← sval_eq_toInt]
  exact sval_range _

/-- R125: a quotient that fits reads non-negative where the operands' signs agree. -/
theorem divSignedStatus_tdiv {a b : Value} (h : ¬ (a = smin ∧ sval b = -1)) :
    divSignedStatus a b (enc ((sval a).tdiv (sval b))) = .ok := by
  have hsign := sign_enc_of_range (tdiv_range h)
  by_cases hab : sign a = sign b
  · have hnonneg : 0 ≤ (sval a).tdiv (sval b) := by
      rw [sval_eq_withSign a, sval_eq_withSign b, withSign_tdiv, hab, bne_self_eq_false]
      exact Int.tdiv_nonneg (Int.natCast_nonneg _) (Int.natCast_nonneg _)
    simp [divSignedStatus, overflowIf, hsign, hnonneg]
  · simp [divSignedStatus, overflowIf, hab]

/-- R125: DIVS where it divides and the quotient fits: the truncated quotient and its remainder. -/
theorem exec_divs_of_fits {rd rd2 : RegIdx} (hne : rd ≠ rd2) (rs1 rs2 : RegIdx) (s : State)
    (hb : uval (s.operand rs2) ≠ 0) (hfit : ¬ (s.operand rs1 = smin ∧ sval (s.operand rs2) = -1)) :
    ∃ q r, exec (.divs rd rd2 rs1 rs2) s = .next (complete .ok ((s.setReg rd q).setReg rd2 r)) ∧
      sval q = (sval (s.operand rs1)).tdiv (sval (s.operand rs2)) ∧
      sval r = (sval (s.operand rs1)).tmod (sval (s.operand rs2)) := by
  obtain ⟨hqmin, hqmax⟩ := tdiv_range hfit
  obtain ⟨hrmin, hrmax⟩ := tmod_range (s.operand rs1) (s.operand rs2)
  refine ⟨_, _, ?_, sval_enc_of_range _ hqmin hqmax, sval_enc_of_range _ hrmin hrmax⟩
  rw [exec_divs_of_ne_zero hne rs1 rs2 s hb, divSignedStatus_tdiv hfit]

/-- R125: DIVS on SMIN / -1, the one quotient that does not fit. -/
theorem exec_divs_smin_neg_one {rd rd2 rs1 rs2 : RegIdx} (hne : rd ≠ rd2) {s : State}
    (ha : s.operand rs1 = smin) (hb : sval (s.operand rs2) = -1) :
    exec (.divs rd rd2 rs1 rs2) s = .next (complete .overflow ((s.setReg rd smin).setReg rd2 0)) := by
  have hb0 : uval (s.operand rs2) ≠ 0 := by rw [ne_eq, ← sval_eq_zero_iff, hb]; decide
  have hsb : sign (s.operand rs2) = true := by rw [sign_iff_sval_neg, hb]; decide
  have hq : enc (signedMin.tdiv (-1)) = smin := by decide
  have hr : enc (signedMin.tmod (-1)) = 0 := by decide
  have hs : sign smin = true := by decide
  rw [exec_divs_of_ne_zero hne rs1 rs2 s hb0, ha, hb, sval_smin, hq, hr]
  simp [divSignedStatus, overflowIf, hs, hsb]

/-- Settles O41: the four ways a signed divide ends; the quotient of the magnitudes carries its sign except for SMIN / -1. -/
theorem divsTruncates : Obligations.DivsTruncates := by
  refine ⟨fun rd rd2 rs1 rs2 s => ⟨?_, fun hne hb => finishDivide_of_zero hne hb _ _ _ s,
    fun hne ha hb => exec_divs_smin_neg_one hne ha hb, fun hne hb hfit => ?_⟩, rfl, rfl⟩
  · rintro rfl
    exact finishDivide_same rd _ _ _ _ s
  · obtain ⟨q, r, hx, hq, hr⟩ := exec_divs_of_fits hne rs1 rs2 s hb hfit
    exact ⟨q, r, hx, hq, by rw [hr, hq, Int.tmod_def]⟩

/-! ## Compare and test (R126, R127) -/

/-- Settles O42: signs first and then words, which is the order of the signed readings. -/
theorem cmpsComparesSigned : Obligations.CmpsComparesSigned := by
  refine ⟨fun rs1 rs2 s => ?_, rfl, rfl⟩
  simp only [exec, execCmps, compareSigned_eq_orderFlag, orderFlag]

/-- Settles O43: the bit TSTN copies is the sign of the signed reading. -/
theorem tstnReadsTheSign : Obligations.TstnReadsTheSign :=
  ⟨fun _ _ => ⟨rfl, sign_iff_sval_neg _⟩, rfl, rfl⟩

end Sys2Proof.Machine
end

section
/-! PROOFS. The laws of the signed commands (41_signed.md R128). -/

set_option exponentiation.threshold 600

namespace Sys2Proof.Machine

/-- A remainder is zero or has the dividend's sign. -/
theorem tmod_eq_zero_or_neg_iff (a b : Int) : a.tmod b = 0 ∨ (a.tmod b < 0 ↔ a < 0) := by
  by_cases hdvd : b ∣ a
  · exact .inl (Int.tmod_eq_zero_of_dvd hdvd)
  · have hsign : (a.tmod b).sign = a.sign := by rw [Int.sign_tmod, if_neg hdvd]
    exact .inr (by rw [← Int.sign_eq_neg_one_iff_neg, hsign, Int.sign_eq_neg_one_iff_neg])

theorem abs_tmod_lt (a : Int) {b : Int} (hb : b ≠ 0) : |a.tmod b| < |b| := by
  rw [Int.abs_eq_natAbs, Int.abs_eq_natAbs, Int.natAbs_tmod]
  exact_mod_cast Nat.mod_lt _ (Int.natAbs_pos.2 hb)

/-- R128: a = b * q + r, r zero or of a's sign, and |r| < |b|, for the registers DIVS leaves. -/
theorem signedDivisionLaw {s : State} {rd rd2 ra rb : RegIdx} (hne : rd ≠ rd2) (hb : uval (s.operand rb) ≠ 0)
    (hfit : ¬ (s.operand ra = smin ∧ sval (s.operand rb) = -1)) :
    ∃ t, exec (.divs rd rd2 ra rb) s = .next t ∧
      sval (s.operand ra) = sval (s.operand rb) * sval (t.reg rd) + sval (t.reg rd2) ∧
      (sval (t.reg rd2) = 0 ∨ (sval (t.reg rd2) < 0 ↔ sval (s.operand ra) < 0)) ∧
      |sval (t.reg rd2)| < |sval (s.operand rb)| := by
  obtain ⟨q, r, hx, hq, hr⟩ := exec_divs_of_fits hne ra rb s hb hfit
  refine ⟨_, hx, ?_⟩
  simp only [complete_reg, State.reg_setReg, hne, if_true, if_false, hq, hr]
  exact ⟨(Int.mul_tdiv_add_tmod _ _).symm, tmod_eq_zero_or_neg_iff _ _, abs_tmod_lt _ (mt (sval_eq_zero_iff _).1 hb)⟩

/-- R128: SMAX + 1 overflows, to SMIN. -/
theorem exec_adds_smax_sone {s : State} (rd : RegIdx) {ra rb : RegIdx} (ha : s.operand ra = romValue .smax)
    (hb : s.operand rb = romValue .sone) : exec (.adds rd ra rb) s = .next (complete .overflow (s.setReg rd smin)) := by
  have hstatus : rangeStatus (sval (romValue .smax) + sval (romValue .sone)) = .overflow := by decide
  have hsum : enc (sval (romValue .smax) + sval (romValue .sone)) = smin := by decide
  rw [exec_adds, ha, hb, hstatus, hsum]

/-- Settles O51: the laws of truncating division, the symmetry of the closed forms in the sources, and the two readings of
the sources, which agree modulo 2^512. -/
theorem signedLaws : Obligations.SignedLaws := by
  refine ⟨fun _ _ _ _ _ => signedDivisionLaw, fun s rd ra rb ha hb => ?_,
    fun s rd ra rb => ⟨?_, ?_⟩, fun s rd ra rb => ⟨?_, ?_, ?_⟩⟩
  · exact ⟨_, exec_adds_smax_sone rd ha hb, rfl, State.reg_setReg_same _ _ _⟩
  · simp only [exec_adds, add_comm]
  · simp only [exec_muls, mul_comm]
  · exact ⟨_, _, exec_adds rd ra rb s, exec_addu rd ra rb s, by rw [enc_sval_add]; rfl⟩
  · exact ⟨_, _, exec_subs rd ra rb s, exec_subu rd ra rb s, by rw [enc_sval_sub]; rfl⟩
  · exact ⟨_, _, exec_muls rd ra rb s, exec_mulu rd ra rb s, by rw [enc_sval_mul]; rfl⟩

end Sys2Proof.Machine
end

section
/-! PROOFS. What LDC and MOV write (42_move_const.md R140, R141). -/

set_option exponentiation.threshold 600

namespace Sys2Proof.Machine

/-! ## The constant ROM (10_state.md R34) -/

theorem romValue_umax : romValue .umax = enc (2 ^ 512 - 1) := by decide

theorem romValue_smax : romValue .smax = enc (2 ^ 511 - 1) := by decide

theorem romValue_smin : romValue .smin = enc (-2 ^ 511) := by decide

/-- R34: SMIN is the pattern with only bit 511 set. -/
theorem getLsbD_romValue_smin (n : Nat) : (romValue .smin).getLsbD n = true ↔ n = 511 := by
  have hpow : romValue .smin = BitVec.twoPow 512 511 := by decide
  rw [hpow, BitVec.getLsbD_twoPow]
  simp [eq_comm]

/-! ## LDC (R140) -/

/-- R140: LDC writes the constant as the ROM holds it, whichever the constant. -/
theorem exec_ldc (rd : RegIdx) (k : NamedConst) (s : State) :
    exec (.ldc rd k) s = .next (complete .ok (s.setReg rd (romValue k))) := rfl

/-- Settles O44: what LDC writes is the ROM's pattern, and a constant's own selector is the one that names it. -/
theorem ldcLoadsTheNamedConstant : Obligations.LdcLoadsTheNamedConstant := by
  refine ⟨fun rd k s => ⟨romValue k, exec_ldc rd k s, ?uzero, ?uone, ?umax, ?szero, ?sone, ?smax, ?smin⟩,
    ⟨namedConstOfSelector_selector .uzero, namedConstOfSelector_selector .uone, namedConstOfSelector_selector .umax,
      namedConstOfSelector_selector .szero, namedConstOfSelector_selector .sone, namedConstOfSelector_selector .smax,
      namedConstOfSelector_selector .smin, (namedConstOfSelector_eq_none 7).2 rfl⟩,
    ⟨rfl, rfl, rfl, rfl, rfl, rfl, rfl⟩, rfl, rfl⟩
  case uzero | szero | uone | sone => rintro rfl; rfl
  case umax => rintro rfl; exact romValue_umax
  case smax => rintro rfl; exact romValue_smax
  case smin => rintro rfl; exact ⟨romValue_smin, getLsbD_romValue_smin⟩

/-! ## MOV (R141) -/

/-- R141: MOV writes the operand itself. -/
theorem exec_mov (rd rs1 : RegIdx) (s : State) :
    exec (.mov rd rs1) s = .next (complete .ok (s.setReg rd (s.operand rs1))) := rfl

/-- Settles O45: the register MOV writes reads back as the operand, and so does each of its words. -/
theorem movCopiesEveryWord : Obligations.MovCopiesEveryWord :=
  ⟨fun rd rs1 s => ⟨exec_mov rd rs1 s, fun _ => by rw [State.reg_setReg_same]⟩, rfl, rfl⟩

end Sys2Proof.Machine
end

section
/-! PROOFS. What a host writes for a narrow operand (45_codec_procedures.md R166). -/

namespace Sys2Proof.Machine

variable {width : Nat}

theorem getLsbD_widenUnsigned (x : BitVec width) (k : Nat) :
    (widenUnsigned x).getLsbD k = (decide (k < 512) && x.getLsbD k) := BitVec.getLsbD_setWidth _ _ _

theorem getLsbD_widenSigned (x : BitVec width) (k : Nat) :
    (widenSigned x).getLsbD k = (decide (k < 512) && if k < width then x.getLsbD k else x.msb) :=
  BitVec.getLsbD_signExtend _

/-- A word above the operand holds no bit of it. -/
theorem word_widenUnsigned_above (x : BitVec width) {j : WordIdx} (h : width ≤ 64 * j.val) :
    word (widenUnsigned x) j = 0 := by
  apply BitVec.eq_of_getLsbD_eq
  intro k _
  have hx : x.getLsbD (64 * j.val + k) = false := BitVec.getLsbD_of_ge _ _ (by omega)
  simp [getLsbD_word, getLsbD_widenUnsigned, hx]

/-- A word above the operand repeats its sign. -/
theorem word_widenSigned_above (x : BitVec width) {j : WordIdx} (h : width ≤ 64 * j.val) :
    word (widenSigned x) j = if x.msb then 0xFFFFFFFFFFFFFFFF else 0 := by
  apply BitVec.eq_of_getLsbD_eq
  intro k hk
  have hin : 64 * j.val + k < 512 := by omega
  have hout : ¬ 64 * j.val + k < width := by omega
  have hones : (0xFFFFFFFFFFFFFFFF : Word).getLsbD k = true := by
    rw [show (0xFFFFFFFFFFFFFFFF : Word) = BitVec.allOnes 64 by decide, BitVec.getLsbD_allOnes, decide_eq_true hk]
  rw [getLsbD_word, getLsbD_widenSigned]
  cases x.msb
  · simp [hout]
  · simp only [if_true, hones, hk, hin, hout, if_false, decide_true, Bool.and_self]

/-- A word within the operand is that word of it. -/
theorem word_widen_within (x : BitVec width) {j : WordIdx} (h : 64 * j.val + 64 ≤ width) :
    word (widenUnsigned x) j = x.extractLsb' (64 * j.val) 64 ∧
      word (widenSigned x) j = x.extractLsb' (64 * j.val) 64 := by
  constructor <;> apply BitVec.eq_of_getLsbD_eq <;> intro k hk
  · have hin : 64 * j.val + k < 512 := by omega
    rw [getLsbD_word, getLsbD_widenUnsigned]
    simp [hk, hin]
  · have hin : 64 * j.val + k < 512 := by omega
    have hx : 64 * j.val + k < width := by omega
    rw [getLsbD_word, getLsbD_widenSigned]
    simp [hk, hin, hx]

/-- Word 0 of an operand of at most one word is its extension to one word. -/
theorem word_zero_widen (x : BitVec width) :
    word (widenUnsigned x) 0 = x.setWidth 64 ∧ word (widenSigned x) 0 = x.signExtend 64 := by
  constructor <;> apply BitVec.eq_of_getLsbD_eq <;> intro k hk
  · have hin : k < 512 := by omega
    rw [getLsbD_word, getLsbD_widenUnsigned]
    simp [hk, hin]
  · have hin : k < 512 := by omega
    rw [getLsbD_word, getLsbD_widenSigned, BitVec.getLsbD_signExtend]
    simp [hk, hin]

/-- R16: widening keeps both readings. -/
theorem uval_widenUnsigned (x : BitVec width) (h : width ≤ 512) : uval (widenUnsigned x) = x.toNat :=
  BitVec.toNat_setWidth_of_le h

theorem sval_widenSigned (x : BitVec width) (h : width ≤ 512) : sval (widenSigned x) = x.toInt :=
  (sval_eq_toInt _).trans (BitVec.toInt_signExtend_of_le h)

/-- Settles O59: bit by bit, a word below the operand's width is the operand's, a word above it is its extension. -/
theorem wideningKeepsTheValue : Obligations.WideningKeepsTheValue := by
  refine ⟨fun width x hw => ?_, fun x => ?_, fun width x hw => ?_⟩
  · have hle : width ≤ 64 := by revert width; simp
    refine ⟨(word_zero_widen x).1, (word_zero_widen x).2, fun j hj => ?_⟩
    have hpos : 0 < j.val := Fin.pos_iff_ne_zero.2 hj
    have habove : width ≤ 64 * j.val := by omega
    exact ⟨word_widenUnsigned_above x habove, word_widenSigned_above x habove⟩
  · obtain ⟨hu0, hs0⟩ := word_widen_within x (j := 0) (by decide)
    obtain ⟨hu1, hs1⟩ := word_widen_within x (j := 1) (by decide)
    refine ⟨hu0, hu1, hs0, hs1, fun j hj0 hj1 => ?_⟩
    have habove : 128 ≤ 64 * j.val := by
      have h0 : 0 < j.val := Fin.pos_iff_ne_zero.2 hj0
      have h1 : j.val ≠ 1 := fun e => hj1 (Fin.ext e)
      omega
    exact ⟨word_widenUnsigned_above x habove, word_widenSigned_above x habove⟩
  · have hle : width ≤ 512 := by revert width; simp
    exact ⟨uval_widenUnsigned x hle, sval_widenSigned x hle⟩

end Sys2Proof.Machine
end

section
/-! PROOFS. The host procedures check their arguments first (45_codec_procedures.md R150, R153; log 14). -/

namespace Sys2Proof.Machine

theorem radixLegal_iff {radix : Int} : radixLegal radix = true ↔ 2 ≤ radix ∧ radix ≤ 36 := by simp [radixLegal]

/-! ## The checks -/

section
variable {α : Type} {radix : Int}

theorem checkArguments_of_radix_out (h : radix < 2 ∨ 36 < radix) (buffer : Option α) :
    checkArguments radix buffer = .invalidBase := by
  have hno : radixLegal radix = false := by
    rw [← Bool.not_eq_true, radixLegal_iff]
    omega
  simp [checkArguments, hno]

theorem checkArguments_none (h : radixLegal radix = true) : checkArguments radix (none : Option α) = .nullPointer := by
  simp [checkArguments, h]

theorem checkArguments_some (h : radixLegal radix = true) (b : α) : checkArguments radix (some b) = .ok := by
  simp [checkArguments, h]

/-- The checks pass for a legal radix and a buffer that is there. -/
theorem checkArguments_eq_ok {buffer : Option α} (h : checkArguments radix buffer = .ok) :
    radixLegal radix = true ∧ ∃ b, buffer = some b := by
  unfold checkArguments at h
  split_ifs at h with hr hb
  exact ⟨by simpa using hr, Option.ne_none_iff_exists'.1 (by simpa using hb)⟩

end

/-! ## A procedure whose arguments do not pass -/

section
variable {polls : Nat → Nat} {g : CodecRegs} {v jv : Value} {cap : Option Nat} {text : Option (List Byte)} {radix : Int}
  {junk : List Byte} {s : State}

theorem toStringU_of_rejected (h : checkArguments radix cap ≠ .ok) :
    toStringU v radix cap junk = { status := checkArguments radix cap, text := junk } := by
  unfold toStringU; split
  · contradiction
  · rfl

theorem toStringS_of_rejected (h : checkArguments radix cap ≠ .ok) :
    toStringS v radix cap junk = { status := checkArguments radix cap, text := junk } := by
  unfold toStringS; split
  · contradiction
  · rfl

theorem fromStringU_of_rejected (h : checkArguments radix text ≠ .ok) :
    fromStringU text radix jv = { status := checkArguments radix text, value := jv } := by
  unfold fromStringU; split
  · contradiction
  · rfl

theorem fromStringS_of_rejected (h : checkArguments radix text ≠ .ok) :
    fromStringS text radix jv = { status := checkArguments radix text, value := jv } := by
  unfold fromStringS; split
  · contradiction
  · rfl

theorem toStringUOnBlock_of_rejected (h : checkArguments radix cap ≠ .ok) :
    toStringUOnBlock polls g v radix cap s = failText (checkArguments radix cap) s := by
  unfold toStringUOnBlock; split
  · contradiction
  · rfl

theorem toStringSOnBlock_of_rejected (h : checkArguments radix cap ≠ .ok) :
    toStringSOnBlock polls g v radix cap s = failText (checkArguments radix cap) s := by
  unfold toStringSOnBlock; split
  · contradiction
  · rfl

theorem fromStringUOnBlock_of_rejected (h : checkArguments radix text ≠ .ok) :
    fromStringUOnBlock polls g text radix s = failValue (checkArguments radix text) s := by
  unfold fromStringUOnBlock; split
  · contradiction
  · rfl

theorem fromStringSOnBlock_of_rejected (h : checkArguments radix text ≠ .ok) :
    fromStringSOnBlock polls g text radix s = failValue (checkArguments radix text) s := by
  unfold fromStringSOnBlock; split
  · contradiction
  · rfl

/-- Arguments that do not pass with code `c`: each of the four procedures returns `c` and draws its free output. -/
theorem procedures_of_rejected {c : StatusCode} (hne : c ≠ .ok) (hcap : checkArguments radix cap = c)
    (htext : checkArguments radix text = c) :
    (∃ x, toStringUOnBlock polls g v radix cap s = .next ({ status := c, text := x }, countDraw s)) ∧
    (∃ x, toStringSOnBlock polls g v radix cap s = .next ({ status := c, text := x }, countDraw s)) ∧
    (∃ x, fromStringUOnBlock polls g text radix s = .next ({ status := c, value := x }, countDraw s)) ∧
    (∃ x, fromStringSOnBlock polls g text radix s = .next ({ status := c, value := x }, countDraw s)) := by
  have hcap' : checkArguments radix cap ≠ .ok := hcap ▸ hne
  have htext' : checkArguments radix text ≠ .ok := htext ▸ hne
  rw [toStringUOnBlock_of_rejected hcap', toStringSOnBlock_of_rejected hcap', fromStringUOnBlock_of_rejected htext',
    fromStringSOnBlock_of_rejected htext', hcap, htext]
  exact ⟨⟨_, rfl⟩, ⟨_, rfl⟩, ⟨_, rfl⟩, ⟨_, rfl⟩⟩

end

/-- Settles O52: the checks come before the first window access of each procedure, the radix first. -/
theorem proceduresCheckTheirArgumentsFirst : Obligations.ProceduresCheckTheirArgumentsFirst := by
  refine fun polls g v cap text radix s => ⟨fun hout => ?_, fun h2 h36 => ?_⟩
  · exact procedures_of_rejected (by decide) (checkArguments_of_radix_out hout _) (checkArguments_of_radix_out hout _)
  · have hr := radixLegal_iff.2 ⟨h2, h36⟩
    exact procedures_of_rejected (by decide) (checkArguments_none hr) (checkArguments_none hr)

end Sys2Proof.Machine
end

section
/-! PROOFS. The digits of a value and the text of to_string (45_codec_procedures.md R151, R155, R156, R159). -/

set_option exponentiation.threshold 600

namespace Sys2Proof.Machine

/-! ## The digits (R155, R156) -/

section
variable {radix : Nat} (hb : 1 < radix)
include hb

/-- With rounds enough the loop of R155 collects the digits of its number. -/
theorem digitsLow_eq_digits : ∀ {fuel w : Nat}, w < radix ^ fuel →
    digitsLow radix fuel w = (Nat.digits radix w).map digitChar
  | 0, w, hw => by
    obtain rfl : w = 0 := by simpa using hw
    simp [digitsLow]
  | fuel + 1, w, hw => by
    by_cases h0 : w = 0
    · simp [digitsLow, h0]
    · have hdiv : w / radix < radix ^ fuel := Nat.div_lt_of_lt_mul (by rwa [pow_succ'] at hw)
      rw [digitsLow, if_neg h0, Nat.digits_def' hb (Nat.pos_of_ne_zero h0), List.map_cons, digitsLow_eq_digits hdiv]

/-- 512 rounds are enough for every value. -/
theorem uval_lt_radix_pow (v : Value) : uval v < radix ^ 512 :=
  (uval_lt v).trans_le (Nat.pow_le_pow_left hb 512)

theorem digitsText_of_ne_zero {v : Value} (hv : uval v ≠ 0) :
    digitsText v radix = ((Nat.digits radix (uval v)).map digitChar).reverse := by
  rw [digitsText, if_neg hv, digitsLow_eq_digits hb (uval_lt_radix_pow hb v)]

theorem length_digitsText_of_ne_zero {v : Value} (hv : uval v ≠ 0) :
    (digitsText v radix).length = (Nat.digits radix (uval v)).length := by
  rw [digitsText_of_ne_zero hb hv, List.length_reverse, List.length_map]

/-- R156: at most 512 digits, whatever the radix. -/
theorem length_digitsText_le (v : Value) : (digitsText v radix).length ≤ 512 := by
  by_cases hv : uval v = 0
  · simp [digitsText, hv]
  · rw [length_digitsText_of_ne_zero hb hv, Nat.digits_length_le_iff hb]
    exact uval_lt_radix_pow hb v

end

/-! ## The text (R155, R159) -/

/-- A legal radix is at least 2, as a number too. -/
theorem one_lt_toNat_of_radixLegal {radix : Int} (hr : radixLegal radix = true) : 1 < radix.toNat := by
  have := radixLegal_iff.1 hr
  omega

theorem toNat_le_of_radixLegal {radix : Int} (hr : radixLegal radix = true) : radix.toNat ≤ 36 := by
  have := radixLegal_iff.1 hr
  omega

theorem fitText_of_le {digits : List Byte} {cap : Nat} (h : digits.length + 1 ≤ cap) (junk : List Byte) :
    fitText digits cap junk = { status := .ok, text := digits ++ [charNul] } := by
  rw [fitText, if_neg (by omega)]

theorem fitText_of_gt {digits : List Byte} {cap : Nat} (h : cap < digits.length + 1) (junk : List Byte) :
    fitText digits cap junk = { status := .invalidString, text := junk } := by
  rw [fitText, if_pos h]

/-- R159: the text of a signed value without its terminator: for a negative one a '-' and its magnitude's digits. -/
def signedText (v : Value) (radix : Nat) : List Byte :=
  if sign v then charMinus :: digitsText (neg v) radix else digitsText v radix

section
variable {v : Value} {radix : Int} {cap : Nat} {junk : List Byte}

theorem toStringU_of_legal (hr : radixLegal radix = true) :
    toStringU v radix (some cap) junk = fitText (digitsText v radix.toNat) cap junk := by
  simp [toStringU, checkArguments_some hr]

/-- R159: to_string_s fits its text as to_string_u does, the '-' counted. -/
theorem toStringS_of_legal (hr : radixLegal radix = true) :
    toStringS v radix (some cap) junk = fitText (signedText v radix.toNat) cap junk := by
  simp only [toStringS, checkArguments_some hr, toStringU_of_legal hr, Option.getD_some, signedText]
  split
  next =>
    by_cases hlt : cap < (digitsText (neg v) radix.toNat).length + 2
    · rw [fitText_of_gt (by omega), fitText_of_gt (by rw [List.length_cons]; omega)]
      split <;> rfl
    · rw [fitText_of_le (by omega), fitText_of_le (by rw [List.length_cons]; omega), if_neg (by omega)]
      rfl
  next => rfl

/-- to_string answers OK only for a legal radix. -/
theorem radixLegal_of_toStringU_ok (h : (toStringU v radix (some cap) junk).status = .ok) : radixLegal radix = true := by
  by_cases hc : checkArguments radix (some cap) = .ok
  · exact (checkArguments_eq_ok hc).1
  · rw [toStringU_of_rejected hc] at h
    exact absurd h hc

theorem radixLegal_of_toStringS_ok (h : (toStringS v radix (some cap) junk).status = .ok) : radixLegal radix = true := by
  by_cases hc : checkArguments radix (some cap) = .ok
  · exact (checkArguments_eq_ok hc).1
  · rw [toStringS_of_rejected hc] at h
    exact absurd h hc

end

theorem length_signedText_le {radix : Nat} (hb : 1 < radix) (v : Value) : (signedText v radix).length ≤ 513 := by
  unfold signedText
  split
  · exact Nat.succ_le_succ (length_digitsText_le hb _)
  · exact (length_digitsText_le hb v).trans (Nat.le_succ 512)

/-- Settles O53: the digits are those of the value in the radix, of which the library says how many there are. -/
theorem digitCountIsLeast : Obligations.DigitCountIsLeast := by
  refine ⟨fun v radix h2 _ hv => ?_, fun v radix cap junk h2 h36 => ⟨fun hcap => ?_, fun hcap => ?_⟩⟩
  · rw [length_digitsText_of_ne_zero h2 hv]
    refine ⟨Nat.lt_base_pow_length_digits h2, fun m => (Nat.lt_digits_length_iff h2 _).1, ?_, ?_⟩
    · exact List.length_pos_iff.2 (Nat.digits_ne_nil_iff_ne_zero.2 hv)
    · exact (Nat.digits_length_le_iff h2 _).2 (uval_lt_radix_pow h2 v)
  · have hr := radixLegal_iff.2 ⟨h2, h36⟩
    have hlen := length_digitsText_le (one_lt_toNat_of_radixLegal hr) v
    rw [toStringU_of_legal hr, fitText_of_le (by omega)]
  · have hr := radixLegal_iff.2 ⟨h2, h36⟩
    have hlen := length_signedText_le (one_lt_toNat_of_radixLegal hr) v
    rw [toStringS_of_legal hr, fitText_of_le (by omega)]

end Sys2Proof.Machine
end

section
/-! PROOFS. Parsing the text of to_string (45_codec_procedures.md R152, R157, R158, R160 to R162). -/

set_option exponentiation.threshold 600

namespace Sys2Proof.Machine

/-! ## Characters with a digit value (R151, R152) -/

theorem digitValue_digitChar : ∀ d < 36, digitValue (digitChar d) = some d := by decide

/-- A character with a digit value is no blank and no sign. -/
theorem ne_of_digitValue_isSome {ch : Byte} (h : (digitValue ch).isSome = true) :
    ch ≠ charSpace ∧ ch ≠ charTab ∧ ch ≠ charPlus ∧ ch ≠ charMinus := by
  refine ⟨?_, ?_, ?_, ?_⟩ <;> rintro rfl <;> exact absurd h (by decide)

/-- Text that begins with a digit is not trimmed. -/
theorem trimText_of_digit {ch : Byte} (h : (digitValue ch).isSome = true) (rest : List Byte) :
    trimText (ch :: rest) = ch :: rest := by
  obtain ⟨hspace, htab, hplus, _⟩ := ne_of_digitValue_isSome h
  simp [trimText, skipBlanks, dropPlus, hspace, htab, hplus]

/-- Text that begins with a digit has no sign. -/
theorem sign_of_digit {ch : Byte} (h : (digitValue ch).isSome = true) (rest : List Byte) :
    startsWithMinus (ch :: rest) = false ∧ dropSign (ch :: rest) = ch :: rest := by
  obtain ⟨_, _, hplus, hminus⟩ := ne_of_digitValue_isSome h
  simp [startsWithMinus, dropSign, hplus, hminus]

theorem digitInRadix_digitChar {radix d : Nat} (h36 : radix ≤ 36) (hd : d < radix) :
    digitInRadix radix (digitChar d) = some d := by
  simp [digitInRadix, digitValue_digitChar d (by omega), hd]

/-- The text of a value begins with a digit. -/
theorem digitsText_eq_cons {radix : Nat} (hb : 1 < radix) (h36 : radix ≤ 36) (v : Value) :
    ∃ ch rest, digitsText v radix = ch :: rest ∧ (digitValue ch).isSome = true := by
  by_cases hv : uval v = 0
  · exact ⟨charZero, [], by rw [digitsText, if_pos hv], by decide⟩
  · have hne : digitsText v radix ≠ [] := by
      simpa [digitsText_of_ne_zero hb hv] using Nat.digits_ne_nil_iff_ne_zero.2 hv
    obtain ⟨ch, rest, htext⟩ := List.exists_cons_of_ne_nil hne
    refine ⟨ch, rest, htext, ?_⟩
    have hmem : ch ∈ digitsText v radix := by simp [htext]
    rw [digitsText_of_ne_zero hb hv, List.mem_reverse, List.mem_map] at hmem
    obtain ⟨d, hd, rfl⟩ := hmem
    rw [digitValue_digitChar d ((Nat.digits_lt_base hb hd).trans_le h36)]
    rfl

/-! ## Accumulation (R158) -/

/-- A digit is accumulated exactly where the result fits. -/
theorem accumulateDigit_of_lt {acc : Value} {radix d : Nat} (hr : radix < 2 ^ 512)
    (hfit : uval acc * radix + d < 2 ^ 512) :
    accumulateDigit acc radix d = { status := .ok, value := enc (uval acc * radix + d : Nat) } := by
  have hradix := uval_enc_of_lt radix hr
  have hdigit := uval_enc_of_lt d (by omega)
  have hovf : (mulWords acc (enc radix)).2 = false := by
    rw [← Bool.not_eq_true, mulWords_snd, hradix]
    omega
  have hprod : uval (mulWords acc (enc radix)).1 = uval acc * radix := by
    rw [mulWords_fst, hradix, uval_enc_of_lt _ (by omega)]
  have hcarry : ((addWords (mulWords acc (enc radix)).1 (enc d) 0).2 == 1) = false := by
    rw [← Bool.not_eq_true, beq_iff_eq, addWords_snd, hprod, hdigit]
    simpa using hfit
  have hsum : (addWords (mulWords acc (enc radix)).1 (enc d) 0).1 = enc (uval acc * radix + d : Nat) := by
    rw [addWords_fst, hprod, hdigit]
    rfl
  simp only [accumulateDigit, hovf, hcarry, hsum, overflowIf, Bool.false_eq_true, if_false]

theorem accumulateText_cons_of_none {radix : Nat} {ch : Byte} (hch : digitInRadix radix ch = none) (acc : Value)
    (rest : List Byte) : accumulateText radix acc (ch :: rest) = { status := .invalidString, value := acc } := by
  simp [accumulateText, hch]

theorem accumulateText_cons_of_some {radix d : Nat} {ch : Byte} (hch : digitInRadix radix ch = some d) (acc : Value)
    (rest : List Byte) : accumulateText radix acc (ch :: rest) =
      if (accumulateDigit acc radix d).status = .ok then accumulateText radix (accumulateDigit acc radix d).value rest
      else accumulateDigit acc radix d := by
  simp [accumulateText, hch]

/-- Accumulation goes on where a first part of the text ended with OK. -/
theorem accumulateText_append {radix : Nat} {v : Value} {xs : List Byte} (ys : List Byte) : ∀ {acc : Value},
    accumulateText radix acc xs = { status := .ok, value := v } →
    accumulateText radix acc (xs ++ ys) = accumulateText radix v ys := by
  induction xs with
  | nil => intro acc h; cases h; rfl
  | cons ch xs ih =>
    intro acc h
    cases hch : digitInRadix radix ch with
    | none => rw [accumulateText_cons_of_none hch] at h; cases h
    | some d =>
      rw [accumulateText_cons_of_some hch] at h
      rw [List.cons_append, accumulateText_cons_of_some hch]
      split at h
      next hok => rw [if_pos hok, ih h]
      next hne => exact absurd (congrArg ValueResult.status h) hne

/-- One digit that is accumulated with OK. -/
theorem accumulateText_digit {acc : Value} {radix d : Nat} (h36 : radix ≤ 36) (hd : d < radix)
    (hfit : uval acc * radix + d < 2 ^ 512) :
    accumulateText radix acc [digitChar d] = { status := .ok, value := enc (uval acc * radix + d : Nat) } := by
  rw [accumulateText_cons_of_some (digitInRadix_digitChar h36 hd), accumulateDigit_of_lt (by omega) hfit, if_pos rfl,
    accumulateText]

/-- The digits of a number below 2^512, most significant first, accumulate to it. -/
theorem accumulateText_digits {radix : Nat} (hb : 1 < radix) (h36 : radix ≤ 36) (n : Nat) (hn : n < 2 ^ 512) :
    accumulateText radix 0 ((Nat.digits radix n).map digitChar).reverse = { status := .ok, value := enc n } := by
  induction n using Nat.strong_induction_on with
  | _ n ih =>
    by_cases h0 : n = 0
    · rw [h0, Nat.digits_zero]
      rfl
    · have hlt : n / radix < n := Nat.div_lt_self (Nat.pos_of_ne_zero h0) hb
      have hquot : uval (enc (n / radix : Nat)) = n / radix := uval_enc_of_lt _ (by omega)
      have hn' : uval (enc (n / radix : Nat)) * radix + n % radix = n := by rw [hquot, Nat.div_add_mod']
      rw [Nat.digits_def' hb (Nat.pos_of_ne_zero h0), List.map_cons, List.reverse_cons,
        accumulateText_append _ (ih _ hlt (by omega)),
        accumulateText_digit h36 (Nat.mod_lt _ (by omega)) (by rwa [hn']), hn']

theorem accumulateText_digitsText {radix : Nat} (hb : 1 < radix) (h36 : radix ≤ 36) (v : Value) :
    accumulateText radix 0 (digitsText v radix) = { status := .ok, value := v } := by
  by_cases hv : uval v = 0
  · have hzero : enc (uval (0 : Value) * radix + 0 : Nat) = v := by
      apply uval_inj
      rw [hv, show uval (0 : Value) = 0 from rfl, Nat.zero_mul, uval_enc_of_lt _ (by norm_num)]
    rw [digitsText, if_pos hv, ← hzero]
    exact accumulateText_digit (acc := 0) (d := 0) h36 (by omega) (by simp [uval])
  · rw [digitsText_of_ne_zero hb hv, accumulateText_digits hb h36 _ (uval_lt v), enc_uval]

/-! ## The round trip (R162) -/

section
variable {radix : Int} (hr : radixLegal radix = true)
include hr

theorem fromStringU_digitsText (v jv : Value) :
    fromStringU (some (digitsText v radix.toNat)) radix jv = { status := .ok, value := v } := by
  have hb := one_lt_toNat_of_radixLegal hr
  have h36 := toNat_le_of_radixLegal hr
  obtain ⟨ch, rest, htext, hdigit⟩ := digitsText_eq_cons hb h36 v
  have hacc := accumulateText_digitsText hb h36 v
  rw [htext] at hacc ⊢
  simp only [fromStringU, checkArguments_some hr, Option.getD_some, trimText_of_digit hdigit, reduceCtorEq, if_false,
    hacc, hideValueOnError, if_true]

/-- The magnitude is at most 2^511 behind a '-' and at most 2^511 - 1 without, so R161's check passes. -/
theorem fromStringS_signedText (v jv : Value) :
    fromStringS (some (signedText v radix.toNat)) radix jv = { status := .ok, value := v } := by
  have hlt := uval_lt v
  cases hs : sign v
  · obtain ⟨ch, rest, htext, hdigit⟩ := digitsText_eq_cons (one_lt_toNat_of_radixLegal hr)
      (toNat_le_of_radixLegal hr) v
    obtain ⟨hminus, hdrop⟩ := sign_of_digit hdigit rest
    have hmag : magnitudeStatus false v = .ok := by
      have := (sign_false_iff v).1 hs
      simp only [magnitudeStatus, Bool.false_eq_true, if_false]
      rw [if_neg (by omega)]
    have hparse := fromStringU_digitsText hr v jv
    simp only [fromStringS, checkArguments_some hr, signedText, hs, Bool.false_eq_true, if_false, Option.getD_some]
    rw [htext] at hparse ⊢
    simp [hminus, hdrop, hparse, applySign, hmag, negateIf]
  · have hmag : magnitudeStatus true (neg v) = .ok := by
      have h511 := (sign_true_iff v).1 hs
      have hneg := uval_neg v
      simp only [magnitudeStatus, if_true]
      rw [if_neg (by omega)]
    have hback : neg (neg v) = v := by rw [neg_eq_enc v, neg_enc, neg_neg, enc_sval]
    have hdrop : dropSign (charMinus :: digitsText (neg v) radix.toNat) = digitsText (neg v) radix.toNat := by
      simp [dropSign]
    simp [fromStringS, checkArguments_some hr, signedText, hs, hdrop, fromStringU_digitsText hr, applySign,
      startsWithMinus, hmag, negateIf, hback]

end

/-- The text to_string delivers with OK is what was to fit and the terminator. -/
theorem dropLast_fitText_of_ok {digits junk : List Byte} {cap : Nat} (h : (fitText digits cap junk).status = .ok) :
    (fitText digits cap junk).text.dropLast = digits := by
  by_cases hfit : digits.length + 1 ≤ cap
  · rw [fitText_of_le hfit, List.dropLast_concat]
  · rw [fitText_of_gt (by omega)] at h
    cases h

/-- Settles O54: each digit accumulates the quotient it was split from back to the number; negation undoes the sign. -/
theorem textRoundTrip : Obligations.TextRoundTrip := by
  refine fun v jv radix cap junk => ⟨fun h => ?_, fun h => ?_⟩
  · have hr := radixLegal_of_toStringU_ok h
    rw [toStringU_of_legal hr] at h ⊢
    rw [dropLast_fitText_of_ok h, fromStringU_digitsText hr]
  · have hr := radixLegal_of_toStringS_ok h
    rw [toStringS_of_legal hr] at h ⊢
    rw [dropLast_fitText_of_ok h, fromStringS_signedText hr]

end Sys2Proof.Machine
end

section
/-! PROOFS. Host programs as runs that keep the BUSY protocol, one rule per host operation (30_encoding.md R73,
45_codec_procedures.md R163; 70_reset_and_hazards.md R230). -/

namespace Sys2Proof.Machine

/-! ## Runs of host programs -/

/-- What a host program that keeps the protocol leaves: BUSY = 0, and the fault mark and the schedule as they were. -/
structure KeepsProtocol (s t : State) : Prop where
  idle : t.busy = false
  faultMark : t.faultMark = s.faultMark
  schedule : t.schedule = s.schedule

theorem KeepsProtocol.trans {s t u : State} (h : KeepsProtocol s t) (h' : KeepsProtocol t u) : KeepsProtocol s u :=
  ⟨h'.idle, h'.faultMark.trans h.faultMark, h'.schedule.trans h.schedule⟩

/-- The host program that answers `o` does not stop and keeps the protocol from `s` on, and its answer and last state meet
`P`. -/
def Runs {α : Type} (s : State) (o : ProcOutcome α) (P : α → State → Prop) : Prop :=
  ∃ a t, o = .next (a, t) ∧ KeepsProtocol s t ∧ P a t

section
variable {α β : Type} {s s' : State}

theorem Runs.of_next {a : α} {P : α → State → Prop} (hk : KeepsProtocol s s') (h : P a s') :
    Runs s (.next (a, s')) P := ⟨a, s', rfl, hk, h⟩

/-- A program run after a part that kept the protocol. -/
theorem Runs.after {o : ProcOutcome α} {P : α → State → Prop} (hk : KeepsProtocol s s') (h : Runs s' o P) : Runs s o P := by
  obtain ⟨a, t, ho, hk', hP⟩ := h
  exact ⟨a, t, ho, hk.trans hk', hP⟩

theorem Runs.imp {o : ProcOutcome α} {P Q : α → State → Prop} (h : Runs s o P) (hPQ : ∀ a t, P a t → Q a t) :
    Runs s o Q := by
  obtain ⟨a, t, ho, hk, hP⟩ := h
  exact ⟨a, t, ho, hk, hPQ a t hP⟩

/-- Two host programs in sequence. -/
theorem Runs.andThen {o : ProcOutcome α} {f : α × State → ProcOutcome β} {P : α → State → Prop}
    {Q : β → State → Prop} (h : Runs s o P) (hf : ∀ a t, t.busy = false → P a t → Runs t (f (a, t)) Q) :
    Runs s (andThen o f) Q := by
  obtain ⟨a, t, rfl, hk, hP⟩ := h
  exact .after hk (hf a t hk.idle hP)

end

/-! ## Commands: the STATUS fields of the last poll, and the registers -/

section
variable {s : State} (hb : s.busy = false) (polls : Nat → Nat)
include hb

/-- ISSUE and WAIT of a command whose rule makes `u` of the issued state: the last poll shows `u`'s CODE, Z and N, and the
registers are `u`'s. -/
theorem hostCommand_runs {i : Instr} {u : State} (hwf : i.wellFormed = true)
    (hx : exec i (issueCommand s (encode i)) = .next u) :
    Runs s (hostCommand polls i s) fun status t => codeField status = u.code.bits ∧ zField status = u.z ∧
      nField status = u.n ∧ ∀ j, t.reg j = u.reg j := by
  obtain ⟨u', t, hx', hrun, hregs, hcode, hz, hn, -, -, hidle, -, hlast, -, -, hschedule, hmark⟩ :=
    waitEndsWithTheCommandDone s i (polls s.responses.length) hwf hb
  obtain rfl : u = u' := by simpa [hx] using hx'
  refine ⟨t.lastResponse, t, by rw [hostCommand, hrun]; rfl, ⟨hidle, hmark, hschedule⟩, ?_, ?_, ?_, fun j => ?_⟩
  · rw [hlast, ← hcode]; exact statusWord_code t
  · rw [hlast, ← hz]; exact statusWord_bit_z t
  · rw [hlast, ← hn]; exact statusWord_bit_n t
  · rw [State.reg, hregs]; rfl

/-- A command that writes one result: its code is read in STATUS, and no other register changes. -/
theorem hostCommand_result_runs {i : Instr} {rd : RegIdx} {v : Value} {c : StatusCode} (hwf : i.wellFormed = true)
    (hx : exec i (issueCommand s (encode i)) = .next (complete c ((issueCommand s (encode i)).setReg rd v))) :
    Runs s (hostCommand polls i s) fun status t => codeField status = c.bits ∧ t.reg rd = v ∧
      ∀ j, j ≠ rd → t.reg j = s.reg j :=
  (hostCommand_runs hb polls hwf hx).imp fun _ _ ⟨hcode, _, _, hreg⟩ =>
    ⟨hcode, by simp [hreg], fun j hj => by simp [hreg, State.reg_setReg, hj]⟩

theorem hostCommand_mulu_runs (rd rs1 rs2 : RegIdx) :
    Runs s (hostCommand polls (.mulu rd rs1 rs2) s) fun status t =>
      codeField status = (overflowIf (mulWords (s.reg rs1) (s.reg rs2)).2).bits ∧
      t.reg rd = (mulWords (s.reg rs1) (s.reg rs2)).1 ∧ ∀ j, j ≠ rd → t.reg j = s.reg j :=
  hostCommand_result_runs hb polls rfl rfl

theorem hostCommand_addu_runs (rd rs1 rs2 : RegIdx) :
    Runs s (hostCommand polls (.addu rd rs1 rs2) s) fun status t =>
      codeField status = (overflowIf ((addWords (s.reg rs1) (s.reg rs2) 0).2 == 1)).bits ∧
      t.reg rd = (addWords (s.reg rs1) (s.reg rs2) 0).1 ∧ ∀ j, j ≠ rd → t.reg j = s.reg j :=
  hostCommand_result_runs hb polls rfl rfl

theorem hostCommand_ldc_runs (rd : RegIdx) (k : NamedConst) :
    Runs s (hostCommand polls (.ldc rd k) s) fun _ t => t.reg rd = romValue k ∧ ∀ j, j ≠ rd → t.reg j = s.reg j :=
  (hostCommand_result_runs hb polls rfl (exec_ldc rd k _)).imp fun _ _ h => h.2

theorem hostCommand_neg_runs (rd rs1 : RegIdx) :
    Runs s (hostCommand polls (.neg rd rs1) s) fun _ t =>
      t.reg rd = neg (s.reg rs1) ∧ ∀ j, j ≠ rd → t.reg j = s.reg j :=
  (hostCommand_result_runs (c := .ok) hb polls rfl rfl).imp fun _ _ h => h.2

theorem hostCommand_divu_runs {rd rd2 : RegIdx} (hne : rd ≠ rd2) (rs1 rs2 : RegIdx) (h0 : uval (s.reg rs2) ≠ 0) :
    Runs s (hostCommand polls (.divu rd rd2 rs1 rs2) s) fun _ t =>
      uval (t.reg rd) = uval (s.reg rs1) / uval (s.reg rs2) ∧
      uval (t.reg rd2) = uval (s.reg rs1) % uval (s.reg rs2) ∧ ∀ j, j ≠ rd → j ≠ rd2 → t.reg j = s.reg j := by
  obtain ⟨q, r, hx, hq, hr⟩ := exec_divu_of_ne_zero hne rs1 rs2 (issueCommand s (encode (.divu rd rd2 rs1 rs2))) h0
  refine (hostCommand_runs hb polls (by simpa [Instr.wellFormed] using hne) hx).imp fun _ t ⟨_, _, _, hreg⟩ => ?_
  simp only [issueCommand_operand] at hq hr
  simp only [hreg, complete_reg, State.reg_setReg, issueCommand_reg, hne, if_true, if_false]
  exact ⟨hq, hr, fun j h1 h2 => by rw [if_neg h2, if_neg h1]⟩

theorem hostCommand_tstz_runs (rs1 : RegIdx) :
    Runs s (hostCommand polls (.tstz rs1) s) fun status t =>
      (zField status = true ↔ uval (s.reg rs1) = 0) ∧ ∀ j, t.reg j = s.reg j := by
  have hx : exec (.tstz rs1) (issueCommand s (encode (.tstz rs1))) = .next (complete .ok
    { issueCommand s (encode (.tstz rs1)) with z := isZero (s.reg rs1) }) := rfl
  refine (hostCommand_runs hb polls rfl hx).imp fun _ _ ⟨_, hz, _, hreg⟩ => ⟨?_, hreg⟩
  rw [hz, uval_eq_zero_iff]
  exact isZero_iff _

theorem hostCommand_tstn_runs (rs1 : RegIdx) :
    Runs s (hostCommand polls (.tstn rs1) s) fun status t => nField status = sign (s.reg rs1) ∧ ∀ j, t.reg j = s.reg j := by
  have hx : exec (.tstn rs1) (issueCommand s (encode (.tstn rs1))) = .next (complete .ok
    { issueCommand s (encode (.tstn rs1)) with n := sign (s.reg rs1) }) := rfl
  exact (hostCommand_runs hb polls rfl hx).imp fun _ _ ⟨_, _, hn, hreg⟩ => ⟨hn, hreg⟩

end

/-! ## Loads and reads (R73) -/

/-- The part of a value from word j + 1 on, and word j behind it, are the part from word j on. -/
theorem shiftRight_append_word (v : Value) (j : WordIdx) {m n : Nat} (hm : m = 64 * j.val + 64) (hn : n = 64 * j.val) :
    (v >>> m <<< 64) ||| (word v j).setWidth 512 = v >>> n := by
  apply BitVec.eq_of_getLsbD_eq
  intro k hk
  rw [BitVec.getLsbD_or, BitVec.getLsbD_shiftLeft, BitVec.getLsbD_ushiftRight, BitVec.getLsbD_setWidth, getLsbD_word,
    BitVec.getLsbD_ushiftRight, hm, hn]
  rcases Nat.lt_or_ge k 64 with h | h
  · simp [h, hk]
  · have hshift : 64 * j.val + 64 + (k - 64) = 64 * j.val + k := by omega
    simp [hk, hshift, Nat.not_lt.2 h]

/-- A value put together from its own words, the highest first, is that value. -/
theorem joinWords_words (v : Value) : joinWords (wordIndices.map (word v)).reverse = v := by
  have hstart : (0 : Value) = v >>> 512 := (BitVec.ushiftRight_eq_zero (le_refl 512)).symm
  simp only [joinWords, wordIndices, List.map_cons, List.map_nil, List.reverse_cons, List.reverse_nil, List.nil_append,
    List.cons_append, List.foldl_cons, List.foldl_nil]
  rw [hstart,
    shiftRight_append_word v 7 (m := 512) (n := 448) rfl rfl,
    shiftRight_append_word v 6 (m := 448) (n := 384) rfl rfl,
    shiftRight_append_word v 5 (m := 384) (n := 320) rfl rfl,
    shiftRight_append_word v 4 (m := 320) (n := 256) rfl rfl,
    shiftRight_append_word v 3 (m := 256) (n := 192) rfl rfl,
    shiftRight_append_word v 2 (m := 192) (n := 128) rfl rfl,
    shiftRight_append_word v 1 (m := 128) (n := 64) rfl rfl,
    shiftRight_append_word v 0 (m := 64) (n := 0) rfl rfl,
    BitVec.ushiftRight_zero]

section
variable {s : State} (hb : s.busy = false)
include hb

/-- `LD xi, v` writes the register and nothing else. -/
theorem hostLoad_next (i : RegIdx) (v : Value) : hostLoad i v s = .next (s.setReg i v) :=
  wordsLoadInAnyOrder s i v wordIndices hb (.refl _)

/-- One word write. -/
theorem runEvents_writeWord (i : RegIdx) (j : WordIdx) (w : Word) :
    runEvents [.write (regAddr i j) w] s = .next (s.setReg i (setWord (s.reg i) j w)) := by
  rw [runEvents_cons, takeEvent_write_regAddr hb, andThen_next, runEvents_nil]

/-- A program after a load or a word write. -/
theorem Runs.andThen_setReg {β : Type} {o : StepOutcome} {i : RegIdx} {v : Value} {f : State → ProcOutcome β}
    {Q : β → State → Prop} (ho : o = .next (s.setReg i v)) (h : Runs (s.setReg i v) (f (s.setReg i v)) Q) :
    Runs s (Machine.andThen o f) Q := by
  rw [ho, andThen_next]
  exact .after (s' := s.setReg i v) ⟨hb, rfl, rfl⟩ h

theorem takeEvent_read_regAddr (i : RegIdx) (j : WordIdx) :
    takeEvent (.read (regAddr i j)) s = .next (respond (word (s.reg i) j) s) := by
  simp [takeEvent, hostRead, hb]

/-- `RD xi[j]`. -/
theorem hostReadWord_runs (i : RegIdx) (j : WordIdx) :
    Runs s (hostReadWord (regAddr i j) s) fun w t => w = word (s.reg i) j ∧ ∀ k, t.reg k = s.reg k := by
  refine ⟨_, respond (word (s.reg i) j) s, ?_, ⟨hb, rfl, rfl⟩, rfl, fun _ => rfl⟩
  rw [hostReadWord, runEvents_cons, takeEvent_read_regAddr hb, andThen_next, runEvents_nil, andThen_next]
  rfl

/-- Word reads of one register give the host those words, the last one newest. -/
theorem runEvents_wordReads (i : RegIdx) (js : List WordIdx) : runEvents (js.map fun j => .read (regAddr i j)) s
    = .next (s.withReads s.draws (js.map (word (s.reg i))).reverse) := by
  induction js generalizing s with
  | nil => rfl
  | cons j js ih =>
    rw [List.map_cons, runEvents_cons, takeEvent_read_regAddr hb, andThen_next, ih (by simpa using hb)]
    simp [State.withReads, respond, State.reg]

/-- `RD xi`, eight words. -/
theorem hostReadValue_runs (i : RegIdx) :
    Runs s (hostReadValue i s) fun v t => v = s.reg i ∧ ∀ k, t.reg k = s.reg k := by
  refine ⟨_, s.withReads s.draws (wordIndices.map (word (s.reg i))).reverse, ?_, ⟨hb, rfl, rfl⟩, rfl, fun _ => rfl⟩
  rw [hostReadValue, readValueEvents, runEvents_wordReads hb, andThen_next, State.withReads_responses,
    List.take_left' (by rfl), joinWords_words]

end

end Sys2Proof.Machine
end

section
/-! PROOFS. to_string on the block (45_codec_procedures.md R155, R159, R163). -/

set_option exponentiation.threshold 600

namespace Sys2Proof.Machine

theorem CodecRegs.distinct_iff (g : CodecRegs) : g.distinct = true ↔ g.w ≠ g.r ∧ g.w ≠ g.d ∧ g.r ≠ g.d := by
  simp [CodecRegs.distinct, and_assoc]

theorem reg_setReg_ne (s : State) (v : Value) {i j : RegIdx} (h : j ≠ i) : (s.setReg i v).reg j = s.reg j := by
  rw [State.reg_setReg, if_neg h]

/-- What a to_string procedure answers on the block agrees with the function: its status, and on OK its text. -/
def TextAgrees (f res : TextResult) : Prop := res.status = f.status ∧ (res.status = .ok → res.text = f.text)

/-- An error's status is all that is to agree (R154). -/
theorem failText_runs {c : StatusCode} {f : TextResult} {s : State} (hb : s.busy = false) (hc : c ≠ .ok)
    (hf : f.status = c) : Runs s (failText c s) fun res _ => TextAgrees f res :=
  .of_next ⟨hb, rfl, rfl⟩ ⟨hf.symm, fun h => absurd h hc⟩

theorem digitsLow_zero (radix fuel : Nat) : digitsLow radix fuel 0 = [] := by cases fuel <;> simp [digitsLow]

theorem word_zero_toNat_of_lt {v : Value} (h : uval v < 2 ^ 64) : (word v 0).toNat = uval v := by
  rw [word_toNat]
  simpa using h

section
variable {polls : Nat → Nat} {g : CodecRegs} (hg : g.distinct = true)
include hg

/-- The loop of R163 collects the digits that the loop of R155 collects: each round divides the number in xw. -/
theorem digitLoopOnBlock_runs {radix : Nat} (hb : 1 < radix) (h36 : radix ≤ 36) (fuel : Nat) {acc : List Byte}
    {s : State} (hidle : s.busy = false) (hr : s.reg g.r = enc radix) (h0 : uval (s.reg g.w) ≠ 0) :
    Runs s (digitLoopOnBlock polls g fuel acc s) fun digits _ =>
      digits = (digitsLow radix fuel (uval (s.reg g.w))).reverse ++ acc := by
  obtain ⟨hwr, hwd, hrd⟩ := g.distinct_iff.1 hg
  have hradix : uval (s.reg g.r) = radix := by rw [hr, uval_enc_of_lt _ (by omega)]
  induction fuel generalizing acc s with
  | zero => exact .of_next ⟨hidle, rfl, rfl⟩ rfl
  | succ fuel ih =>
    rw [digitLoopOnBlock]
    refine (hostCommand_divu_runs hidle polls hwd g.w g.r (by omega)).andThen fun _ s1 hidle1 ⟨hq, hd, hreg⟩ => ?_
    refine (hostReadWord_runs hidle1 g.d 0).andThen fun x s2 hidle2 ⟨hx, hreg2⟩ => ?_
    refine (hostCommand_tstz_runs hidle2 polls g.w).andThen fun status s3 hidle3 ⟨hz, hreg3⟩ => ?_
    rw [hradix] at hq hd
    have hlt := Nat.mod_lt (uval (s.reg g.w)) (show 0 < radix by omega)
    have hdigit : x.toNat = uval (s.reg g.w) % radix := by rw [hx, word_zero_toNat_of_lt (by omega), hd]
    have hw3 : uval (s3.reg g.w) = uval (s.reg g.w) / radix := by rw [hreg3, hreg2, hq]
    have hr3 : s3.reg g.r = s.reg g.r := by rw [hreg3, hreg2, hreg _ hwr.symm hrd]
    rw [hreg2, hq] at hz
    rw [digitsLow, if_neg h0, List.reverse_cons, List.append_assoc]
    simp only [hdigit]
    split
    next hdone =>
      rw [hz.1 hdone, digitsLow_zero]
      exact .of_next ⟨hidle3, rfl, rfl⟩ rfl
    next hmore =>
      have hrest := ih (acc := digitChar (uval (s.reg g.w) % radix) :: acc) hidle3 (hr3.trans hr)
        (by rw [hw3]; exact mt hz.2 hmore) (by rw [hr3, hradix])
      rwa [hw3] at hrest

/-- The digits of the value in xw (R155). -/
theorem digitsOnBlock_runs {radix : Nat} (hb : 1 < radix) (h36 : radix ≤ 36) {v : Value} {s : State}
    (hidle : s.busy = false) (hw : s.reg g.w = v) :
    Runs s (digitsOnBlock polls g v radix s) fun digits _ => digits = digitsText v radix := by
  by_cases h0 : uval v = 0
  · rw [digitsOnBlock, digitsText, if_pos h0, if_pos h0]
    exact .of_next ⟨hidle, rfl, rfl⟩ rfl
  · have hw' : (s.setReg g.r (enc radix)).reg g.w = v := by rw [reg_setReg_ne _ _ (g.distinct_iff.1 hg).1, hw]
    have hloop := digitLoopOnBlock_runs (polls := polls) hg hb h36 512 (acc := []) (s := s.setReg g.r (enc radix)) hidle
      (State.reg_setReg_same _ _ _) (by rwa [hw'])
    rw [digitsOnBlock, if_neg h0, digitsText, if_neg h0]
    refine .andThen_setReg hidle (hostLoad_next hidle _ _) (hloop.imp fun digits _ hdigits => ?_)
    rw [hdigits, hw', List.append_nil]

omit hg in
/-- The digits delivered behind characters already written fit where both together do. -/
theorem deliverText_runs (lead digits : List Byte) {cap : Nat} (junk : List Byte) {s : State} (hidle : s.busy = false) :
    Runs s (deliverText lead digits cap s) fun res _ =>
      TextAgrees (fitText (lead ++ digits) (lead.length + cap) junk) res := by
  unfold deliverText
  split
  next hgt =>
    rw [fitText_of_gt (by rw [List.length_append]; omega)]
    exact failText_runs hidle (by decide) rfl
  next hle =>
    rw [fitText_of_le (by rw [List.length_append]; omega)]
    exact .of_next ⟨hidle, rfl, rfl⟩ ⟨rfl, fun _ => rfl⟩

/-- The digits of the value in xw, delivered behind characters already written. -/
theorem convertOnBlock_runs {radix : Nat} (hb : 1 < radix) (h36 : radix ≤ 36) {v : Value} {s : State}
    (hidle : s.busy = false) (hw : s.reg g.w = v) (lead : List Byte) (cap : Nat) (junk : List Byte) :
    Runs s (andThen (digitsOnBlock polls g v radix s) fun p => deliverText lead p.1 cap p.2) fun res _ =>
      TextAgrees (fitText (lead ++ digitsText v radix) (lead.length + cap) junk) res := by
  refine (digitsOnBlock_runs hg hb h36 hidle hw).andThen fun digits t hidle' hdigits => ?_
  rw [← hdigits]
  exact deliverText_runs lead digits junk hidle'

/-- The negative branch of R159 delivers the '-' and the digits of the magnitude. -/
theorem negativeTextOnBlock_runs {radix : Nat} (hb : 1 < radix) (h36 : radix ≤ 36) {s : State} (hidle : s.busy = false)
    (cap : Nat) (junk : List Byte) :
    Runs s (negativeTextOnBlock polls g radix cap s) fun res _ =>
      TextAgrees (fitText (charMinus :: digitsText (neg (s.reg g.w)) radix) cap junk) res := by
  unfold negativeTextOnBlock
  split
  next hcap =>
    rw [fitText_of_gt (by omega)]
    exact failText_runs hidle (by decide) rfl
  next hcap =>
    refine (hostCommand_neg_runs hidle polls g.w g.w).andThen fun _ s1 hidle1 ⟨hneg, _⟩ => ?_
    refine (hostReadValue_runs hidle1 g.w).andThen fun v s2 hidle2 ⟨hv, hreg⟩ => ?_
    have hconvert := convertOnBlock_runs (polls := polls) hg hb h36 hidle2 (hreg g.w) [charMinus] (cap - 1) junk
    rw [List.length_singleton, show 1 + (cap - 1) = cap by omega, hneg] at hconvert
    rw [hv, hneg]
    exact hconvert

/-- Where the arguments pass, to_string_u on the block loads the value and converts it. -/
theorem toStringUOnBlock_runs (v : Value) (radix : Int) (cap : Option Nat) (junk : List Byte) {s : State}
    (hidle : s.busy = false) :
    Runs s (toStringUOnBlock polls g v radix cap s) fun res _ => TextAgrees (toStringU v radix cap junk) res := by
  by_cases hc : checkArguments radix cap = .ok
  · obtain ⟨hr, cap, rfl⟩ := checkArguments_eq_ok hc
    have hb := one_lt_toNat_of_radixLegal hr
    have h36 := toNat_le_of_radixLegal hr
    rw [toStringU_of_legal hr]
    simp only [toStringUOnBlock, hc, Option.getD_some]
    refine .andThen_setReg hidle (hostLoad_next hidle g.w v) ?_
    have hconvert := convertOnBlock_runs (polls := polls) hg hb h36 (s := s.setReg g.w v) hidle
      (State.reg_setReg_same _ _ _) [] cap junk
    rwa [List.length_nil, Nat.zero_add] at hconvert
  · rw [toStringUOnBlock_of_rejected hc, toStringU_of_rejected hc]
    exact failText_runs hidle hc rfl

/-- Where the arguments pass, to_string_s on the block loads the value and converts it by its sign. -/
theorem toStringSOnBlock_runs (v : Value) (radix : Int) (cap : Option Nat) (junk : List Byte) {s : State}
    (hidle : s.busy = false) :
    Runs s (toStringSOnBlock polls g v radix cap s) fun res _ => TextAgrees (toStringS v radix cap junk) res := by
  by_cases hc : checkArguments radix cap = .ok
  · obtain ⟨hr, cap, rfl⟩ := checkArguments_eq_ok hc
    have hb := one_lt_toNat_of_radixLegal hr
    have h36 := toNat_le_of_radixLegal hr
    rw [toStringS_of_legal hr, signedText]
    simp only [toStringSOnBlock, hc, Option.getD_some]
    refine .andThen_setReg hidle (hostLoad_next hidle g.w v) ?_
    refine (hostCommand_tstn_runs (s := s.setReg g.w v) hidle polls g.w).andThen fun status t hidle' ⟨hn, hreg⟩ => ?_
    have hw : t.reg g.w = v := by rw [hreg, State.reg_setReg_same]
    rw [State.reg_setReg_same] at hn
    simp only [hn]
    split
    next => exact hw ▸ negativeTextOnBlock_runs hg hb h36 hidle' cap junk
    next =>
      have hconvert := convertOnBlock_runs (polls := polls) hg hb h36 hidle' hw [] cap junk
      rwa [List.length_nil, Nat.zero_add] at hconvert
  · rw [toStringSOnBlock_of_rejected hc, toStringS_of_rejected hc]
    exact failText_runs hidle hc rfl

end

/-- Settles O55: each round of the loop on the block divides the number in xw as a round of R155 does, so both collect the
same digits. -/
theorem unsignedTextOnBlock : Obligations.UnsignedTextOnBlock := by
  intro polls g v radix cap junk s hg hidle
  obtain ⟨res, t, h, hk, hstatus, htext⟩ := toStringUOnBlock_runs hg v radix cap junk hidle
  exact ⟨res, t, h, hstatus, htext, hk.idle, hk.faultMark, hk.schedule⟩

/-- Settles O56: the sign TSTN shows chooses the branch, and behind the '-' the magnitude NEG leaves is converted. -/
theorem signedTextOnBlock : Obligations.SignedTextOnBlock := by
  intro polls g v radix cap junk s hg hidle
  obtain ⟨res, t, h, hk, hstatus, htext⟩ := toStringSOnBlock_runs hg v radix cap junk hidle
  exact ⟨res, t, h, hstatus, htext, hk.idle, hk.faultMark, hk.schedule⟩

end Sys2Proof.Machine
end

section
/-! PROOFS. from_string on the block (45_codec_procedures.md R157, R158, R160, R161, R163). -/

set_option exponentiation.threshold 600

namespace Sys2Proof.Machine

/-- What a from_string procedure answers on the block agrees with the function: its status, and on OK its value, which xw
holds too. -/
def ValueAgrees (g : CodecRegs) (f res : ValueResult) (t : State) : Prop :=
  res.status = f.status ∧ (res.status = .ok → res.value = f.value ∧ t.reg g.w = res.value)

theorem failValue_runs {g : CodecRegs} {c : StatusCode} {f : ValueResult} {s : State} (hb : s.busy = false)
    (hc : c ≠ .ok) (hf : f.status = c) : Runs s (failValue c s) (ValueAgrees g f) :=
  .of_next ⟨hb, rfl, rfl⟩ ⟨hf.symm, fun h => absurd h hc⟩

/-- Reading OVERFLOW in CODE is reading the datapath's flag. -/
theorem overflowIf_bits (c : Bool) : (overflowIf c).bits = StatusCode.overflow.bits ↔ c = true := by
  cases c <;> decide

/-! ## The functions by cases (R157, R158) -/

theorem accumulateDigit_of_mul_overflow {acc : Value} {radix d : Nat} (h : (mulWords acc (enc radix)).2 = true) :
    (accumulateDigit acc radix d).status = .overflow := by
  simp [accumulateDigit, h]

theorem accumulateDigit_of_mul_ok {acc : Value} {radix d : Nat} (h : ¬ (mulWords acc (enc radix)).2 = true) :
    accumulateDigit acc radix d =
      { status := overflowIf ((addWords (mulWords acc (enc radix)).1 (enc d) 0).2 == 1),
        value := (addWords (mulWords acc (enc radix)).1 (enc d) 0).1 } := by
  simp [accumulateDigit, h]

theorem lt_of_digitInRadix {radix d : Nat} {ch : Byte} (h : digitInRadix radix ch = some d) : d < radix := by
  unfold digitInRadix at h
  split at h
  · split at h <;> cases h
    assumption
  · cases h

theorem hideValueOnError_status (r : ValueResult) (junk : Value) : (hideValueOnError r junk).status = r.status := by
  unfold hideValueOnError
  split <;> rfl

theorem hideValueOnError_of_ok {r : ValueResult} (h : r.status = .ok) (junk : Value) : hideValueOnError r junk = r := by
  rw [hideValueOnError, if_pos h]

section
variable {radix : Int} {text : List Byte}

theorem fromStringU_of_blank (hr : radixLegal radix = true) (h : trimText text = []) (junk : Value) :
    fromStringU (some text) radix junk = { status := .invalidString, value := junk } := by
  simp [fromStringU, checkArguments_some hr, h]

theorem fromStringU_of_text (hr : radixLegal radix = true) (h : trimText text ≠ []) (junk : Value) :
    fromStringU (some text) radix junk = hideValueOnError (accumulateText radix.toNat 0 (trimText text)) junk := by
  simp only [fromStringU, checkArguments_some hr, Option.getD_some, h, if_false]

end

/-! ## The loop (R163) -/

/-- A digit written to a register that holds no more than its word 0. -/
theorem setWord_zero_of_lt {v : Value} (hv : uval v < 2 ^ 64) {d : Nat} (hd : d < 2 ^ 64) :
    setWord v 0 (BitVec.ofNat 64 d) = enc d := by
  apply uval_inj
  have hset := uval_setWord v 0 (BitVec.ofNat 64 d)
  rw [word_zero_toNat_of_lt hv, BitVec.toNat_ofNat, Nat.mod_eq_of_lt hd] at hset
  rw [uval_enc_of_lt _ (by omega)]
  simp at hset
  omega

section
variable {polls : Nat → Nat} {g : CodecRegs} (hg : g.distinct = true)
include hg

/-- The digit is written to xd and added to xw; `K` goes on from the STATUS word of the ADDU (R163). -/
theorem addDigitOnBlock_runs {β : Type} {K : Word × State → ProcOutcome β} {Q : β → State → Prop} {s : State} {d : Nat}
    (hidle : s.busy = false) (hd : uval (s.reg g.d) < 2 ^ 64) (hdigit : d < 2 ^ 64)
    (hK : ∀ status t, t.busy = false →
      codeField status = (overflowIf ((addWords (s.reg g.w) (enc d) 0).2 == 1)).bits →
      t.reg g.w = (addWords (s.reg g.w) (enc d) 0).1 → t.reg g.r = s.reg g.r → uval (t.reg g.d) < 2 ^ 64 →
      Runs t (K (status, t)) Q) :
    Runs s (andThen (runEvents [.write (regAddr g.d 0) (BitVec.ofNat 64 d)] s) fun s2 =>
      andThen (hostCommand polls (.addu g.w g.w g.d) s2) K) Q := by
  obtain ⟨hwr, hwd, hrd⟩ := g.distinct_iff.1 hg
  refine .andThen_setReg hidle (runEvents_writeWord hidle g.d 0 (BitVec.ofNat 64 d)) ?_
  rw [setWord_zero_of_lt hd hdigit]
  refine (hostCommand_addu_runs (s := s.setReg g.d (enc d)) hidle polls g.w g.w g.d).andThen
    fun status t hidle' ⟨hcode, hw, hreg⟩ => ?_
  rw [State.reg_setReg_same, reg_setReg_ne _ _ hwd] at hcode hw
  refine hK status t hidle' hcode hw ?_ ?_
  · rw [hreg _ hwr.symm, reg_setReg_ne _ _ hrd]
  · rw [hreg _ hwd.symm, State.reg_setReg_same, uval_enc_of_lt _ (by omega)]
    exact hdigit

/-- The loop of R163 ends with the status the loop of R158 ends with, and on OK with its value in xw: MULU and ADDU are the
two datapaths the function calls. -/
theorem parseLoopOnBlock_runs {radix : Nat} (h36 : radix ≤ 36) (text : List Byte) {s : State} (hidle : s.busy = false)
    (hr : s.reg g.r = enc radix) (hd : uval (s.reg g.d) < 2 ^ 64) :
    Runs s (parseLoopOnBlock polls g radix text s) fun status t =>
      status = (accumulateText radix (s.reg g.w) text).status ∧
      (status = .ok → t.reg g.w = (accumulateText radix (s.reg g.w) text).value) := by
  obtain ⟨hwr, hwd, -⟩ := g.distinct_iff.1 hg
  induction text generalizing s with
  | nil => exact .of_next ⟨hidle, rfl, rfl⟩ ⟨rfl, fun _ => rfl⟩
  | cons ch rest ih =>
    cases hch : digitInRadix radix ch with
    | none =>
      simp only [parseLoopOnBlock, hch, accumulateText_cons_of_none hch]
      exact .of_next ⟨hidle, rfl, rfl⟩ ⟨rfl, fun h => nomatch h⟩
    | some d =>
      have hdigit : d < 2 ^ 64 := by have := lt_of_digitInRadix hch; omega
      simp only [parseLoopOnBlock, hch, accumulateText_cons_of_some hch]
      refine (hostCommand_mulu_runs hidle polls g.w g.w g.r).andThen fun status1 s1 hidle1 ⟨hcode1, hw1, hreg1⟩ => ?_
      rw [hr] at hcode1 hw1
      simp only [hcode1, overflowIf_bits]
      split
      next hovf =>
        have hstatus := accumulateDigit_of_mul_overflow (d := d) hovf
        rw [if_neg (by rw [hstatus]; decide)]
        exact .of_next ⟨hidle1, rfl, rfl⟩ ⟨hstatus.symm, fun h => nomatch h⟩
      next hfit =>
        refine addDigitOnBlock_runs hg hidle1 (by rwa [hreg1 _ hwd.symm]) hdigit
          fun status3 s3 hidle3 hcode3 hw3 hr3 hd3 => ?_
        rw [hw1] at hcode3 hw3
        rw [accumulateDigit_of_mul_ok hfit]
        simp only [hcode3, overflowIf_bits]
        split
        next hcarry =>
          rw [hcarry]
          exact .of_next ⟨hidle3, rfl, rfl⟩ ⟨rfl, fun h => nomatch h⟩
        next hnocarry =>
          have hok : overflowIf false = .ok := rfl
          rw [Bool.not_eq_true] at hnocarry
          rw [hnocarry, if_pos hok, ← hw3]
          exact ih hidle3 (by rw [hr3, hreg1 _ hwr.symm, hr]) hd3

omit hg in
/-- On OK the value returned is read from xw. -/
theorem deliverValue_runs {f : ValueResult} {status : StatusCode} {t : State} (hidle : t.busy = false)
    (hstatus : status = f.status) (hvalue : status = .ok → t.reg g.w = f.value) :
    Runs t (deliverValue g (status, t)) (ValueAgrees g f) := by
  unfold deliverValue
  split
  next hok =>
    refine (hostReadValue_runs hidle g.w).andThen fun v t' hidle' ⟨hv, hreg⟩ => ?_
    exact .of_next ⟨hidle', rfl, rfl⟩ ⟨hok.symm.trans hstatus, fun _ => ⟨hv.trans (hvalue hok), (hreg _).trans hv.symm⟩⟩
  next hne => exact failValue_runs hidle hne hstatus.symm

/-! ## The procedures -/

/-- Where there is text to parse, from_string_u on the block loads the radix, clears xw and xd, and runs the loop. -/
theorem fromStringUOnBlock_runs (text : Option (List Byte)) (radix : Int) (junk : Value) {s : State}
    (hidle : s.busy = false) :
    Runs s (fromStringUOnBlock polls g text radix s) (ValueAgrees g (fromStringU text radix junk)) := by
  obtain ⟨hwr, hwd, hrd⟩ := g.distinct_iff.1 hg
  by_cases hc : checkArguments radix text = .ok
  · obtain ⟨hr, text, rfl⟩ := checkArguments_eq_ok hc
    have h36 := toNat_le_of_radixLegal hr
    have hradix : (enc radix : Value) = enc (radix.toNat : Int) := by
      rw [Int.toNat_of_nonneg (by have := radixLegal_iff.1 hr; omega)]
    simp only [fromStringUOnBlock, hc, Option.getD_some]
    split
    next hblank =>
      rw [fromStringU_of_blank hr hblank]
      exact failValue_runs hidle (by decide) rfl
    next htext =>
      rw [fromStringU_of_text hr htext]
      refine .andThen_setReg hidle (hostLoad_next hidle g.r (enc radix)) ?_
      refine (hostCommand_ldc_runs (s := s.setReg g.r (enc radix)) hidle polls g.w .uzero).andThen
        fun _ s2 hidle2 ⟨hw2, hreg2⟩ => ?_
      refine (hostCommand_ldc_runs hidle2 polls g.d .uzero).andThen fun _ s3 hidle3 ⟨hd3, hreg3⟩ => ?_
      have hw : s3.reg g.w = 0 := (hreg3 _ hwd).trans hw2
      have hr3 : s3.reg g.r = enc (radix.toNat : Int) := by
        rw [hreg3 _ hrd, hreg2 _ hwr.symm, State.reg_setReg_same, hradix]
      have hd : uval (s3.reg g.d) < 2 ^ 64 := by rw [hd3]; decide
      refine (parseLoopOnBlock_runs hg h36 (trimText text) hidle3 hr3 hd).andThen
        fun status t hidle' ⟨hstatus, hvalue⟩ => ?_
      rw [hw] at hstatus hvalue
      refine deliverValue_runs hidle' (hstatus.trans (hideValueOnError_status _ _).symm) fun hok => ?_
      rw [hideValueOnError_of_ok (hstatus.symm.trans hok), hvalue hok]
  · rw [fromStringUOnBlock_of_rejected hc, fromStringU_of_rejected hc]
    exact failValue_runs hidle hc rfl

omit hg in
/-- R160, R161: the range check on the magnitude read back, and NEG where a minus was present. -/
theorem applySignOnBlock_runs (minus : Bool) {f res : ValueResult} (junk : Value) {s : State} (hidle : s.busy = false)
    (h : ValueAgrees g f res s) :
    Runs s (applySignOnBlock polls g minus (res, s)) (ValueAgrees g (applySign minus f junk)) := by
  obtain ⟨hstatus, hvalue⟩ := h
  by_cases hok : res.status = .ok
  case neg =>
    rw [applySignOnBlock, if_pos hok, applySign, if_pos (hstatus ▸ hok)]
    exact .of_next ⟨hidle, rfl, rfl⟩ ⟨hstatus, fun h => absurd h hok⟩
  case pos =>
    obtain ⟨hval, hw⟩ := hvalue hok
    rw [applySignOnBlock, if_neg (not_not.2 hok), applySign, if_neg (not_not.2 (hstatus.symm.trans hok)), ← hval]
    by_cases hrange : magnitudeStatus minus res.value = .ok
    case neg =>
      rw [if_pos hrange, if_pos hrange]
      exact failValue_runs hidle hrange rfl
    case pos =>
      rw [if_neg (not_not.2 hrange), if_neg (not_not.2 hrange)]
      cases minus
      · exact .of_next ⟨hidle, rfl, rfl⟩ ⟨hok, fun _ => ⟨rfl, hw⟩⟩
      · refine (hostCommand_neg_runs hidle polls g.w g.w).andThen fun _ s1 hidle1 ⟨hneg, _⟩ => ?_
        refine (hostReadValue_runs hidle1 g.w).andThen fun v s2 hidle2 ⟨hv, hreg⟩ => ?_
        have hvneg : v = neg res.value := by rw [hv, hneg, hw]
        exact .of_next ⟨hidle2, rfl, rfl⟩ ⟨rfl, fun _ => ⟨hvneg, (hreg _).trans hv.symm⟩⟩

/-- Where the arguments pass, from_string_s on the block parses the magnitude and applies the sign. -/
theorem fromStringSOnBlock_runs (text : Option (List Byte)) (radix : Int) (junk : Value) {s : State}
    (hidle : s.busy = false) :
    Runs s (fromStringSOnBlock polls g text radix s) (ValueAgrees g (fromStringS text radix junk)) := by
  by_cases hc : checkArguments radix text = .ok
  · simp only [fromStringSOnBlock, fromStringS, hc]
    exact (fromStringUOnBlock_runs hg _ radix junk hidle).andThen fun res t hidle' h =>
      applySignOnBlock_runs _ junk hidle' h
  · rw [fromStringSOnBlock_of_rejected hc, fromStringS_of_rejected hc]
    exact failValue_runs hidle hc rfl

end

/-- Settles O57: each round of the loop on the block runs the multiply and the add of a round of R158 and reads their
flags. -/
theorem unsignedParseOnBlock : Obligations.UnsignedParseOnBlock := by
  intro polls g text radix junk s hg hidle
  obtain ⟨res, t, h, hk, hstatus, hvalue⟩ := fromStringUOnBlock_runs hg text radix junk hidle
  exact ⟨res, t, h, hstatus, hvalue, hk.idle, hk.faultMark, hk.schedule⟩

/-- Settles O58: the magnitude is from_string_u's, and NEG is the function's negation. -/
theorem signedParseOnBlock : Obligations.SignedParseOnBlock := by
  intro polls g text radix junk s hg hidle
  obtain ⟨res, t, h, hk, hstatus, hvalue⟩ := fromStringSOnBlock_runs hg text radix junk hidle
  exact ⟨res, t, h, hstatus, hvalue, hk.idle, hk.faultMark, hk.schedule⟩

end Sys2Proof.Machine
end

section
/-! PROOFS. Status codes and the completion step (60_exceptions.md R201, R204, R215). -/

namespace Sys2Proof.Machine

/-! ## The codes of the classifications (R101 to R105, R122 to R125) -/

theorem overflowIf_mem (c : Bool) : overflowIf c ∈ [StatusCode.ok, .overflow] := by cases c <;> decide

theorem underflowIf_mem (c : Bool) : underflowIf c ∈ [StatusCode.ok, .underflow] := by cases c <;> decide

/-- The sign test of R122 and R123, whatever lets the result leave the signed range (`p`), gives one of three codes. -/
theorem signTest_mem (p : Prop) [Decidable p] (negative : Bool) :
    (if p then (if negative then .underflow else .overflow) else .ok) ∈ [StatusCode.ok, .overflow, .underflow] := by
  by_cases hp : p
  · rw [if_pos hp]
    cases negative <;> decide
  · rw [if_neg hp]
    decide

/-! ## The code a command leaves (R201) -/

theorem finishOne_code {rd : RegIdx} {v : Value} {c : StatusCode} {s t : State} (h : finishOne rd v c s = .next t) :
    t.code = c := by
  cases h
  rfl

/-- A divide with different destinations leaves DIV_BY_ZERO or the code of its division (R205). -/
theorem finishDivide_code {rd rd2 : RegIdx} {b q r : Value} {c : StatusCode} {s t : State} (hne : rd ≠ rd2)
    (h : finishDivide rd rd2 b q r c s = .next t) : t.code = .divByZero ∨ t.code = c := by
  by_cases hb : uval b = 0
  · rw [finishDivide_of_zero hne hb] at h
    cases h
    exact .inl rfl
  · rw [finishDivide_of_ne_zero hne hb] at h
    cases h
    exact .inr rfl

/-- R201: the code a well-formed command leaves is one of its row's. -/
theorem exec_code_mem {i : Instr} {s t : State} (hwf : i.wellFormed = true) (h : exec i s = .next t) :
    t.code ∈ possibleCodes i := by
  cases i with
  | addu | mulu | muls => exact finishOne_code h ▸ overflowIf_mem _
  | subu => exact finishOne_code h ▸ underflowIf_mem _
  | adds | subs => exact finishOne_code h ▸ signTest_mem _ _
  | neg | ldc | mov => exact finishOne_code h ▸ List.mem_singleton_self _
  | cmpu | cmps | tstz | tstn =>
    cases h
    exact List.mem_singleton_self _
  | divu rd rd2 =>
    have hne : rd ≠ rd2 := by simpa [Instr.wellFormed] using hwf
    rcases finishDivide_code hne h with hc | hc <;> simp [possibleCodes, hc]
  | divs rd rd2 rs1 rs2 =>
    have hne : rd ≠ rd2 := by simpa [Instr.wellFormed] using hwf
    rcases finishDivide_code hne h with hc | hc
    · simp [possibleCodes, hc]
    · have hrow : [StatusCode.ok, .overflow] ⊆ [.ok, .divByZero, .overflow] := by decide
      exact hrow (hc ▸ overflowIf_mem _)

/-! ## Who writes CODE (10_state.md R28) -/

@[simp] theorem memWrite_code (s : State) (a : WAddr) (v : Word) : (memWrite s a v).code = s.code := by
  obtain ⟨_, _, _, _, h⟩ := memWrite_writes s a v
  rw [h]

/-- R28: a step keeps CODE unless it is a reset or the completion step. -/
theorem step_code_cases {s t : State} (h : step s = .next t) :
    t.code = s.code ∨ s.schedule.head? = some .reset ∨ s.completesNext := by
  cases step_cases h with
  | complete hc hb _ _ _ _ => exact .inr (.inr ⟨hb, (coreIsNext_iff s).1 hc⟩)
  | reset _ hs _ => exact .inr (.inl (by simp [hs]))
  | idle _ _ ht | read _ _ _ _ ht | busyRead _ _ _ ht | write _ _ _ _ _ ht => exact .inl (by simp [ht])

/-- Settles O28: each command's classification stays within its row of the table, and of the steps only a reset and the
completion step write CODE. -/
theorem codesAreThoseOfTheCommand : Obligations.CodesAreThoseOfTheCommand :=
  ⟨fun _ _ _ => exec_code_mem, fun _ _ h hne => (step_code_cases h).resolve_left hne⟩

/-! ## The core's turn with nothing scheduled (log 1) -/

theorem step_of_schedule_nil {s : State} (hs : s.schedule = []) : step s = coreTurn s := by simp [step, hs]

/-- Settles O7: either way the core's turn comes, it finds BUSY = 1 and decodes the latched word. -/
theorem stepRunsTheLatchedCommand : Obligations.StepRunsTheLatchedCommand := fun s i hb hi =>
  ⟨fun _ hs => step_core_legal hs hb hi, fun hs =>
    calc step s = coreTurn s := step_of_schedule_nil hs
      _ = completePending s := coreTurn_of_busy hb
      _ = retireOutcome (exec i s) := completePending_legal hi⟩

/-- Settles O24: either way the core's turn comes, it finds BUSY = 0 and does nothing. -/
theorem idleBlockHoldsItsState : Obligations.IdleBlockHoldsItsState := fun _ hb =>
  ⟨fun hs => (step_of_schedule_nil hs).trans (coreTurn_of_idle hb),
    fun _ hs => (step_core (.inl hs)).trans (coreTurn_of_idle hb)⟩

end Sys2Proof.Machine
end

section
/-! PROOFS. Reset and the BUSY protocol (70_reset_and_hazards.md R221, R222, R230 to R232). -/

namespace Sys2Proof.Machine

/-! ## Polls with BUSY = 0 (R232) -/

/-- Polling with BUSY = 0 gives the host the defined STATUS each time and does nothing else. -/
theorem runEvents_polls_idle (n : Nat) {s : State} (hb : s.busy = false) :
    runEvents (List.replicate n (.read statusAddr)) s = .next (s.withReads s.draws (List.replicate n s.statusWord)) := by
  induction n generalizing s with
  | zero => rfl
  | succ n ih =>
    have hword : (respond s.statusWord s).statusWord = s.statusWord := rfl
    rw [List.replicate_succ, runEvents_cons, takeEvent_poll_idle hb, andThen_next,
      ih (s := respond s.statusWord s) hb, hword, List.replicate_succ']
    simp [State.withReads]

/-- Settles O10: the core's turn ends with BUSY = 0 whatever the word, so every poll after it reads the defined STATUS. -/
theorem busyIsNeverSeenAfterCompletion : Obligations.BusyIsNeverSeenAfterCompletion := by
  intro s c n hb
  obtain ⟨u, _, hk, hdone⟩ := completePending_next (issueCommand s c)
  have hcore : takeEvent .core (issueCommand s c) = .next (retire u) := (coreTurn_of_busy rfl).trans hdone
  have hreads : u.responses = s.responses := hk.responses
  refine ⟨(retire u).withReads u.draws (List.replicate n (retire u).statusWord), ?_, by simp [hreads, add_comm],
    fun w hw => ?_⟩
  · calc runEvents (.write cmdAddr c :: .core :: List.replicate n (.read statusAddr)) s
      _ = runEvents (List.replicate n (.read statusAddr)) (retire u) := by
        rw [runEvents_cons, takeEvent_issue hb, andThen_next, runEvents_cons, hcore, andThen_next]
      _ = _ := runEvents_polls_idle n (retire_busy u)
  · rw [State.withReads_responses, List.take_left' List.length_replicate] at hw
    rw [List.eq_of_mem_replicate hw]
    exact statusWord_bit_busy (retire u)

/-! ## Which events need BUSY = 0 (R230) -/

/-- A host access that is only defined with BUSY = 0: every one but a STATUS read. -/
def Event.NeedsIdle (e : Event) : Prop := (∃ a, e = .read a ∧ a ≠ statusAddr) ∨ ∃ a v, e = .write a v

theorem takeEvent_violates {s : State} {e : Event} (hb : s.busy = true) (he : e.NeedsIdle) :
    takeEvent e s = violate e s := by
  rcases he with ⟨a, rfl, ha⟩ | ⟨a, v, rfl⟩
  · simp [takeEvent, hostRead, hb, ha]
  · simp [takeEvent, hostWrite, hb]

theorem takeEvent_next_of_idle {s : State} (hb : s.busy = false) (e : Event) : ∃ t, takeEvent e s = .next t := by
  cases e with
  | read a => exact ⟨respond (memRead s a) s, by simp [takeEvent, hostRead, hb]⟩
  | write a v => exact ⟨memWrite s a v, by simp [takeEvent, hostWrite, hb]⟩
  | reset => exact ⟨applyReset s, rfl⟩
  | core => exact coreTurn_next s

/-- With BUSY = 1 a STATUS read, a reset and the core's turn go on. -/
theorem takeEvent_next_of_busy {s : State} {e : Event} (hb : s.busy = true) (he : ¬ e.NeedsIdle) :
    ∃ t, takeEvent e s = .next t := by
  cases e with
  | read a =>
    obtain rfl : a = statusAddr := not_not.1 fun ha => he (.inl ⟨a, rfl, ha⟩)
    exact ⟨_, takeEvent_poll_busy hb⟩
  | write a v => exact absurd (.inr ⟨a, v, rfl⟩) he
  | reset => exact ⟨applyReset s, rfl⟩
  | core => exact coreTurn_next s

/-- An event goes on, or it violates the BUSY protocol. -/
theorem takeEvent_next_or_violates (e : Event) (s : State) : (∃ t, takeEvent e s = .next t) ∨
    (s.busy = true ∧ e.NeedsIdle ∧ takeEvent e s = violate e s) := by
  cases hb : s.busy with
  | false => exact .inl (takeEvent_next_of_idle hb e)
  | true =>
    by_cases he : e.NeedsIdle
    · exact .inr ⟨rfl, he, takeEvent_violates hb he⟩
    · exact .inl (takeEvent_next_of_busy hb he)

theorem popped_of_cons {s : State} {e : Event} {rest : List Event} (hs : s.schedule = e :: rest) :
    s.popped = { s with schedule := rest } := by simp [State.popped, hs]

/-- A step goes on, or it is a violation: the core's turn always goes on (R203). -/
theorem step_next_or_violates (s : State) : (∃ t, step s = .next t) ∨
    (s.busy = true ∧ ∃ e rest, s.schedule = e :: rest ∧ e.NeedsIdle ∧ step s = violate e { s with schedule := rest }) := by
  cases hs : s.schedule with
  | nil => exact .inl (step_of_schedule_nil hs ▸ coreTurn_next s)
  | cons e rest =>
    rw [step_cons hs, popped_of_cons hs]
    exact (takeEvent_next_or_violates e { s with schedule := rest }).imp_right
      fun ⟨hb, he, hv⟩ => ⟨hb, e, rest, rfl, he, hv⟩

/-- Settles O21: a step that does not go on is a violation, and an access that needs BUSY = 0 is one while BUSY = 1. -/
theorem faultExactlyOnProtocolViolation : Obligations.FaultExactlyOnProtocolViolation := by
  refine fun s => ⟨fun r => ⟨fun h => ?_, ?_⟩, fun r h => ?_⟩
  · rcases step_next_or_violates s with ⟨t, hn⟩ | ⟨hb, e, rest, hs, he, hv⟩
    · cases hn.symm.trans h
    · cases hv.symm.trans h
      exact ⟨hb, e, rest, hs, he, rfl⟩
  · rintro ⟨hb, e, rest, hs, he, rfl⟩
    rw [step_cons hs, popped_of_cons hs]
    exact takeEvent_violates hb he
  · rcases step_next_or_violates s with ⟨t, hn⟩ | ⟨_, _, _, _, _, hv⟩
    · cases hn.symm.trans h
    · cases hv.symm.trans h

/-! ## What a STATUS read shows (R231) -/

theorem busyStatusWord_bit_busy (draw : BitVec 63) : (busyStatusWord draw).getLsbD 0 = true := by
  simp only [busyStatusWord, BitVec.getLsbD_append]
  simp

theorem busyStatusWord_draw (draw : BitVec 63) : (busyStatusWord draw).extractLsb' 1 63 = draw := by
  rw [busyStatusWord, BitVec.extractLsb'_append_eq_of_le (by omega)]
  exact BitVec.extractLsb'_eq_self

/-- A STATUS read with BUSY = 1 answers bit 0 and a draw, and counts the draw (log 4). -/
theorem step_poll_busy {s : State} {rest : List Event} (hs : s.schedule = .read statusAddr :: rest)
    (hb : s.busy = true) : step s
      = .next (respond (busyStatusWord (Config.busyStatusBits s.draws)) (countDraw { s with schedule := rest })) := by
  rw [step_cons hs, popped_of_cons hs]
  exact takeEvent_poll_busy hb

/-- Settles O22: with BUSY = 1 the word read is a draw above a 1 in bit 0, so a read that shows 0 there was made with
BUSY = 0. -/
theorem statusReadsWhileBusy : Obligations.StatusReadsWhileBusy := by
  refine fun s rest hs => ⟨fun hb => ⟨_, step_poll_busy hs hb, busyStatusWord_bit_busy _, busyStatusWord_draw _⟩,
    fun t h h0 => ?_⟩
  cases hb : s.busy with
  | true =>
    cases (step_poll_busy hs hb).symm.trans h
    exact absurd ((busyStatusWord_bit_busy _).symm.trans h0) (by decide)
  | false =>
    cases (step_read hs hb).symm.trans h
    exact ⟨rfl, memRead_statusAddr s⟩

/-! ## Reset (R221, R222) -/

/-- Settles O11: after reset nothing is pending, BUSY is 0 and CODE is OK. -/
theorem resetMeetsTheInvariant : Obligations.ResetMeetsTheInvariant := .of_not_pending rfl rfl rfl

theorem statusWord_reset : State.reset.statusWord = 0 := by decide

theorem step_reset {s : State} {rest : List Event} (hs : s.schedule = .reset :: rest) :
    step s = .next (applyReset s.popped) := step_cons hs

/-- Settles O14: a reset step answers the state after reset in all the block holds, and keeps the fault mark. -/
theorem resetLeavesEverythingZero : Obligations.ResetLeavesEverythingZero := fun s _ hs =>
  ⟨applyReset s.popped, step_reset hs, applyReset_reg _, rfl, statusWord_reset, rfl, rfl, rfl, rfl, rfl, rfl, rfl⟩

end Sys2Proof.Machine
end
